-- ==== Sys2Proof/Word.lean ====
section
/-! DEFINITION. The words of the machine: the byte, the seven-bit length, the symbol, the mode and
the name of a block (spec/10_state.md R11, R12, R15, R19; spec/00_scope.md R2). -/

namespace Sys2Proof

/-- The unit of data: 8 bits, unsigned, every value legal (R11). -/
abbrev Byte := BitVec 8

/-- A seven-bit unsigned count: the length field, `E.len` and `D.cnt` (R15, R16, R61). -/
abbrev Len := BitVec 7

/-- What a source read yields: a byte, or the one end-of-input marker (R12). The spec writes it in
9 bits; `Machine.symBits` gives them, and equality here is equality of those 9 bits. -/
inductive Sym where
  | byte (b : Byte)
  | eoi
  deriving DecidableEq, Repr, Inhabited

/-- The two kinds of run: the encoder's classifier state and the mode of a record (R19, R61). -/
inductive Mode where
  | literalMode
  | repeatMode
  deriving DecidableEq, Repr, Inhabited

/-- The two blocks, independent of one another (R2). -/
inductive Block where
  | encoder
  | decoder
  deriving DecidableEq, Repr, Inhabited

end Sys2Proof
end

