-- ==== Sys2Proof/Config.lean ====
section
/-! DEFINITION. What is fixed for the machine: the constants of spec/00_scope.md R5, and the free
values that RESET leaves in the registers the spec calls unspecified (spec/10_state.md R30). -/

namespace Sys2Proof.Config

/-- `MODE_BIT`: the bit of the control byte that holds the mode (R5). -/
def modeBit : Nat := 7

/-- `MODE_MASK`: OR-ed into the control byte of a Repeat record (R5). -/
def modeMask : Byte := 0x80

/-- `LEN_MASK`: mask of the length field (R5). -/
def lenMask : Byte := 0x7F

/-- `MAX_LEN`: the largest length a record carries, the cap at which a run is split (R5). -/
def maxLen : Len := 127

/-- `LBUF_DEPTH`: how many bytes the pending literal buffer holds (R5). -/
abbrev lbufDepth : Nat := 127

/-- The size in bytes of the longest record, `LIT 127` (R66). -/
def maxRecord : Nat := 128

/-- The value of `E.mode` after the `k`-th RESET: unspecified (R30, R160), log entry 2. -/
opaque freeMode (k : Nat) : Mode

/-- The value of `E.cur` after the `k`-th RESET: unspecified (R30, R160), log entry 2. -/
opaque freeCur (k : Nat) : Sym

/-- The value of `E.next` after the `k`-th RESET: unspecified (R30, R160), log entry 2. -/
opaque freeNext (k : Nat) : Sym

/-- The value of `E.nn` after the `k`-th RESET: unspecified (R30, R160), log entry 2. -/
opaque freeNn (k : Nat) : Sym

/-- The value of `E.len` after the `k`-th RESET: unspecified (R30, R160), log entry 2. -/
opaque freeLen (k : Nat) : Len

/-- The contents of `E.lbuf` after the `k`-th RESET: unspecified (R30, R160), log entry 2. -/
opaque freeLbuf (k : Nat) : Vector Byte lbufDepth

/-- The value of `D.ctl` after the `k`-th RESET: unspecified (R30, R160), log entry 2. -/
opaque freeCtl (k : Nat) : Byte

/-- The value of `D.cnt` after the `k`-th RESET: unspecified (R30, R160), log entry 2. -/
opaque freeCnt (k : Nat) : Len

/-- The value of `D.val` after the `k`-th RESET: unspecified (R30, R160), log entry 2. -/
opaque freeVal (k : Nat) : Byte

end Sys2Proof.Config
end

