-- ==== Sys2Proof/Syntax.lean ====
section
/-! DEFINITION. The instructions: one constructor per row of spec/opcode_table.json, in the table's
five formats (spec/30_encoding.md R74). -/

namespace Sys2Proof

/-- The record kinds of the wire format, which the decoder fetches and executes, the named operations
of the two state machines, which are what a step is, and the host's two commands (R7, R74). -/
inductive Instr where
  /-- RSV.LIT0: the reserved control byte 0x00 (R70, R118). -/
  | rsvLit0
  /-- RSV.REP0: the reserved control byte 0x80 (R70, R118). -/
  | rsvRep0
  /-- LIT n, b1 ... bn: a Literal record, `n` and its payload (R63, R117). -/
  | lit (n : Len) (payload : List Byte)
  /-- REP n, v: a Repeat record, `n` and its value byte (R62, R116). -/
  | rep (n : Len) (v : Byte)
  /-- ENC.START (R82). -/
  | encStart
  /-- ENC.HALT (R90). -/
  | encHalt
  /-- ENC.REP.END (R85). -/
  | encRepEnd
  /-- ENC.REP.CAP (R86). -/
  | encRepCap
  /-- ENC.REP.CONT (R84). -/
  | encRepCont
  /-- ENC.LIT.FLUSH (R88). -/
  | encLitFlush
  /-- ENC.LIT.CAP (R89). -/
  | encLitCap
  /-- ENC.LIT.CONT (R87). -/
  | encLitCont
  /-- DEC.START (R112). -/
  | decStart
  /-- DEC.FETCH (R111). -/
  | decFetch
  /-- DEC.REP.VAL (R113). -/
  | decRepVal
  /-- DEC.REP.OUT (R114). -/
  | decRepOut
  /-- DEC.LIT.COPY (R115). -/
  | decLitCopy
  /-- RESET: the host's command `reset` to one block (R160). -/
  | reset (b : Block)
  /-- START: the host's command `start` to one block (R161). -/
  | start (b : Block)
  deriving DecidableEq, Repr, Inhabited

end Sys2Proof
end

