-- ==== Sys2Proof/WellFormed.lean ====
section
/-! DEFINITION. When an instruction is one the spec has: a record's length is in 1 to 127 and a
Literal record carries exactly that many payload bytes (spec/30_encoding.md R61, R62, R63, R71). -/

namespace Sys2Proof

/-- Is the instruction one of the record kinds of the wire format (the table's formats RSV, LIT and
REP), the only rows a decoder of streams is written from (R74)? -/
def Instr.isRecord : Instr → Bool
  | .rsvLit0 | .rsvRep0 | .lit _ _ | .rep _ _ => true
  | .encStart | .encHalt | .encRepEnd | .encRepCap | .encRepCont => false
  | .encLitFlush | .encLitCap | .encLitCont => false
  | .decStart | .decFetch | .decRepVal | .decRepOut | .decLitCopy => false
  | .reset _ | .start _ => false

/-- LIT: `1 ≤ n ≤ 127` and exactly `n` payload bytes (R63). REP: `1 ≤ n ≤ 127` (R62). The other rows
have no operand that could be wrong. -/
def Instr.wellFormed : Instr → Bool
  | .lit n payload => n ≠ 0 && payload.length == n.toNat
  | .rep n _ => n ≠ 0
  | .rsvLit0 | .rsvRep0 => true
  | .encStart | .encHalt | .encRepEnd | .encRepCap | .encRepCont => true
  | .encLitFlush | .encLitCap | .encLitCont => true
  | .decStart | .decFetch | .decRepVal | .decRepOut | .decLitCopy => true
  | .reset _ | .start _ => true

end Sys2Proof
end

