-- ==== Sys2Proof/Decode.lean ====
section
/-! DEFINITION. Decoding: the control byte's fields, the records of the wire format, the selector
vector of the encoder and the phase code of the decoder; after it the encoder of records
(spec/30_encoding.md R61 to R74, spec/40_encoder.md R80, spec/41_decoder.md R110). -/

namespace Sys2Proof

/-! The shared format functions (R64, R65). -/

/-- `PackCtl`: `len | 0x80` for Repeat, `len` for Literal, for `len` in 1 to 127 (R64, R65). `len = 0` is
outside R65 and no rule evaluates it: the 0x80 and 0x00 it has here are DESIGN CHOICE, log entry 13. -/
def packCtl (m : Mode) (n : Len) : Byte :=
  match m with
  | .repeatMode => n.setWidth 8 ||| Config.modeMask
  | .literalMode => n.setWidth 8

/-- `CtlMode`: bit 7 of the control byte (R64, R65). -/
def ctlMode (c : Byte) : Mode :=
  if c.getLsbD Config.modeBit then .repeatMode else .literalMode

/-- `CtlLen`: bits 6 to 0 of the control byte (R64, R65). -/
def ctlLen (c : Byte) : Len := (c &&& Config.lenMask).setWidth 7

/-- How many bytes the record of a control byte occupies: the control byte alone gives it. A reserved
byte is consumed alone (R66, R118). -/
def recordSize (c : Byte) : Nat :=
  if ctlLen c = 0 then 1
  else
    match ctlMode c with
    | .repeatMode => 2
    | .literalMode => 1 + (ctlLen c).toNat

/-! The records of a stream (R69, R71). -/

/-- Why the front of a byte list is no record. -/
inductive DecodeError where
  /-- No byte is there: the stream ends at a record boundary (R67). -/
  | endOfStream
  /-- A Repeat control byte without its value byte (R67, R135). -/
  | truncatedRepeat
  /-- A Literal control byte with fewer payload bytes than its length (R67, R136). -/
  | truncatedLiteral
  deriving DecidableEq, Repr, Inhabited

/-- The first record of a byte list and the bytes after it. The two exact matches are tested before
the two one-bit matches (R69). -/
def decode : List Byte → Except DecodeError (Instr × List Byte)
  | [] => .error .endOfStream
  | c :: rest =>
    if c = 0x00 then .ok (.rsvLit0, rest)
    else if c = 0x80 then .ok (.rsvRep0, rest)
    else
      match ctlMode c with
      | .repeatMode =>
        match rest with
        | [] => .error .truncatedRepeat
        | v :: rest' => .ok (.rep (ctlLen c) v, rest')
      | .literalMode =>
        if (ctlLen c).toNat ≤ rest.length then
          .ok (.lit (ctlLen c) (rest.take (ctlLen c).toNat), rest.drop (ctlLen c).toNat)
        else .error .truncatedLiteral

/-- The bytes of a record (R62, R63, R72). The operations and commands are not part of the wire format
(R74) and have none. -/
def encode : Instr → List Byte
  | .rsvLit0 => [0x00]
  | .rsvRep0 => [0x80]
  | .lit n payload => packCtl .literalMode n :: payload
  | .rep n v => [packCtl .repeatMode n, v]
  | .encStart | .encHalt | .encRepEnd | .encRepCap | .encRepCont => []
  | .encLitFlush | .encLitCap | .encLitCont => []
  | .decStart | .decFetch | .decRepVal | .decRepOut | .decLitCopy => []
  | .reset _ | .start _ => []

/-! The operations, which a block's state selects (R74: formats ENC_SEL and DEC_PHASE). -/

/-- A row of format ENC_SEL or DEC_PHASE: the operation is selected when the vector under the mask is
the wanted value (R74). -/
structure SelRow (w : Nat) where
  mask : BitVec w
  want : BitVec w
  op : Instr
  deriving DecidableEq, Repr

/-- The seven rows of format ENC_SEL, on `sel = e, m, ne, q, cap` with `e` in bit 4 (R80). -/
def encSelRows : List (SelRow 5) :=
  [ ⟨0x10, 0x10, .encHalt⟩, ⟨0x1C, 0x0C, .encRepEnd⟩, ⟨0x1D, 0x09, .encRepCap⟩,
    ⟨0x1D, 0x08, .encRepCont⟩, ⟨0x1A, 0x02, .encLitFlush⟩, ⟨0x1B, 0x01, .encLitCap⟩,
    ⟨0x1B, 0x00, .encLitCont⟩ ]

/-- The five rows of format DEC_PHASE, on the code of `D.phase` (R110). -/
def decPhaseRows : List (SelRow 3) :=
  [ ⟨0x7, 0x0, .decStart⟩, ⟨0x7, 0x1, .decFetch⟩, ⟨0x7, 0x2, .decRepVal⟩,
    ⟨0x7, 0x3, .decRepOut⟩, ⟨0x7, 0x4, .decLitCopy⟩ ]

/-- Does a row select at this vector? -/
def rowSelects {w : Nat} (v : BitVec w) (r : SelRow w) : Bool := v &&& r.mask == r.want

/-- The operation a vector selects in a list of rows, if any. -/
def decodeRows {w : Nat} (rows : List (SelRow w)) (v : BitVec w) : Option Instr :=
  (rows.find? (rowSelects v)).map (·.op)

/-- The encoder operation of a selector vector, while `E.phase = RUN` (R80). -/
def decodeSelector (v : BitVec 5) : Option Instr := decodeRows encSelRows v

/-- The decoder operation of a phase code; DEC.START needs the `start` command as well (R110). -/
def decodePhase (v : BitVec 3) : Option Instr := decodeRows decPhaseRows v

/-! Words as spec/opcode_table.json numbers their bits. -/

/-- The bytes of an instruction whose bits are `w`: bits 7 to 0 are the first byte, bits 15 to 8 the
second, and every bit above `nbits` is 0, up to the longest record (R48, R66). -/
def tableBytes (nbits w : Nat) : List Byte :=
  (List.range ((nbits + 7) / 8)).map (fun k => BitVec.ofNat 8 (w >>> (8 * k))) ++
    List.replicate (Config.maxRecord - (nbits + 7) / 8) 0

/-- The record `decode` reads from an instruction whose bits are `w`. Only the rows of formats RSV, LIT
and REP are bits of a stream (R74): a selector vector or a phase code is no byte a decoder fetches, and
the host's commands have no bits at all. -/
def decodeTableWord (nbits w : Nat) : Option Instr :=
  if nbits = 0 then none
  else
    match decode (tableBytes nbits w) with
    | .ok (i, _) => some i
    | .error _ => none

end Sys2Proof
end

