-- ==== Sys2Proof/Machine/State.lean ====
section
/-! DEFINITION. The state of the machine: the registers of the two blocks (spec/10_state.md R10), the
ports and the agenda that stand for the environment (spec/00_scope.md R5, R8), the reasons a step can
stop, and the state after reset (R30). -/

namespace Sys2Proof.Machine

/-- `E.phase` (R18). -/
inductive EncPhase where
  | idle
  | run
  | done
  | fault
  deriving DecidableEq, Repr, Inhabited

/-- `D.phase` (R20); code 7 is never taken and has no constructor. -/
inductive DecPhase where
  | idle
  | fetch
  | repv
  | repw
  | litc
  | done
  | fault
  deriving DecidableEq, Repr, Inhabited

/-- The conditions that raise a fault: the rows of the table of R130. -/
inductive FaultKind where
  | sourceAbsent
  | sinkAbsent
  | sourceRead
  | sinkWrite
  | truncatedRepeat
  | truncatedLiteral
  | reservedLength
  deriving DecidableEq, Repr, Inhabited

/-- The registers of the encoder (R10). -/
structure Encoder where
  phase : EncPhase
  mode : Mode
  cur : Sym
  next : Sym
  nn : Sym
  len : Len
  lbuf : Vector Byte Config.lbufDepth
  cause : BitVec 2
  subcause : BitVec 2
  deriving DecidableEq, Repr

/-- The registers of the decoder (R10). -/
structure Decoder where
  phase : DecPhase
  ctl : Byte
  cnt : Len
  val : Byte
  cause : BitVec 2
  subcause : BitVec 2
  deriving DecidableEq, Repr

/-- One answer of a source to one read: a byte, or failure (R42, R46). -/
inductive SrcAnswer where
  | byte (b : Byte)
  | fail
  deriving DecidableEq, Repr, Inhabited

/-- What a source does after its answers: it signals end of input, or it does not answer (R42, R47). -/
inductive SrcTail where
  | ended
  | silent
  deriving DecidableEq, Repr, Inhabited

/-- One answer of a sink to one write: success, or failure (R46). -/
inductive SnkAnswer where
  | accept
  | fail
  deriving DecidableEq, Repr, Inhabited

/-- What a sink does after its answers: it accepts every write, or it does not answer (R45, R47). -/
inductive SnkTail where
  | accepting
  | silent
  deriving DecidableEq, Repr, Inhabited

/-- The source of a block: whether it is bound (SRC_BOUND, R131), the symbols it has handed over,
oldest first (R9, R21), and what it will answer (R8, R42, R46, R47). -/
structure Source where
  bound : Bool
  taken : List Sym
  answers : List SrcAnswer
  tail : SrcTail
  deriving DecidableEq, Repr

/-- The sink of a block: whether it is bound (SNK_BOUND, R131), the bytes it has accepted, oldest first
(R9, R45), and what it will answer (R8, R46, R47). -/
structure Sink where
  bound : Bool
  out : List Byte
  answers : List SnkAnswer
  tail : SnkTail
  deriving DecidableEq, Repr

/-- What a block meets of its environment: its two ports, and whether the host's `start` command has
been issued in IDLE and not yet been taken by the start operation (R80, R110, R161; log entry 5). -/
structure Ports where
  source : Source
  sink : Sink
  start : Bool
  deriving DecidableEq, Repr

/-- One thing the outside world does (R5, R8; log entry 4). -/
inductive Event where
  /-- The host issues `reset` to a block (R160). -/
  | reset (b : Block)
  /-- The host issues `start` to a block (R161). -/
  | start (b : Block)
  /-- A block performs the one operation its state selects (R6). -/
  | run (b : Block)
  /-- The decoder performs the whole record its source holds next (R116, R117, R118). -/
  | record
  /-- The host binds a new source to a block (R131, R163). -/
  | bindSource (b : Block) (answers : List SrcAnswer) (tail : SrcTail)
  /-- The host binds a new, empty sink to a block (R131, R163). -/
  | bindSink (b : Block) (answers : List SnkAnswer) (tail : SnkTail)
  /-- The host takes a block's source away (R131). -/
  | unbindSource (b : Block)
  /-- The host takes a block's sink away (R131). -/
  | unbindSink (b : Block)
  /-- A silent source gets further answers (R47). -/
  | supply (b : Block) (answers : List SrcAnswer) (tail : SrcTail)
  /-- A silent sink gets further answers (R47). -/
  | acceptMore (b : Block) (answers : List SnkAnswer) (tail : SnkTail)
  deriving DecidableEq, Repr, Inhabited

/-- The state: the two blocks, what each meets of its environment, what the outside world does next,
which block moves when the agenda is empty, and the counter of the free values (log entry 2). -/
structure State where
  enc : Encoder
  dec : Decoder
  encPorts : Ports
  decPorts : Ports
  agenda : List Event
  turn : Block
  free : Nat
  deriving DecidableEq, Repr

/-- Why the MODEL stops (log entry 7). The hardware's own faults, the phase FAULT of a block, are next
states and not among these. -/
inductive Fault where
  /-- Raised by ENC.REP.END, ENC.REP.CONT, ENC.LIT.FLUSH, ENC.LIT.CAP and ENC.LIT.CONT at `E.len = 127`,
  where `E.len + 1` does not fit and `E.lbuf[127]` does not exist: R15 and R31 say no run has it. Safe:
  the model stops where the spec gives no effect. -/
  | lenOutOfRange
  /-- Raised by DEC.REP.OUT and DEC.LIT.COPY at `D.cnt = 0`, where `D.cnt - 1` would wrap: R16 and R32 say
  no run has it. Safe: the model stops where the spec gives no effect. -/
  | cntUnderflow
  deriving DecidableEq, Repr, Inhabited

/-- Why the model refuses. -/
inductive Refusal where
  /-- Raised by an arm of `exec` for an instruction without a meaning. Safe; no arm raises it. -/
  | notModelled (mnemonic : String)
  /-- Raised by an operation or a record that the state does not select: its rule's line "Selected when"
  fails (R80, R110, R116 to R118), so the spec gives it no effect there. `step` never asks for one. Safe. -/
  | notSelected
  /-- Raised by a binding event while the block's invocation is running: R163 and R170 exclude a host that
  does it (U15). Safe. -/
  | portInUse
  deriving DecidableEq, Repr, Inhabited

/-- The ports of a block to which nothing is bound (log entry 3). -/
def Ports.unbound : Ports :=
  { source := { bound := false, taken := [], answers := [], tail := .silent }
    sink := { bound := false, out := [], answers := [], tail := .silent }
    start := false }

/-- The encoder after reset: `phase`, `cause` and `subcause` by R30; the spec states no value for the
other registers, and the ones here are DESIGN CHOICE (unsafe), log entry 1. -/
def Encoder.reset : Encoder :=
  { phase := .idle
    mode := .literalMode
    cur := .byte 0
    next := .byte 0
    nn := .byte 0
    len := 0
    lbuf := Vector.replicate Config.lbufDepth 0
    cause := 0
    subcause := 0 }

/-- The decoder after reset: `phase`, `cause` and `subcause` by R30; the spec states no value for the
other registers, and the ones here are DESIGN CHOICE (unsafe), log entry 1. -/
def Decoder.reset : Decoder :=
  { phase := .idle, ctl := 0, cnt := 0, val := 0, cause := 0, subcause := 0 }

/-- The machine right after reset: both blocks IDLE, nothing bound, nothing on the agenda
(R30, R160; log entries 1 to 5). -/
def State.reset : State :=
  { enc := Encoder.reset
    dec := Decoder.reset
    encPorts := Ports.unbound
    decPorts := Ports.unbound
    agenda := []
    turn := .encoder
    free := 0 }

end Sys2Proof.Machine
end

