-- ==== Sys2Proof/Machine/Operands.lean ====
section
/-! DEFINITION. The operands of the operations: the fields and the nine bits of a symbol, the codes of
modes, phases and faults, STATUS, and the bytes a source holds next (spec/10_state.md R12, R18 to R23;
spec/60_exceptions.md R132). -/

namespace Sys2Proof.Machine

/-- `s.data`: the byte; the marker's data is 0x00 (R12). -/
def symData : Sym → Byte
  | .byte b => b
  | .eoi => 0x00

/-- `s.eoi`: is the symbol the end-of-input marker (R12)? -/
def symEoi : Sym → Bool
  | .byte _ => false
  | .eoi => true

/-- The nine bits of a symbol: `eoi` in bit 8, `data` below it (R12). -/
def symBits (s : Sym) : BitVec 9 := BitVec.ofBool (symEoi s) ++ symData s

/-- The code of a mode: Literal 0, Repeat 1 (R19, R5). -/
def modeCode : Mode → BitVec 1
  | .literalMode => 0
  | .repeatMode => 1

/-- The codes of `E.phase` (R18). -/
def encPhaseCode : EncPhase → BitVec 2
  | .idle => 0
  | .run => 1
  | .done => 2
  | .fault => 3

/-- The codes of `D.phase` (R20). -/
def decPhaseCode : DecPhase → BitVec 3
  | .idle => 0
  | .fetch => 1
  | .repv => 2
  | .repw => 3
  | .litc => 4
  | .done => 5
  | .fault => 6

/-- The `cause` code of a fault (R132). -/
def causeCode : FaultKind → BitVec 2
  | .sourceAbsent | .sinkAbsent => 1
  | .sourceRead | .sinkWrite => 2
  | .truncatedRepeat | .truncatedLiteral | .reservedLength => 3

/-- The `subcause` code of a fault (R132). -/
def subcauseCode : FaultKind → BitVec 2
  | .sourceAbsent | .sourceRead | .truncatedRepeat => 0
  | .sinkAbsent | .sinkWrite | .truncatedLiteral => 1
  | .reservedLength => 2

/-- The encoder's STATUS: `subcause`, `cause`, `phase` from the high bits down, 6 bits (R22). -/
def encStatus (e : Encoder) : BitVec 6 := e.subcause ++ e.cause ++ encPhaseCode e.phase

/-- The decoder's STATUS: `subcause`, `cause`, `phase` from the high bits down, 7 bits (R22). -/
def decStatus (d : Decoder) : BitVec 7 := d.subcause ++ d.cause ++ decPhaseCode d.phase

/-- The byte of an answer, if it is one. -/
def answerByte : SrcAnswer → Option Byte
  | .byte b => some b
  | .fail => none

/-- The bytes a source holds and has not handed over, in order; failures, which consume nothing, stand
between them and are left out (R42, R46). -/
def upcoming (s : Source) : List Byte := s.answers.filterMap answerByte

/-- The byte of a symbol, if it is one. -/
def symByte : Sym → Option Byte
  | .byte b => some b
  | .eoi => none

/-- The bytes a source has handed over, in order (R21, R33). -/
def takenBytes (s : Source) : List Byte := s.taken.filterMap symByte

end Sys2Proof.Machine
end

