-- ==== Sys2Proof/Machine/Flags.lean ====
section
/-! DEFINITION. The one-bit conditions that steer the machines (spec/10_state.md R24): `ne`, `q`, `cap`,
the selector vector, and each operation's own line "Selected when" (spec/40_encoder.md R80 to R90,
spec/41_decoder.md R110 to R115). -/

namespace Sys2Proof.Machine

/-- `ne`: the current symbol differs from the next (R81). -/
def ne (e : Encoder) : Bool := e.cur != e.next

/-- `q`: the next two symbols are equal, two markers included (R81). -/
def q (e : Encoder) : Bool := e.next == e.nn

/-- `cap`: this step's length is 127 (R81). -/
def cap (e : Encoder) : Bool := e.len + 1 == Config.maxLen

/-- The selector vector `sel`: `e, m, ne, q, cap` from bit 4 down (R80). -/
def sel (e : Encoder) : BitVec 5 :=
  BitVec.ofBool (symEoi e.cur) ++ modeCode e.mode ++ BitVec.ofBool (ne e) ++ BitVec.ofBool (q e) ++
    BitVec.ofBool (cap e)

/-- Does `E.len + 1` fit seven bits? It does in every state a run reaches (R15, R97). -/
def lenFits (e : Encoder) : Bool := e.len != 127

/-- Is `D.cnt` at least 1? It is in every state in which it is decremented (R16, R121). -/
def cntOwed (d : Decoder) : Bool := d.cnt != 0

/-- In phase RUN with a current byte, and in the given mode: what the six operations R84 to R89 share. -/
def classifying (e : Encoder) (m : Mode) : Bool := e.phase == .run && !symEoi e.cur && e.mode == m

/-- ENC.START: phase IDLE and the host's `start` (R82). -/
def encStartSelected (e : Encoder) (p : Ports) : Bool := e.phase == .idle && p.start

/-- ENC.HALT: phase RUN and the current symbol is the marker (R90). -/
def encHaltSelected (e : Encoder) : Bool := e.phase == .run && symEoi e.cur

/-- ENC.REP.END: Repeat mode and `ne` (R85). -/
def encRepEndSelected (e : Encoder) : Bool := classifying e .repeatMode && ne e

/-- ENC.REP.CAP: Repeat mode, not `ne`, `cap` (R86). -/
def encRepCapSelected (e : Encoder) : Bool := classifying e .repeatMode && !ne e && cap e

/-- ENC.REP.CONT: Repeat mode, not `ne`, not `cap` (R84). -/
def encRepContSelected (e : Encoder) : Bool := classifying e .repeatMode && !ne e && !cap e

/-- ENC.LIT.FLUSH: Literal mode and `q` (R88). -/
def encLitFlushSelected (e : Encoder) : Bool := classifying e .literalMode && q e

/-- ENC.LIT.CAP: Literal mode, not `q`, `cap` (R89). -/
def encLitCapSelected (e : Encoder) : Bool := classifying e .literalMode && !q e && cap e

/-- ENC.LIT.CONT: Literal mode, not `q`, not `cap` (R87). -/
def encLitContSelected (e : Encoder) : Bool := classifying e .literalMode && !q e && !cap e

/-- DEC.START: phase IDLE and the host's `start` (R112). -/
def decStartSelected (d : Decoder) (p : Ports) : Bool := d.phase == .idle && p.start

/-- DEC.FETCH: phase FETCH (R111). -/
def decFetchSelected (d : Decoder) : Bool := d.phase == .fetch

/-- DEC.REP.VAL: phase REPV (R113). -/
def decRepValSelected (d : Decoder) : Bool := d.phase == .repv

/-- DEC.REP.OUT: phase REPW (R114). -/
def decRepOutSelected (d : Decoder) : Bool := d.phase == .repw

/-- DEC.LIT.COPY: phase LITC (R115). -/
def decLitCopySelected (d : Decoder) : Bool := d.phase == .litc

end Sys2Proof.Machine
end

