-- ==== Sys2Proof/Machine/Ops.lean ====
section
/-! DEFINITION. The operations every meaning shares: the port primitives (spec/20_memory.md R42 to R47),
taking a fault (spec/60_exceptions.md R140), the window's shift (spec/40_encoder.md R83), and the writing
back of a block. There is no return from a fault but `reset` (R143): `execReset` in Command.lean. -/

namespace Sys2Proof.Machine

/-! Port actions. -/

/-- How a sequence of port actions ends: all answered, with a result and the ports after them; one of
them failed or raised, with the ports as the actions before it left them; or one is not answered yet. -/
inductive Act (α : Type) where
  | done (a : α) (p : Ports)
  | raised (k : FaultKind) (p : Ports)
  | pending
  deriving DecidableEq, Repr

/-- Go on with the next line of a pseudocode: nothing after a raise or an unanswered action (R140, R47). -/
def Act.andThen {α β : Type} (x : Act α) (f : α → Ports → Act β) : Act β :=
  match x with
  | .done a p => f a p
  | .raised k p => .raised k p
  | .pending => .pending

/-- `SrcRead()`: the next byte, which is consumed; the marker at the end of input, with the position
kept; failure, which consumes no byte and raises IOFailure(SourceRead); or no answer yet
(R42, R46, R47, R133). -/
def srcRead (p : Ports) : Act Sym :=
  match p.source.answers with
  | .byte b :: rest =>
    .done (.byte b)
      { p with source := { p.source with taken := p.source.taken ++ [.byte b], answers := rest } }
  | .fail :: rest => .raised .sourceRead { p with source := { p.source with answers := rest } }
  | [] =>
    match p.source.tail with
    | .ended => .done .eoi { p with source := { p.source with taken := p.source.taken ++ [.eoi] } }
    | .silent => .pending

/-- A read that is not issued once the marker has been received; the marker is then filled in
(R43, R82, R83). -/
def srcReadAfter (last : Sym) (p : Ports) : Act Sym :=
  match last with
  | .eoi => .done .eoi p
  | .byte _ => srcRead p

/-- `SnkWrite(b)`: `b` is appended; or failure, which appends nothing and raises IOFailure(SinkWrite);
or no answer yet (R45, R46, R47, R134). -/
def snkWrite (b : Byte) (p : Ports) : Act Unit :=
  match p.sink.answers with
  | .accept :: rest =>
    .done () { p with sink := { p.sink with out := p.sink.out ++ [b], answers := rest } }
  | .fail :: rest => .raised .sinkWrite { p with sink := { p.sink with answers := rest } }
  | [] =>
    match p.sink.tail with
    | .accepting => .done () { p with sink := { p.sink with out := p.sink.out ++ [b] } }
    | .silent => .pending

/-- `SnkWriteMany`: the single writes in order (R45). -/
def snkWriteMany : List Byte → Ports → Act Unit
  | [], p => .done () p
  | b :: bs, p => (snkWrite b p).andThen fun _ p' => snkWriteMany bs p'

/-! Taking a fault. -/

/-- Fault entry in the encoder: `cause`, `subcause`, `phase <- FAULT`; nothing else is saved and no other
register changes (R140, R141). -/
def encRaise (k : FaultKind) (e : Encoder) : Encoder :=
  { e with phase := .fault, cause := causeCode k, subcause := subcauseCode k }

/-- Fault entry in the decoder: `cause`, `subcause`, `phase <- FAULT`; nothing else is saved and no other
register changes (R140, R141). -/
def decRaise (k : FaultKind) (d : Decoder) : Decoder :=
  { d with phase := .fault, cause := causeCode k, subcause := subcauseCode k }

/-- The end of a step whose registers before a raise are `frozen`: the new registers and ports; or fault
entry on the frozen registers (R140); or `none`, the step does not happen yet (R47). -/
def finish {β : Type} (raise : FaultKind → β → β) (frozen : β) : Act β → Option (β × Ports)
  | .done b p => some (b, p)
  | .raised k p => some (raise k frozen, p)
  | .pending => none

/-! The encoder's data path. -/

/-- `Shift()`: the window moves by one symbol (R83). -/
def shift (e : Encoder) (p : Ports) : Act Encoder :=
  (srcReadAfter e.nn p).andThen fun x p' =>
    .done { e with cur := e.next, next := e.nn, nn := x } p'

/-- Write the bytes of a record, then shift: the order of port actions of every flushing step (R92). -/
def emitThenShift (record : List Byte) (e : Encoder) (p : Ports) : Act Encoder :=
  (snkWriteMany record p).andThen fun _ p' => shift e p'

/-- Apply the register writes that a pseudocode performs after its last port action. -/
def thenWrite {β : Type} (f : β → β) (x : Act β) : Act β :=
  x.andThen fun b p => .done (f b) p

/-- `E.lbuf[E.len] <- E.cur.data`: the literal buffer's one write (R51). -/
def appendLiteral (e : Encoder) : Encoder :=
  { e with lbuf := e.lbuf.setIfInBounds e.len.toNat (symData e.cur) }

/-- `E.lbuf[0], ..., E.lbuf[n - 1]`, in index order (R51). -/
def literalBytes (e : Encoder) (n : Len) : List Byte := e.lbuf.toList.take n.toNat

/-! Writing a block back. -/

/-- The encoder and its ports after a step; nothing if the step does not happen yet (R47). -/
def putEncoder (s : State) : Option (Encoder × Ports) → State
  | some (e, p) => { s with enc := e, encPorts := p }
  | none => s

/-- The decoder and its ports after a step; nothing if the step does not happen yet (R47). -/
def putDecoder (s : State) : Option (Decoder × Ports) → State
  | some (d, p) => { s with dec := d, decPorts := p }
  | none => s

/-- The ports with the `start` command taken: the start operation has happened (R161, log entry 5). -/
def startTaken (p : Ports) : Ports := { p with start := false }

/-- Run an operation where its line "Selected when" holds; `fits` is what R15 and R16 say of the counter
it changes, and `stop` the model's fault where that fails. -/
def whenSelected (selected fits : Bool) (stop : Fault) (t : State) : Host.Outcome State Fault Refusal :=
  if selected then (if fits then .next t else .fault stop) else .refused .notSelected

end Sys2Proof.Machine
end

