-- ==== Sys2Proof/Machine/Decoder.lean ====
section
/-! DEFINITION. The five operations of the decoder (spec/41_decoder.md R111 to R115). Each has its
pseudocode as a function of the registers and the ports, and its meaning over the state. -/

namespace Sys2Proof.Machine

/-! DEC.START (R112). -/

/-- The pseudocode of DEC.START: binding checks, source before sink, then phase FETCH (R112, R131). -/
def decStartAct (d : Decoder) (p : Ports) : Act Decoder :=
  if p.source.bound = false then .raised .sourceAbsent p
  else if p.sink.bound = false then .raised .sinkAbsent p
  else .done { d with phase := .fetch } p

/-- DEC.START on the registers and the ports; it takes the `start` command (R112). -/
def decStartOp (d : Decoder) (p : Ports) : Option (Decoder × Ports) :=
  finish decRaise d (decStartAct d (startTaken p))

/-- DEC.START (R112). -/
def execDecStart (s : State) : Host.Outcome State Fault Refusal :=
  whenSelected (decStartSelected s.dec s.decPorts) true .cntUnderflow
    (putDecoder s (decStartOp s.dec s.decPorts))

/-! DEC.FETCH (R111). -/

/-- What DEC.FETCH does with a control byte: `D.ctl` and `D.cnt` are written before ReservedLength is
raised, so the frozen `D.ctl` shows the offending byte (R111, R140). -/
def decTakeControl (d : Decoder) (c : Byte) : Decoder :=
  let d' := { d with ctl := c, cnt := ctlLen c }
  if ctlLen c = 0 then decRaise .reservedLength d'
  else
    match ctlMode c with
    | .repeatMode => { d' with phase := .repv }
    | .literalMode => { d' with phase := .litc }

/-- The pseudocode of DEC.FETCH: one read; end of input ends decoding, the only valid end (R111). -/
def decFetchAct (d : Decoder) (p : Ports) : Act Decoder :=
  (srcRead p).andThen fun s p' =>
    match s with
    | .eoi => .done { d with phase := .done } p'
    | .byte c => .done (decTakeControl d c) p'

/-- DEC.FETCH on the registers and the ports (R111). -/
def decFetchOp (d : Decoder) (p : Ports) : Option (Decoder × Ports) :=
  finish decRaise d (decFetchAct d p)

/-- DEC.FETCH (R111). -/
def execDecFetch (s : State) : Host.Outcome State Fault Refusal :=
  whenSelected (decFetchSelected s.dec) true .cntUnderflow
    (putDecoder s (decFetchOp s.dec s.decPorts))

/-! DEC.REP.VAL (R113). -/

/-- The pseudocode of DEC.REP.VAL: one read; the marker here is a truncated Repeat record (R113, R135). -/
def decRepValAct (d : Decoder) (p : Ports) : Act Decoder :=
  (srcRead p).andThen fun s p' =>
    match s with
    | .eoi => .raised .truncatedRepeat p'
    | .byte v => .done { d with val := v, phase := .repw } p'

/-- DEC.REP.VAL on the registers and the ports (R113). -/
def decRepValOp (d : Decoder) (p : Ports) : Option (Decoder × Ports) :=
  finish decRaise d (decRepValAct d p)

/-- DEC.REP.VAL (R113). -/
def execDecRepVal (s : State) : Host.Outcome State Fault Refusal :=
  whenSelected (decRepValSelected s.dec) true .cntUnderflow
    (putDecoder s (decRepValOp s.dec s.decPorts))

/-! DEC.REP.OUT (R114) and DEC.LIT.COPY (R115). -/

/-- One payload unit delivered: `D.cnt <- D.cnt - 1`, and phase FETCH when it reaches 0 (R114, R115). -/
def decCountDown (d : Decoder) : Decoder :=
  { d with
    cnt := d.cnt - 1
    phase := if d.cnt - 1 = 0 then .fetch else d.phase }

/-- DEC.REP.OUT on the registers and the ports (R114). -/
def decRepOutOp (d : Decoder) (p : Ports) : Option (Decoder × Ports) :=
  finish decRaise d ((snkWrite d.val p).andThen fun _ p' => .done (decCountDown d) p')

/-- DEC.REP.OUT (R114). -/
def execDecRepOut (s : State) : Host.Outcome State Fault Refusal :=
  whenSelected (decRepOutSelected s.dec) (cntOwed s.dec) .cntUnderflow
    (putDecoder s (decRepOutOp s.dec s.decPorts))

/-- The pseudocode of DEC.LIT.COPY: one read, then one write; the marker here is a truncated Literal
record, and a byte whose write fails is lost (R115, R136). -/
def decLitCopyAct (d : Decoder) (p : Ports) : Act Decoder :=
  (srcRead p).andThen fun s p' =>
    match s with
    | .eoi => .raised .truncatedLiteral p'
    | .byte b => (snkWrite b p').andThen fun _ p'' => .done (decCountDown d) p''

/-- DEC.LIT.COPY on the registers and the ports (R115). -/
def decLitCopyOp (d : Decoder) (p : Ports) : Option (Decoder × Ports) :=
  finish decRaise d (decLitCopyAct d p)

/-- DEC.LIT.COPY (R115). -/
def execDecLitCopy (s : State) : Host.Outcome State Fault Refusal :=
  whenSelected (decLitCopySelected s.dec) (cntOwed s.dec) .cntUnderflow
    (putDecoder s (decLitCopyOp s.dec s.decPorts))

end Sys2Proof.Machine
end

