-- ==== Sys2Proof/Machine/Encoder.lean ====
section
/-! DEFINITION. The eight operations of the encoder (spec/40_encoder.md R82 to R90). Each has its
pseudocode as a function of the registers and the ports, and its meaning over the state. -/

namespace Sys2Proof.Machine

/-! ENC.START (R82). -/

/-- The second and third reads of ENC.START and the window they fill, after a first byte. -/
def encLoadWindow (e : Encoder) (c : Sym) (p : Ports) : Act Encoder :=
  (srcRead p).andThen fun n p' =>
    (srcReadAfter n p').andThen fun x p'' =>
      .done
        { e with
          phase := .run
          mode := if n = .eoi ∨ c = n then .repeatMode else .literalMode
          cur := c
          next := n
          nn := x
          len := 0 } p''

/-- The pseudocode of ENC.START: binding checks, source before sink, then one to three reads (R82, R131). An
empty input ends in DONE with `E.len = 0`, which R164 says of DONE (DEDUCED, log entry 12). -/
def encStartAct (e : Encoder) (p : Ports) : Act Encoder :=
  if p.source.bound = false then .raised .sourceAbsent p
  else if p.sink.bound = false then .raised .sinkAbsent p
  else
    (srcRead p).andThen fun c p' =>
      match c with
      | .eoi => .done { e with phase := .done, len := 0 } p'
      | .byte b => encLoadWindow e (.byte b) p'

/-- ENC.START on the registers and the ports; it takes the `start` command (R82). -/
def encStartOp (e : Encoder) (p : Ports) : Option (Encoder × Ports) :=
  finish encRaise e (encStartAct e (startTaken p))

/-- ENC.START (R82). -/
def execEncStart (s : State) : Host.Outcome State Fault Refusal :=
  whenSelected (encStartSelected s.enc s.encPorts) true .lenOutOfRange
    (putEncoder s (encStartOp s.enc s.encPorts))

/-! ENC.HALT (R90). -/

/-- ENC.HALT on the registers (R90). -/
def encHaltOp (e : Encoder) : Encoder := { e with phase := .done }

/-- ENC.HALT (R90). -/
def execEncHalt (s : State) : Host.Outcome State Fault Refusal :=
  whenSelected (encHaltSelected s.enc) true .lenOutOfRange
    (putEncoder s (some (encHaltOp s.enc, s.encPorts)))

/-! The Repeat-mode operations. -/

/-- ENC.REP.CONT on the registers and the ports (R84). -/
def encRepContOp (e : Encoder) (p : Ports) : Option (Encoder × Ports) :=
  finish encRaise e (thenWrite (fun e' => { e' with len := e.len + 1 }) (shift e p))

/-- ENC.REP.CONT (R84). -/
def execEncRepCont (s : State) : Host.Outcome State Fault Refusal :=
  whenSelected (encRepContSelected s.enc) (lenFits s.enc) .lenOutOfRange
    (putEncoder s (encRepContOp s.enc s.encPorts))

/-- The bytes of the Repeat record that ends a run: `0x80 | len1`, then the value byte (R85). -/
def repeatRecord (e : Encoder) : List Byte := [packCtl .repeatMode (e.len + 1), symData e.cur]

/-- ENC.REP.END on the registers and the ports (R85). -/
def encRepEndOp (e : Encoder) (p : Ports) : Option (Encoder × Ports) :=
  finish encRaise e
    (thenWrite
      (fun e' => { e' with mode := if q e then .repeatMode else .literalMode, len := 0 })
      (emitThenShift (repeatRecord e) e p))

/-- ENC.REP.END (R85). -/
def execEncRepEnd (s : State) : Host.Outcome State Fault Refusal :=
  whenSelected (encRepEndSelected s.enc) (lenFits s.enc) .lenOutOfRange
    (putEncoder s (encRepEndOp s.enc s.encPorts))

/-- ENC.REP.CAP on the registers and the ports (R86). -/
def encRepCapOp (e : Encoder) (p : Ports) : Option (Encoder × Ports) :=
  finish encRaise e
    (thenWrite (fun e' => { e' with len := 0 }) (emitThenShift [0xFF, symData e.cur] e p))

/-- ENC.REP.CAP (R86). -/
def execEncRepCap (s : State) : Host.Outcome State Fault Refusal :=
  whenSelected (encRepCapSelected s.enc) true .lenOutOfRange
    (putEncoder s (encRepCapOp s.enc s.encPorts))

/-! The Literal-mode operations. The buffer's element is written before any port action, so it stays
written when one of them fails (R140). -/

/-- ENC.LIT.CONT on the registers and the ports (R87). -/
def encLitContOp (e : Encoder) (p : Ports) : Option (Encoder × Ports) :=
  finish encRaise (appendLiteral e)
    (thenWrite (fun e' => { e' with len := e.len + 1 }) (shift (appendLiteral e) p))

/-- ENC.LIT.CONT (R87). -/
def execEncLitCont (s : State) : Host.Outcome State Fault Refusal :=
  whenSelected (encLitContSelected s.enc) (lenFits s.enc) .lenOutOfRange
    (putEncoder s (encLitContOp s.enc s.encPorts))

/-- The bytes of the Literal record that a flush sends: the byte `len1`, then elements 0 to `len1 - 1` of
the buffer as it is after the step's write (R88, R166). -/
def literalRecord (e : Encoder) : List Byte :=
  packCtl .literalMode (e.len + 1) :: literalBytes (appendLiteral e) (e.len + 1)

/-- ENC.LIT.FLUSH on the registers and the ports (R88). -/
def encLitFlushOp (e : Encoder) (p : Ports) : Option (Encoder × Ports) :=
  finish encRaise (appendLiteral e)
    (thenWrite (fun e' => { e' with mode := .repeatMode, len := 0 })
      (emitThenShift (literalRecord e) (appendLiteral e) p))

/-- ENC.LIT.FLUSH (R88). -/
def execEncLitFlush (s : State) : Host.Outcome State Fault Refusal :=
  whenSelected (encLitFlushSelected s.enc) (lenFits s.enc) .lenOutOfRange
    (putEncoder s (encLitFlushOp s.enc s.encPorts))

/-- ENC.LIT.CAP on the registers and the ports (R89). -/
def encLitCapOp (e : Encoder) (p : Ports) : Option (Encoder × Ports) :=
  finish encRaise (appendLiteral e)
    (thenWrite (fun e' => { e' with len := 0 })
      (emitThenShift (0x7F :: literalBytes (appendLiteral e) 127) (appendLiteral e) p))

/-- ENC.LIT.CAP (R89). -/
def execEncLitCap (s : State) : Host.Outcome State Fault Refusal :=
  whenSelected (encLitCapSelected s.enc) true .lenOutOfRange
    (putEncoder s (encLitCapOp s.enc s.encPorts))

end Sys2Proof.Machine
end

