-- ==== Sys2Proof/Machine/Command.lean ====
section
/-! DEFINITION. The host's two commands (spec/70_reset_and_hazards.md R160, R161). -/

namespace Sys2Proof.Machine

/-- `reset` to the encoder: IDLE, no cause; every other register becomes unspecified, a free value
(R30, R160; log entry 2). -/
def encAfterReset (k : Nat) : Encoder :=
  { phase := .idle
    mode := Config.freeMode k
    cur := Config.freeCur k
    next := Config.freeNext k
    nn := Config.freeNn k
    len := Config.freeLen k
    lbuf := Config.freeLbuf k
    cause := 0
    subcause := 0 }

/-- `reset` to the decoder: IDLE, no cause; every other register becomes unspecified, a free value
(R30, R160; log entry 2). -/
def decAfterReset (k : Nat) : Decoder :=
  { phase := .idle
    ctl := Config.freeCtl k
    cnt := Config.freeCnt k
    val := Config.freeVal k
    cause := 0
    subcause := 0 }

/-- RESET: in any phase, one block, no port action; what the block had read is lost, its sink stays as it
is, and a start command that was waiting is dropped (R160, R171; log entry 5). -/
def execReset (b : Block) (s : State) : Host.Outcome State Fault Refusal :=
  match b with
  | .encoder =>
    .next { s with enc := encAfterReset s.free, encPorts := startTaken s.encPorts, free := s.free + 1 }
  | .decoder =>
    .next { s with dec := decAfterReset s.free, decPorts := startTaken s.decPorts, free := s.free + 1 }

/-- The ports with the host's `start` command issued (R161). -/
def startIssued (p : Ports) : Ports := { p with start := true }

/-- START: in IDLE it selects the block's start operation; in every other phase it is ignored and not
remembered (R161). -/
def execStart (b : Block) (s : State) : Host.Outcome State Fault Refusal :=
  match b with
  | .encoder =>
    if s.enc.phase = .idle then execEncStart { s with encPorts := startIssued s.encPorts } else .next s
  | .decoder =>
    if s.dec.phase = .idle then execDecStart { s with decPorts := startIssued s.decPorts } else .next s

end Sys2Proof.Machine
end

