-- ==== Sys2Proof/Machine/Record.lean ====
section
/-! DEFINITION. The record kinds of the wire format as the decoder executes them (spec/41_decoder.md R116,
R117, R118): the sequence of the decoder's operations that the record is, on the record the source holds
next (log entry 9). -/

namespace Sys2Proof.Machine

/-- The one operation the decoder's phase selects; none in IDLE, DONE and FAULT, where nothing happens
here (R110). -/
def decPhaseOp (d : Decoder) (p : Ports) : Option (Decoder × Ports) :=
  match d.phase with
  | .fetch => decFetchOp d p
  | .repv => decRepValOp d p
  | .repw => decRepOutOp d p
  | .litc => decLitCopyOp d p
  | .idle | .done | .fault => some (d, p)

/-- At most `k` operations of the decoder, fewer if a port does not answer (R47) or the phase has none. -/
def decRun : Nat → Decoder → Ports → Decoder × Ports
  | 0, d, p => (d, p)
  | k + 1, d, p =>
    match decPhaseOp d p with
    | some (d', p') => decRun k d' p'
    | none => (d, p)

/-- The record the decoder is about to fetch: the first one in the bytes its source holds, at a record
boundary (R7, R66, R168); none where the bytes there are no whole record. -/
def nextRecord (s : State) : Option Instr :=
  match s.dec.phase with
  | .fetch =>
    match decode (upcoming s.decPorts.source) with
    | .ok (i, _) => some i
    | .error _ => none
  | .idle | .repv | .repw | .litc | .done | .fault => none

/-- Execute the record `i`, where it is the one the source holds next, as `k` operations of the decoder. -/
def execRecord (i : Instr) (k : Nat) (s : State) : Host.Outcome State Fault Refusal :=
  whenSelected (nextRecord s == some i) true .cntUnderflow
    (putDecoder s (some (decRun k s.dec s.decPorts)))

/-- RSV.LIT0: the single step DEC.FETCH, which raises MalformedStream(ReservedLength) (R118). -/
def execRsvLit0 (s : State) : Host.Outcome State Fault Refusal := execRecord .rsvLit0 1 s

/-- RSV.REP0: the single step DEC.FETCH, which raises MalformedStream(ReservedLength) (R118). -/
def execRsvRep0 (s : State) : Host.Outcome State Fault Refusal := execRecord .rsvRep0 1 s

/-- LIT n, b1 ... bn: DEC.FETCH, then `n` times DEC.LIT.COPY (R117). -/
def execLit (n : Len) (payload : List Byte) (s : State) : Host.Outcome State Fault Refusal :=
  execRecord (.lit n payload) (n.toNat + 1) s

/-- REP n, v: DEC.FETCH, DEC.REP.VAL, then `n` times DEC.REP.OUT (R116). -/
def execRep (n : Len) (v : Byte) (s : State) : Host.Outcome State Fault Refusal :=
  execRecord (.rep n v) (n.toNat + 2) s

end Sys2Proof.Machine
end

