-- ==== Sys2Proof/Machine/Dispatch.lean ====
section
/-! DEFINITION. One arm per row of spec/opcode_table.json: its meaning. -/

namespace Sys2Proof.Machine

/-- The meaning of an instruction on a state. -/
def exec (i : Instr) (s : State) : Host.Outcome State Fault Refusal :=
  match i with
  -- the records of the wire format (R116, R117, R118)
  | .rsvLit0 => Sys2Proof.Machine.execRsvLit0 s
  | .rsvRep0 => Sys2Proof.Machine.execRsvRep0 s
  | .lit n payload => Sys2Proof.Machine.execLit n payload s
  | .rep n v => Sys2Proof.Machine.execRep n v s
  -- the encoder's operations (R82 to R90)
  | .encStart => Sys2Proof.Machine.execEncStart s
  | .encHalt => Sys2Proof.Machine.execEncHalt s
  | .encRepEnd => Sys2Proof.Machine.execEncRepEnd s
  | .encRepCap => Sys2Proof.Machine.execEncRepCap s
  | .encRepCont => Sys2Proof.Machine.execEncRepCont s
  | .encLitFlush => Sys2Proof.Machine.execEncLitFlush s
  | .encLitCap => Sys2Proof.Machine.execEncLitCap s
  | .encLitCont => Sys2Proof.Machine.execEncLitCont s
  -- the decoder's operations (R111 to R115)
  | .decStart => Sys2Proof.Machine.execDecStart s
  | .decFetch => Sys2Proof.Machine.execDecFetch s
  | .decRepVal => Sys2Proof.Machine.execDecRepVal s
  | .decRepOut => Sys2Proof.Machine.execDecRepOut s
  | .decLitCopy => Sys2Proof.Machine.execDecLitCopy s
  -- the host's commands (R160, R161)
  | .reset b => Sys2Proof.Machine.execReset b s
  | .start b => Sys2Proof.Machine.execStart b s

end Sys2Proof.Machine
end

