-- ==== Sys2Proof/Machine/Turn.lean ====
section
/-! DEFINITION. What happens next: the operation a block's state selects (spec/40_encoder.md R80,
spec/41_decoder.md R110), one turn of a block, and the events of the outside world (log entries 3, 4, 6). -/

namespace Sys2Proof.Machine

/-- The encoder's one enabled operation, if any (R80). -/
def selectEncoder (s : State) : Option Instr :=
  match s.enc.phase with
  | .idle => if s.encPorts.start then some .encStart else none
  | .run => decodeSelector (sel s.enc)
  | .done | .fault => none

/-- The decoder's one enabled operation, if any: the row of its phase code, and in IDLE only with the
`start` command (R110). -/
def selectDecoder (s : State) : Option Instr :=
  match s.dec.phase with
  | .idle => if s.decPorts.start then decodePhase (decPhaseCode .idle) else none
  | .fetch | .repv | .repw | .litc | .done | .fault => decodePhase (decPhaseCode s.dec.phase)

/-- The one enabled operation of a block, if any (R80, R110). -/
def select (b : Block) (s : State) : Option Instr :=
  match b with
  | .encoder => selectEncoder s
  | .decoder => selectDecoder s

/-- One turn of a block: it performs the operation its state selects; with none selected, in IDLE, DONE or
FAULT, it waits and nothing changes (R6, R143, R161, R164). -/
def stepBlock (b : Block) (s : State) : Host.Outcome State Fault Refusal :=
  match select b s with
  | some i => exec i s
  | none => .next s

/-- `k` turns of one block and nothing else, stopping where the model stops. -/
def runTurns (b : Block) : Nat → State → Host.Outcome State Fault Refusal
  | 0, s => .next s
  | k + 1, s =>
    match stepBlock b s with
    | .next s' => runTurns b k s'
    | .fault r => .fault r
    | .refused r => .refused r

/-- One record of the decoder: fetched from the source and executed whole; where no whole record is there
to fetch, one operation of the decoder (log entry 9). -/
def stepRecord (s : State) : Host.Outcome State Fault Refusal :=
  match nextRecord s with
  | some i => exec i s
  | none => stepBlock .decoder s

/-- The other block. -/
def otherBlock : Block → Block
  | .encoder => .decoder
  | .decoder => .encoder

/-- The ports of a block. -/
def portsOf (b : Block) (s : State) : Ports :=
  match b with
  | .encoder => s.encPorts
  | .decoder => s.decPorts

/-- The state with the ports of a block replaced. -/
def setPorts (b : Block) (p : Ports) (s : State) : State :=
  match b with
  | .encoder => { s with encPorts := p }
  | .decoder => { s with decPorts := p }

/-- Is an invocation of the block running, or its start operation waiting for a port? Then no one else may
touch what its ports are bound to (R163, R170). -/
def portsInUse (b : Block) (s : State) : Bool :=
  match b with
  | .encoder => s.enc.phase == .run || s.encPorts.start
  | .decoder =>
    s.dec.phase == .fetch || s.dec.phase == .repv || s.dec.phase == .repw || s.dec.phase == .litc ||
      s.decPorts.start

/-- The host changes what a block's ports are bound to, which it may do only between invocations
(R163, R170, U15; log entry 6). -/
def rebind (b : Block) (p : Ports) (s : State) : Host.Outcome State Fault Refusal :=
  if portsInUse b s then .refused .portInUse else .next (setPorts b p s)

/-- A silent source gets further answers; one that has signalled end of input gets none, since end of input
is final (R47, R169). -/
def supplySource (answers : List SrcAnswer) (tail : SrcTail) (s : Source) : Source :=
  match s.tail with
  | .silent => { s with answers := s.answers ++ answers, tail := tail }
  | .ended => s

/-- A silent sink gets further answers (R47). -/
def supplySink (answers : List SnkAnswer) (tail : SnkTail) (s : Sink) : Sink :=
  match s.tail with
  | .silent => { s with answers := s.answers ++ answers, tail := tail }
  | .accepting => s

/-- One event of the outside world. -/
def perform (ev : Event) (s : State) : Host.Outcome State Fault Refusal :=
  match ev with
  | .reset b => exec (.reset b) s
  | .start b => exec (.start b) s
  | .run b => stepBlock b s
  | .record => stepRecord s
  | .bindSource b answers tail =>
    rebind b { portsOf b s with source := { bound := true, taken := [], answers := answers, tail := tail } } s
  | .bindSink b answers tail =>
    rebind b { portsOf b s with sink := { bound := true, out := [], answers := answers, tail := tail } } s
  | .unbindSource b =>
    rebind b { portsOf b s with source := { (portsOf b s).source with bound := false } } s
  | .unbindSink b => rebind b { portsOf b s with sink := { (portsOf b s).sink with bound := false } } s
  | .supply b answers tail =>
    .next (setPorts b { portsOf b s with source := supplySource answers tail (portsOf b s).source } s)
  | .acceptMore b answers tail =>
    .next (setPorts b { portsOf b s with sink := supplySink answers tail (portsOf b s).sink } s)

/-- With nothing on the agenda the blocks take turns of their own accord (R8, R47; log entry 4). -/
def freeTurn (s : State) : Host.Outcome State Fault Refusal :=
  stepBlock s.turn { s with turn := otherBlock s.turn }

/-- A state in which the next step fetches and runs the record whose bytes are given: the decoder at a
record boundary, the bytes in its source, its sink accepting, and one record on the agenda (log entry 10). -/
def placeRecord (s : State) (bytes : List Byte) : State :=
  { s with
    dec := { s.dec with phase := .fetch }
    decPorts :=
      { source := { bound := true, taken := [], answers := bytes.map .byte, tail := .ended }
        sink := { s.decPorts.sink with bound := true, answers := [], tail := .accepting }
        start := false }
    agenda := .record :: s.agenda }

end Sys2Proof.Machine
end

