-- ==== Sys2Proof/Machine/Step.lean ====
section
/-! DEFINITION. One step of the machine: the next event of the outside world or, with none, a turn of the
block whose turn it is (spec/00_scope.md R6, R8; log entry 4). -/

namespace Sys2Proof.Machine

/-- One step (R6). -/
def step (s : State) : Host.Outcome State Fault Refusal :=
  match s.agenda with
  | ev :: rest => perform ev { s with agenda := rest }
  | [] => freeTurn s

/-- The state with the instruction whose bits are `w` placed where the next step fetches it
(log entry 10). -/
def State.withFetchWord (s : State) (nbits w : Nat) : State := placeRecord s (tableBytes nbits w)

end Sys2Proof.Machine
end

