-- ==== Sys2Proof/Machine/Codec.lean ====
section
/-! DEFINITION. The whole invocation as one function on byte lists: Encode (spec/40_encoder.md R99), Decode
(spec/41_decoder.md R125), the content of a stream (spec/30_encoding.md R71) and its shorthands (R73). The
step machines do not use these; statements compare them. -/

namespace Sys2Proof.Machine

/-! Encode (R99). -/

/-- The symbol at the front of the bytes still to come: `W(i)` of R99. -/
def headSym : List Byte → Sym
  | [] => .eoi
  | b :: _ => .byte b

/-- The loop of R99 from the byte at the front of the list on, with its mode, `len` and `buf`. -/
def encodeFrom (m : Mode) (len : Nat) (buf : List Byte) : List Byte → List Byte
  | [] => []
  | b :: rest =>
    match m with
    | .repeatMode =>
      if Sym.byte b ≠ headSym rest then
        [0x80 ||| BitVec.ofNat 8 (len + 1), b] ++
          encodeFrom (if headSym rest = headSym rest.tail then .repeatMode else .literalMode) 0 buf rest
      else if len + 1 = 127 then [0xFF, b] ++ encodeFrom .repeatMode 0 buf rest
      else encodeFrom .repeatMode (len + 1) buf rest
    | .literalMode =>
      if headSym rest = headSym rest.tail then
        [BitVec.ofNat 8 (len + 1)] ++ (buf ++ [b]) ++ encodeFrom .repeatMode 0 [] rest
      else if len + 1 = 127 then [0x7F] ++ (buf ++ [b]) ++ encodeFrom .literalMode 0 [] rest
      else encodeFrom .literalMode (len + 1) (buf ++ [b]) rest

/-- The mode at the start: Repeat for one byte or two equal first bytes, else Literal (R82, R99). -/
def startMode : List Byte → Mode
  | a :: b :: _ => if a = b then .repeatMode else .literalMode
  | [_] => .repeatMode
  | [] => .repeatMode

/-- `Encode(S)` (R99). -/
def encodeList (input : List Byte) : List Byte := encodeFrom (startMode input) 0 [] input

/-! Decode (R125). -/

/-- How decoding a whole stream ends (R119, R125). -/
inductive DecodeResult where
  | done
  | malformed (k : FaultKind)
  deriving DecidableEq, Repr, Inhabited

/-- What the loop of R125 is waiting for: a control byte, a value byte, or payload bytes. -/
inductive Owed where
  | control
  | value (n : Nat)
  | payload (n : Nat)
  deriving DecidableEq, Repr, Inhabited

/-- The output with bytes put before it. -/
def outputFirst (bs : List Byte) (r : List Byte × DecodeResult) : List Byte × DecodeResult :=
  (bs ++ r.1, r.2)

/-- The loop of R125 from what it waits for on: the bytes it outputs and how it ends. -/
def decodeFrom : Owed → List Byte → List Byte × DecodeResult
  | .control, [] => ([], .done)
  | .value _, [] => ([], .malformed .truncatedRepeat)
  | .payload _, [] => ([], .malformed .truncatedLiteral)
  | .control, c :: rest =>
    if (c &&& 0x7F).toNat = 0 then ([], .malformed .reservedLength)
    else if c.getLsbD 7 then decodeFrom (.value (c &&& 0x7F).toNat) rest
    else decodeFrom (.payload (c &&& 0x7F).toNat) rest
  | .value n, v :: rest => outputFirst (List.replicate n v) (decodeFrom .control rest)
  | .payload n, b :: rest =>
    outputFirst [b] (decodeFrom (if n ≤ 1 then .control else .payload (n - 1)) rest)

/-- `Decode(T)` (R125). -/
def decodeList (stream : List Byte) : List Byte × DecodeResult := decodeFrom .control stream

/-! Valid streams (R71) and the shorthands (R73). -/

/-- Is this one of the two record kinds a valid stream is made of, with a length in 1 to 127 (R71)? -/
def isDataRecord (i : Instr) : Bool :=
  i.wellFormed &&
    match i with
    | .lit _ _ | .rep _ _ => true
    | .rsvLit0 | .rsvRep0 => false
    | .encStart | .encHalt | .encRepEnd | .encRepCap | .encRepCont => false
    | .encLitFlush | .encLitCap | .encLitCont => false
    | .decStart | .decFetch | .decRepVal | .decRepOut | .decLitCopy => false
    | .reset _ | .start _ => false

/-- The bytes a record stands for (R62, R63, R71). -/
def recordContent : Instr → List Byte
  | .lit _ payload => payload
  | .rep n v => List.replicate n.toNat v
  | .rsvLit0 | .rsvRep0 => []
  | .encStart | .encHalt | .encRepEnd | .encRepCap | .encRepCont => []
  | .encLitFlush | .encLitCap | .encLitCont => []
  | .decStart | .decFetch | .decRepVal | .decRepOut | .decLitCopy => []
  | .reset _ | .start _ => []

/-- `RUN L, v`: `L / 127` records `REP 127, v` and one of the rest (R73). -/
def runStream (count : Nat) (v : Byte) : List Byte :=
  (List.replicate (count / 127) [0xFF, v]).flatten ++
    if count % 127 = 0 then [] else [0x80 ||| BitVec.ofNat 8 (count % 127), v]

/-- `RAW` with at most `k` groups: `LIT` records of 127 bytes and one of the rest (R73). -/
def rawGroups : Nat → List Byte → List Byte
  | 0, _ => []
  | k + 1, bs =>
    if bs = [] then []
    else BitVec.ofNat 8 (min 127 bs.length) :: bs.take 127 ++ rawGroups k (bs.drop 127)

/-- `RAW b1 ... bL` (R73). -/
def rawStream (bs : List Byte) : List Byte := rawGroups bs.length bs

/-- No two adjacent bytes are equal (R94). -/
def noAdjacentEqual : List Byte → Bool
  | a :: b :: rest => a != b && noAdjacentEqual (b :: rest)
  | [_] => true
  | [] => true

end Sys2Proof.Machine
end

