-- ==== Sys2Proof/Safety.lean ====
section
/-! DEFINITION. What is true of every state a run reaches (spec/10_state.md R14, R15, R23, R31, R32,
spec/60_exceptions.md R132, R138, R141), and what a block's state and ports are still to produce
(spec/40_encoder.md R99, spec/41_decoder.md R125). -/

namespace Sys2Proof.Machine

/-! Invariants. -/

/-- Window validity: after a marker only markers (R14). -/
abbrev windowValid (e : Encoder) : Prop :=
  (e.cur = .eoi → e.next = .eoi) ∧ (e.next = .eoi → e.nn = .eoi)

/-- The encoder's registers between steps in phase RUN (R14, R15, R31 (a) to (e)). -/
abbrev encRunning (e : Encoder) : Prop :=
  windowValid e ∧ e.len ≠ 127 ∧
    (e.mode = .literalMode → e.cur ≠ .eoi → e.cur ≠ e.next) ∧
    (e.cur = .eoi → e.len = 0)

/-- The encoder's `cause` and `subcause`: 0 without a fault, one of the four encoder faults with one
(R23, R132, R138). -/
abbrev encCausesFit (e : Encoder) : Prop :=
  (e.phase ≠ .fault → e.cause = 0 ∧ e.subcause = 0) ∧
    (e.phase = .fault → (e.cause = 1 ∨ e.cause = 2) ∧ (e.subcause = 0 ∨ e.subcause = 1))

/-- The encoder's invariant (R31, R132, R138); at DONE nothing is pending (R164). -/
abbrev encInv (e : Encoder) : Prop :=
  (e.phase = .run → encRunning e) ∧ encCausesFit e ∧ (e.phase = .done → e.len = 0)

/-- The decoder's registers between steps inside a record (R32). -/
abbrev decInRecord (d : Decoder) : Prop :=
  (d.phase = .repv ∨ d.phase = .repw ∨ d.phase = .litc → d.cnt ≠ 0 ∧ d.cnt ≤ ctlLen d.ctl) ∧
    (d.phase = .repv ∨ d.phase = .repw → ctlMode d.ctl = .repeatMode) ∧
    (d.phase = .litc → ctlMode d.ctl = .literalMode) ∧
    (d.phase = .repv → d.cnt = ctlLen d.ctl)

/-- What a MalformedStream fault leaves in `D.ctl` and `D.cnt` (R141). -/
abbrev decMalformedLeft (d : Decoder) : Prop :=
  (d.subcause = 0 ∧ ctlMode d.ctl = .repeatMode ∧ d.cnt = ctlLen d.ctl ∧ d.cnt ≠ 0) ∨
    (d.subcause = 1 ∧ ctlMode d.ctl = .literalMode ∧ d.cnt ≤ ctlLen d.ctl ∧ d.cnt ≠ 0) ∨
    (d.subcause = 2 ∧ ctlLen d.ctl = 0 ∧ d.cnt = 0)

/-- The decoder's `cause` and `subcause` (R23, R132, R141). -/
abbrev decCausesFit (d : Decoder) : Prop :=
  (d.phase ≠ .fault → d.cause = 0 ∧ d.subcause = 0) ∧
    (d.phase = .fault →
      ((d.cause = 1 ∨ d.cause = 2) ∧ (d.subcause = 0 ∨ d.subcause = 1)) ∨
        (d.cause = 3 ∧ decMalformedLeft d))

/-- The decoder's invariant (R32, R132, R141). -/
abbrev decInv (d : Decoder) : Prop := decInRecord d ∧ decCausesFit d

/-- A start command waits only in IDLE (R161, log entry 5). -/
abbrev startsFit (s : State) : Prop :=
  (s.encPorts.start = true → s.enc.phase = .idle) ∧ (s.decPorts.start = true → s.dec.phase = .idle)

/-- The invariant of the machine. -/
abbrev machineInv (s : State) : Prop := encInv s.enc ∧ decInv s.dec ∧ startsFit s

/-- Does the next event bind or unbind a port of a block whose invocation is running (R163, R170)? -/
def nextRebindsInUse (s : State) : Bool :=
  match s.agenda with
  | .bindSource b _ _ :: _ | .bindSink b _ _ :: _ | .unbindSource b :: _ | .unbindSink b :: _ =>
    portsInUse b s
  | .reset _ :: _ | .start _ :: _ | .run _ :: _ | .record :: _ => false
  | .supply _ _ _ :: _ | .acceptMore _ _ _ :: _ => false
  | [] => false

/-! What is still to come. -/

/-- The input bytes in the window (R26). -/
def windowBytes (e : Encoder) : List Byte := [e.cur, e.next, e.nn].filterMap symByte

/-- The input bytes the encoder has still to classify: those in the window and those its source holds; none
after the marker (R43). -/
def encInput (e : Encoder) (p : Ports) : List Byte :=
  windowBytes e ++ if e.nn = .eoi then [] else upcoming p.source

/-- The `buf` of R99: the pending literal bytes, none in Repeat mode (R25). -/
def pendingLiteral (e : Encoder) : List Byte :=
  match e.mode with
  | .literalMode => literalBytes e e.len
  | .repeatMode => []

/-- What the encoder's sink will hold at DONE if no port fails from here on (R99). -/
def encFinal (e : Encoder) (p : Ports) : List Byte :=
  match e.phase with
  | .idle => p.sink.out ++ encodeList (upcoming p.source)
  | .run => p.sink.out ++ encodeFrom e.mode e.len.toNat (pendingLiteral e) (encInput e p)
  | .done | .fault => p.sink.out

/-- The result a MalformedStream fault stands for (R132). -/
def malformedResult (subcause : BitVec 2) : DecodeResult :=
  if subcause = 0 then .malformed .truncatedRepeat
  else if subcause = 1 then .malformed .truncatedLiteral
  else .malformed .reservedLength

/-- What the decoder's sink will hold at the end, and how it ends, if no port fails from here on (R125). -/
def decFinal (d : Decoder) (p : Ports) : List Byte × DecodeResult :=
  match d.phase with
  | .idle | .fetch => outputFirst p.sink.out (decodeFrom .control (upcoming p.source))
  | .repv => outputFirst p.sink.out (decodeFrom (.value d.cnt.toNat) (upcoming p.source))
  | .repw =>
    outputFirst (p.sink.out ++ List.replicate d.cnt.toNat d.val)
      (decodeFrom .control (upcoming p.source))
  | .litc => outputFirst p.sink.out (decodeFrom (.payload d.cnt.toNat) (upcoming p.source))
  | .done => (p.sink.out, .done)
  | .fault => (p.sink.out, malformedResult d.subcause)

/-- A measure of the encoder's work in RUN: the bytes in the window, the answers its source holds, and the
last step (R96). -/
def encWork (e : Encoder) (p : Ports) : Nat :=
  match e.phase with
  | .run => (windowBytes e).length + p.source.answers.length + 1
  | .idle | .done | .fault => 0

/-- A measure of the decoder's work: every step consumes an answer of the source, or counts `D.cnt` down, or
ends the invocation (R119). -/
def decWork (d : Decoder) (p : Ports) : Nat :=
  match d.phase with
  | .fetch | .repv | .litc => 129 * p.source.answers.length + 1
  | .repw => 129 * p.source.answers.length + d.cnt.toNat + 1
  | .idle | .done | .fault => 0

/-! Ports that answer. -/

/-- A source that answers the next `k` reads with bytes or the end of input. -/
abbrev sourceReady (k : Nat) (s : Source) : Prop :=
  SrcAnswer.fail ∉ s.answers.take k ∧ (k ≤ s.answers.length ∨ s.tail = .ended)

/-- A sink that accepts the next `k` writes. -/
abbrev sinkReady (k : Nat) (s : Sink) : Prop :=
  SnkAnswer.fail ∉ s.answers.take k ∧ (k ≤ s.answers.length ∨ s.tail = .accepting)

/-- A source that will hand over exactly these bytes and then signal end of input, without failure. -/
abbrev sourceHolds (bs : List Byte) (s : Source) : Prop :=
  s.answers = bs.map .byte ∧ s.tail = .ended

/-- A sink that accepts every write. -/
abbrev sinkOpen (s : Sink) : Prop := s.answers = [] ∧ s.tail = .accepting

/-! The ports after actions that all succeeded. -/

/-- The symbol the next successful read returns (R42). -/
def nextSym (s : Source) : Sym :=
  match s.answers with
  | .byte b :: _ => .byte b
  | .fail :: _ => .eoi
  | [] => .eoi

/-- The source after a read that returned `x` (R42). -/
def readOnce (s : Source) (x : Sym) : Source :=
  { s with taken := s.taken ++ [x], answers := s.answers.tail }

/-- The sink after `bs` have been written (R45). -/
def wrote (s : Sink) (bs : List Byte) : Sink :=
  { s with out := s.out ++ bs, answers := s.answers.drop bs.length }

/-- A sink that accepts `j` writes and fails the one after them (R46). -/
abbrev sinkFailsAt (j : Nat) (s : Sink) : Prop :=
  SnkAnswer.fail ∉ s.answers.take j ∧ s.answers[j]? = some .fail

/-- The sink after the first `j` of `bs` have been written and the write of the next one has failed (R46). -/
def wroteThenFailed (s : Sink) (bs : List Byte) (j : Nat) : Sink :=
  { s with out := s.out ++ bs.take j, answers := s.answers.drop (j + 1) }

/-- The encoder after a fault with these codes (R140). -/
def encFaulted (cause subcause : BitVec 2) (e : Encoder) : Encoder :=
  { e with phase := .fault, cause := cause, subcause := subcause }

/-- The decoder after a fault with these codes (R140). -/
def decFaulted (cause subcause : BitVec 2) (d : Decoder) : Decoder :=
  { d with phase := .fault, cause := cause, subcause := subcause }

/-- The encoder with its window moved by one symbol, over a source that answers (R83). -/
def windowShifted (e : Encoder) (s : Source) : Encoder :=
  { e with cur := e.next, next := e.nn, nn := if e.nn = .eoi then .eoi else nextSym s }

/-- The source after that shift: one read, none once the marker has been received (R43, R83). -/
def sourceShifted (e : Encoder) (s : Source) : Source :=
  if e.nn = .eoi then s else readOnce s (nextSym s)

/-- What R84 to R89 say of an operation that writes `bs` and then shifts, in the order of R92: with every
action answered it ends with the registers `result`; at a failing write, or at a failing read, it ends in a
fault on the registers `frozen`, and what was written before stays (R46, R133, R134, R140). -/
def encoderStepIs (i : Instr) (s : State) (bs : List Byte) (frozen result : Encoder) : Prop :=
  (sinkReady bs.length s.encPorts.sink → s.enc.nn = .eoi ∨ sourceReady 1 s.encPorts.source →
    exec i s =
      .next
        { s with
          enc := result
          encPorts :=
            { s.encPorts with
              source := sourceShifted s.enc s.encPorts.source
              sink := wrote s.encPorts.sink bs } }) ∧
  (∀ j, j < bs.length → sinkFailsAt j s.encPorts.sink →
    exec i s =
      .next
        { s with
          enc := encFaulted 2 1 frozen
          encPorts := { s.encPorts with sink := wroteThenFailed s.encPorts.sink bs j } }) ∧
  (∀ rest, sinkReady bs.length s.encPorts.sink → s.enc.nn ≠ .eoi →
    s.encPorts.source.answers = .fail :: rest →
    exec i s =
      .next
        { s with
          enc := encFaulted 2 0 frozen
          encPorts :=
            { s.encPorts with
              source := { s.encPorts.source with answers := rest }
              sink := wrote s.encPorts.sink bs } })

/-- The encoder with its current byte appended to the literal buffer (R51). -/
def literalAppended (e : Encoder) (v : Byte) : Encoder :=
  { e with lbuf := e.lbuf.setIfInBounds e.len.toNat v }

/-! Which operations are which. -/

/-- The operations of the encoder (R80). -/
def isEncoderOp (i : Instr) : Bool :=
  i ∈ [Instr.encStart, .encHalt, .encRepEnd, .encRepCap, .encRepCont, .encLitFlush, .encLitCap, .encLitCont]

/-- The operations of the encoder with a current byte, which end with the shift (R83). -/
def isClassifyingOp (i : Instr) : Bool :=
  i ∈ [Instr.encRepEnd, .encRepCap, .encRepCont, .encLitFlush, .encLitCap, .encLitCont]

/-- The operations of the decoder (R110). -/
def isDecoderOp (i : Instr) : Bool :=
  i ∈ [Instr.decStart, .decFetch, .decRepVal, .decRepOut, .decLitCopy]

/-- What the decoder executes: its operations, and the records, which are sequences of them (R7, R110). -/
def isDecoderInstr (i : Instr) : Bool := isDecoderOp i || i.isRecord

/-- How many operations of the decoder a record is (R116, R117, R118). -/
def recordSteps : Instr → Nat
  | .rsvLit0 | .rsvRep0 => 1
  | .lit n _ => n.toNat + 1
  | .rep n _ => n.toNat + 2
  | .encStart | .encHalt | .encRepEnd | .encRepCap | .encRepCont => 0
  | .encLitFlush | .encLitCap | .encLitCont => 0
  | .decStart | .decFetch | .decRepVal | .decRepOut | .decLitCopy => 0
  | .reset _ | .start _ => 0

/-- The bytes that an encoder operation writes when none of its writes fails (R85, R86, R88, R89). -/
def recordEmitted (i : Instr) (e : Encoder) : List Byte :=
  match i with
  | .encRepEnd => repeatRecord e
  | .encRepCap => [0xFF, symData e.cur]
  | .encLitFlush => literalRecord e
  | .encLitCap => 0x7F :: literalBytes (appendLiteral e) 127
  | .encStart | .encHalt | .encRepCont | .encLitCont => []
  | .rsvLit0 | .rsvRep0 | .lit _ _ | .rep _ _ => []
  | .decStart | .decFetch | .decRepVal | .decRepOut | .decLitCopy => []
  | .reset _ | .start _ => []

end Sys2Proof.Machine
end

