-- ==== Sys2Proof/Certificates/Slice0/Obligations.lean ====
section
/-! DEFINITION. The statements for the provers, from the numbered rules of spec/. -/

open Sys2Proof Sys2Proof.Machine

/-! The wire format. -/

/-- R65: the three format functions, and that they agree. -/
def Obligations.ControlByteFieldsAgree : Prop :=
  (∀ (m : Mode) (n : Len), n ≠ 0 → packCtl m n = modeCode m ++ n ∧
    packCtl m n = if m = .repeatMode then n.setWidth 8 ||| 0x80 else n.setWidth 8) ∧
    (∀ c : Byte, modeCode (ctlMode c) = c.extractLsb' 7 1 ∧ ctlLen c = c.extractLsb' 0 7 ∧
      ctlLen c = (c &&& 0x7F).setWidth 7) ∧
    (∀ (m : Mode) (n : Len), n ≠ 0 → ctlMode (packCtl m n) = m ∧ ctlLen (packCtl m n) = n) ∧
    ∀ c : Byte, ctlLen c ≠ 0 → packCtl (ctlMode c) (ctlLen c) = c

/-- Words written out from the spec's encodings (R69, R72, section 2.1 of 95_test_vectors.md) decode to the
instructions they stand for; selector vectors and phase codes select the operations of R80 and R110. -/
def Obligations.WordsDecodeAsWritten : Prop :=
  decode [0x83, 0x41] = .ok (.rep 3 0x41, []) ∧
    decode [0x03, 0x01, 0x02, 0x03] = .ok (.lit 3 [0x01, 0x02, 0x03], []) ∧
    decode [0x00] = .ok (.rsvLit0, []) ∧ decode [0x80, 0x41] = .ok (.rsvRep0, [0x41]) ∧
    decodeSelector 0b10000 = some .encHalt ∧ decodeSelector 0b01101 = some .encRepEnd ∧
    decodeSelector 0b01001 = some .encRepCap ∧ decodeSelector 0b01010 = some .encRepCont ∧
    decodeSelector 0b00111 = some .encLitFlush ∧ decodeSelector 0b00101 = some .encLitCap ∧
    decodeSelector 0b00100 = some .encLitCont ∧
    decodePhase 0 = some .decStart ∧ decodePhase 1 = some .decFetch ∧
    decodePhase 2 = some .decRepVal ∧ decodePhase 3 = some .decRepOut ∧
    decodePhase 4 = some .decLitCopy ∧ decodePhase 5 = none

/-- Every well-formed record decodes back from its bytes, whatever follows them. -/
def Obligations.RecordDecodesBack : Prop :=
  ∀ (i : Instr) (rest : List Byte), i.isRecord = true → i.wellFormed = true →
    decode (encode i ++ rest) = .ok (i, rest)

/-- What decodes is a well-formed record, and its bytes are the ones in front. -/
def Obligations.DecodedRecordIsItsBytes : Prop :=
  ∀ (bs rest : List Byte) (i : Instr), decode bs = .ok (i, rest) →
    i.isRecord = true ∧ i.wellFormed = true ∧ bs = encode i ++ rest

/-- R69: the first byte of a record is the whole opcode. -/
def Obligations.ControlByteIsTheOpcode : Prop :=
  ∀ (c : Byte) (rest : List Byte),
    (c = 0x00 → decode (c :: rest) = .ok (.rsvLit0, rest)) ∧
      (c = 0x80 → decode (c :: rest) = .ok (.rsvRep0, rest)) ∧
      (0x01 ≤ c → c ≤ 0x7F → c.toNat ≤ rest.length →
        decode (c :: rest) =
          .ok (.lit (c.setWidth 7) (rest.take c.toNat), rest.drop c.toNat)) ∧
      (0x01 ≤ c → c ≤ 0x7F → rest.length < c.toNat →
        decode (c :: rest) = .error .truncatedLiteral) ∧
      (0x81 ≤ c → ∀ (v : Byte) (rest' : List Byte), rest = v :: rest' →
        decode (c :: rest) = .ok (.rep (c.setWidth 7) v, rest')) ∧
      (0x81 ≤ c → rest = [] → decode (c :: rest) = .error .truncatedRepeat)

/-- R66: the control byte alone gives the length of its record (a reserved byte is consumed alone). -/
def Obligations.ControlByteGivesRecordSize : Prop :=
  ∀ (c : Byte) (rest rest' : List Byte) (i : Instr), decode (c :: rest) = .ok (i, rest') →
    rest.length + 1 = recordSize c + rest'.length ∧
      (c &&& 0x7F ≠ 0 → c.getLsbD 7 = true → recordSize c = 2) ∧
      (c &&& 0x7F ≠ 0 → c.getLsbD 7 = false → recordSize c = 1 + c.toNat)

/-! Selection and the step. -/

/-- R74, R80: the seven rows of format ENC_SEL are mutually exclusive and exhaustive. -/
def Obligations.SelectorRowsPartition : Prop :=
  ∀ v : BitVec 5, ∃ r ∈ encSelRows, rowSelects v r = true ∧ decodeSelector v = some r.op ∧
    ∀ r' ∈ encSelRows, rowSelects v r' = true → r' = r

/-- R80: the encoder's operation in every phase, by its own line "Selected when"; and the patterns of the
selector vector, bit by bit, with the bits that vector has (R81). -/
def Obligations.EncoderSelection : Prop :=
  (∀ v : BitVec 5,
    (v.getLsbD 4 = true → decodeSelector v = some .encHalt) ∧
      (v.getLsbD 4 = false → v.getLsbD 3 = true → v.getLsbD 2 = true →
        decodeSelector v = some .encRepEnd) ∧
      (v.getLsbD 4 = false → v.getLsbD 3 = true → v.getLsbD 2 = false →
        decodeSelector v = if v.getLsbD 0 then some .encRepCap else some .encRepCont) ∧
      (v.getLsbD 4 = false → v.getLsbD 3 = false → v.getLsbD 1 = true →
        decodeSelector v = some .encLitFlush) ∧
      (v.getLsbD 4 = false → v.getLsbD 3 = false → v.getLsbD 1 = false →
        decodeSelector v = if v.getLsbD 0 then some .encLitCap else some .encLitCont)) ∧
  (∀ e : Encoder,
    (sel e).getLsbD 4 = symEoi e.cur ∧ (sel e).getLsbD 3 = decide (e.mode = .repeatMode) ∧
      (sel e).getLsbD 2 = decide (e.cur ≠ e.next) ∧ (sel e).getLsbD 1 = decide (e.next = e.nn) ∧
      (sel e).getLsbD 0 = decide (e.len + 1 = 127)) ∧
  ∀ s : State,
    (s.enc.phase = .idle → selectEncoder s = if s.encPorts.start then some .encStart else none) ∧
      (s.enc.phase = .run → s.enc.cur = .eoi → selectEncoder s = some .encHalt) ∧
      (s.enc.phase = .run → ∀ v, s.enc.cur = .byte v →
        (s.enc.mode = .repeatMode → s.enc.cur ≠ s.enc.next → selectEncoder s = some .encRepEnd) ∧
          (s.enc.mode = .repeatMode → s.enc.cur = s.enc.next → s.enc.len + 1 = 127 →
            selectEncoder s = some .encRepCap) ∧
          (s.enc.mode = .repeatMode → s.enc.cur = s.enc.next → s.enc.len + 1 ≠ 127 →
            selectEncoder s = some .encRepCont) ∧
          (s.enc.mode = .literalMode → s.enc.next = s.enc.nn → selectEncoder s = some .encLitFlush) ∧
          (s.enc.mode = .literalMode → s.enc.next ≠ s.enc.nn → s.enc.len + 1 = 127 →
            selectEncoder s = some .encLitCap) ∧
          (s.enc.mode = .literalMode → s.enc.next ≠ s.enc.nn → s.enc.len + 1 ≠ 127 →
            selectEncoder s = some .encLitCont)) ∧
      (s.enc.phase = .done ∨ s.enc.phase = .fault → selectEncoder s = none)

/-- R110: the decoder's operation is chosen by its phase alone, and performs at most one source read and at
most one sink write. -/
def Obligations.DecoderSelection : Prop :=
  (∀ (i : Instr) (s t : State), isDecoderOp i = true → exec i s = .next t →
    (∃ xs, xs.length ≤ 1 ∧ t.decPorts.source.taken = s.decPorts.source.taken ++ xs) ∧
      ∃ bs, bs.length ≤ 1 ∧ t.decPorts.sink.out = s.decPorts.sink.out ++ bs) ∧
  ∀ s : State,
    (s.dec.phase = .idle → selectDecoder s = if s.decPorts.start then some .decStart else none) ∧
      (s.dec.phase = .fetch → selectDecoder s = some .decFetch) ∧
      (s.dec.phase = .repv → selectDecoder s = some .decRepVal) ∧
      (s.dec.phase = .repw → selectDecoder s = some .decRepOut) ∧
      (s.dec.phase = .litc → selectDecoder s = some .decLitCopy) ∧
      (s.dec.phase = .done ∨ s.dec.phase = .fault → selectDecoder s = none)

/-- A step runs the instruction it decodes: the operation the block's state selects, the record its source
holds (where it holds no whole record, the one operation of the decoder), or the command on the agenda;
around it a step only takes the event off the agenda, or passes the turn (log entries 4, 9). -/
def Obligations.StepRunsDecodedInstruction : Prop :=
  ∀ (s : State) (rest : List Event),
    (∀ b i, s.agenda = .run b :: rest → select b { s with agenda := rest } = some i →
      step s = exec i { s with agenda := rest }) ∧
      (∀ b, s.agenda = .run b :: rest → select b { s with agenda := rest } = none →
        step s = .next { s with agenda := rest }) ∧
      (∀ i, s.agenda = .record :: rest → nextRecord { s with agenda := rest } = some i →
        step s = exec i { s with agenda := rest }) ∧
      (∀ i, s.agenda = .record :: rest → nextRecord { s with agenda := rest } = none →
        selectDecoder { s with agenda := rest } = some i → step s = exec i { s with agenda := rest }) ∧
      (s.agenda = .record :: rest → nextRecord { s with agenda := rest } = none →
        selectDecoder { s with agenda := rest } = none → step s = .next { s with agenda := rest }) ∧
      (∀ b, s.agenda = .reset b :: rest → step s = exec (.reset b) { s with agenda := rest }) ∧
      (∀ b, s.agenda = .start b :: rest → step s = exec (.start b) { s with agenda := rest }) ∧
      (∀ i, s.agenda = [] → select s.turn { s with turn := otherBlock s.turn } = some i →
        step s = exec i { s with turn := otherBlock s.turn }) ∧
      (s.agenda = [] → select s.turn { s with turn := otherBlock s.turn } = none →
        step s = .next { s with turn := otherBlock s.turn })

/-- An instruction placed where the next step fetches is the instruction the next step runs (log entry 10). -/
def Obligations.PlacedRecordRuns : Prop :=
  ∀ (s : State) (nbits w : Nat) (i : Instr), decodeTableWord nbits w = some i →
    nextRecord (s.withFetchWord nbits w) = some i ∧
      step (s.withFetchWord nbits w) = exec i { s.withFetchWord nbits w with agenda := s.agenda }

/-! The encoder's operations. -/

/-- R82: ENC.START. That an empty input leaves `E.len = 0` is the model's reading of R164, log entry 12. -/
def Obligations.EncStartLoadsWindow : Prop :=
  ∀ s : State, s.enc.phase = .idle → s.encPorts.start = true →
    let src := s.encPorts.source
    let after (e : Encoder) (src' : Source) : State :=
      { s with enc := e, encPorts := { s.encPorts with source := src', start := false } }
    let window (m : Mode) (c n x : Sym) : Encoder :=
      { s.enc with phase := .run, mode := m, cur := c, next := n, nn := x, len := 0 }
    (src.bound = false → exec .encStart s = .next (after (encFaulted 1 0 s.enc) src)) ∧
      (src.bound = true → s.encPorts.sink.bound = false →
        exec .encStart s = .next (after (encFaulted 1 1 s.enc) src)) ∧
      (src.bound = true → s.encPorts.sink.bound = true →
        (src.answers = [] → src.tail = .ended →
          exec .encStart s =
            .next (after { s.enc with phase := .done, len := 0 }
              { src with taken := src.taken ++ [.eoi] })) ∧
          (∀ a, src.answers = [.byte a] → src.tail = .ended →
            exec .encStart s =
              .next (after (window .repeatMode (.byte a) .eoi .eoi)
                { src with taken := src.taken ++ [.byte a, .eoi], answers := [] })) ∧
          (∀ a b, src.answers = [.byte a, .byte b] → src.tail = .ended →
            exec .encStart s =
              .next (after (window (if a = b then .repeatMode else .literalMode) (.byte a) (.byte b) .eoi)
                { src with taken := src.taken ++ [.byte a, .byte b, .eoi], answers := [] })) ∧
          (∀ a b c rest, src.answers = .byte a :: .byte b :: .byte c :: rest →
            exec .encStart s =
              .next
                (after (window (if a = b then .repeatMode else .literalMode) (.byte a) (.byte b) (.byte c))
                  { src with taken := src.taken ++ [.byte a, .byte b, .byte c], answers := rest })) ∧
          (∀ rest, src.answers = .fail :: rest →
            exec .encStart s = .next (after (encFaulted 2 0 s.enc) { src with answers := rest })) ∧
          (∀ a rest, src.answers = .byte a :: .fail :: rest →
            exec .encStart s =
              .next (after (encFaulted 2 0 s.enc)
                { src with taken := src.taken ++ [.byte a], answers := rest })) ∧
          (∀ a b rest, src.answers = .byte a :: .byte b :: .fail :: rest →
            exec .encStart s =
              .next (after (encFaulted 2 0 s.enc)
                { src with taken := src.taken ++ [.byte a, .byte b], answers := rest })))

/-- R90: ENC.HALT; in every state a run reaches nothing is pending there. -/
def Obligations.EncHaltIsDone : Prop :=
  ∀ s : State, s.enc.phase = .run → s.enc.cur = .eoi →
    exec .encHalt s = .next { s with enc := { s.enc with phase := .done } } ∧
      (encInv s.enc → s.enc.len = 0)

/-- R84: ENC.REP.CONT. -/
def Obligations.EncRepContCounts : Prop :=
  ∀ (s : State) (v : Byte), s.enc.phase = .run → s.enc.cur = .byte v → s.enc.mode = .repeatMode →
    s.enc.cur = s.enc.next → s.enc.len + 1 ≠ 127 → s.enc.len ≠ 127 →
    encoderStepIs .encRepCont s [] s.enc
      { windowShifted s.enc s.encPorts.source with len := s.enc.len + 1 }

/-- R85: ENC.REP.END. -/
def Obligations.EncRepEndFlushes : Prop :=
  ∀ (s : State) (v : Byte), s.enc.phase = .run → s.enc.cur = .byte v → s.enc.mode = .repeatMode →
    s.enc.cur ≠ s.enc.next → s.enc.len ≠ 127 →
    encoderStepIs .encRepEnd s [0x80 ||| (s.enc.len + 1).setWidth 8, v] s.enc
      { windowShifted s.enc s.encPorts.source with
        mode := if s.enc.next = s.enc.nn then .repeatMode else .literalMode
        len := 0 }

/-- R86: ENC.REP.CAP. -/
def Obligations.EncRepCapCuts : Prop :=
  ∀ (s : State) (v : Byte), s.enc.phase = .run → s.enc.cur = .byte v → s.enc.mode = .repeatMode →
    s.enc.cur = s.enc.next → s.enc.len + 1 = 127 →
    encoderStepIs .encRepCap s [0xFF, v] s.enc
      { windowShifted s.enc s.encPorts.source with len := 0 }

/-- R87: ENC.LIT.CONT. -/
def Obligations.EncLitContAppends : Prop :=
  ∀ (s : State) (v : Byte), s.enc.phase = .run → s.enc.cur = .byte v → s.enc.mode = .literalMode →
    s.enc.next ≠ s.enc.nn → s.enc.len + 1 ≠ 127 → s.enc.len ≠ 127 →
    encoderStepIs .encLitCont s [] (literalAppended s.enc v)
      { windowShifted (literalAppended s.enc v) s.encPorts.source with len := s.enc.len + 1 }

/-- R88: ENC.LIT.FLUSH; the payload is the pending bytes and then the current byte. -/
def Obligations.EncLitFlushFlushes : Prop :=
  ∀ (s : State) (v : Byte), s.enc.phase = .run → s.enc.cur = .byte v → s.enc.mode = .literalMode →
    s.enc.next = s.enc.nn → s.enc.len ≠ 127 →
    encoderStepIs .encLitFlush s
      ((s.enc.len + 1).setWidth 8 :: (s.enc.lbuf.toList.take s.enc.len.toNat ++ [v]))
      (literalAppended s.enc v)
      { windowShifted (literalAppended s.enc v) s.encPorts.source with mode := .repeatMode, len := 0 }

/-- R89: ENC.LIT.CAP; the payload is the 126 pending bytes and then the current byte. -/
def Obligations.EncLitCapCuts : Prop :=
  ∀ (s : State) (v : Byte), s.enc.phase = .run → s.enc.cur = .byte v → s.enc.mode = .literalMode →
    s.enc.next ≠ s.enc.nn → s.enc.len + 1 = 127 →
    encoderStepIs .encLitCap s (0x7F :: (s.enc.lbuf.toList.take 126 ++ [v]))
      (literalAppended s.enc v)
      { windowShifted (literalAppended s.enc v) s.encPorts.source with len := 0 }

/-- What an operation of the encoder leaves alone: the decoder, both its ports, the agenda, the turn, the
free counter, the bindings; and the `start` command but for ENC.START. -/
def Obligations.EncoderOperationsFrame : Prop :=
  ∀ (i : Instr) (s t : State), isEncoderOp i = true → exec i s = .next t →
    t.dec = s.dec ∧ t.decPorts = s.decPorts ∧ t.agenda = s.agenda ∧ t.turn = s.turn ∧ t.free = s.free ∧
      t.encPorts.source.bound = s.encPorts.source.bound ∧
      t.encPorts.sink.bound = s.encPorts.sink.bound ∧
      t.encPorts.source.tail = s.encPorts.source.tail ∧ t.encPorts.sink.tail = s.encPorts.sink.tail ∧
      (i ≠ .encStart → t.encPorts.start = s.encPorts.start)

/-- Which registers of the encoder an operation leaves alone, whether it completes, waits or ends in a
fault (R10's column "written by"; R84 to R90, R140). -/
def Obligations.EncoderRegistersFrame : Prop :=
  ∀ (i : Instr) (s t : State), isEncoderOp i = true → exec i s = .next t →
    (i ∉ [Instr.encStart, .encRepEnd, .encLitFlush] → t.enc.mode = s.enc.mode) ∧
      (i = .encHalt → t.enc = { s.enc with phase := .done }) ∧
      (i ∉ [Instr.encLitCont, .encLitFlush, .encLitCap] → t.enc.lbuf = s.enc.lbuf) ∧
      (∀ j, j ≠ s.enc.len.toNat → t.enc.lbuf.toList[j]? = s.enc.lbuf.toList[j]?) ∧
      (t.enc.phase ≠ .fault → t.enc.cause = s.enc.cause ∧ t.enc.subcause = s.enc.subcause) ∧
      (isClassifyingOp i = true → t.enc.phase = .run ∨ t.enc.phase = .fault) ∧
      (t.enc.phase = .fault →
        t.enc.mode = s.enc.mode ∧ t.enc.cur = s.enc.cur ∧ t.enc.next = s.enc.next ∧
          t.enc.nn = s.enc.nn ∧ t.enc.len = s.enc.len)

/-- Where an encoder operation stores: its sink grows by the first `j` bytes of the record it emits, by all
of them unless it ends in a fault or waits (R46, R85 to R89, R134); the operations that emit no record leave
the sink as it is. -/
def Obligations.EncoderWritesItsRecord : Prop :=
  ∀ (i : Instr) (s t : State), isEncoderOp i = true → exec i s = .next t →
    (∃ j, t.encPorts.sink.out = s.encPorts.sink.out ++ (recordEmitted i s.enc).take j) ∧
      (t.enc.phase ≠ .fault → t ≠ s →
        t.encPorts.sink.out = s.encPorts.sink.out ++ recordEmitted i s.enc) ∧
      (i ∈ [Instr.encStart, .encHalt, .encRepCont, .encLitCont] → t.encPorts.sink = s.encPorts.sink)

/-- R43, for the encoder: once the marker has been received no read is issued. -/
def Obligations.NoReadAfterMarker : Prop :=
  ∀ (i : Instr) (s t : State), isClassifyingOp i = true → s.enc.nn = .eoi → exec i s = .next t →
    t.encPorts.source = s.encPorts.source

/-! The decoder's operations and the records. -/

/-- R112: DEC.START. -/
def Obligations.DecStartFetches : Prop :=
  ∀ s : State, s.dec.phase = .idle → s.decPorts.start = true →
    let after (d : Decoder) : State :=
      { s with dec := d, decPorts := { s.decPorts with start := false } }
    (s.decPorts.source.bound = false → exec .decStart s = .next (after (decFaulted 1 0 s.dec))) ∧
      (s.decPorts.source.bound = true → s.decPorts.sink.bound = false →
        exec .decStart s = .next (after (decFaulted 1 1 s.dec))) ∧
      (s.decPorts.source.bound = true → s.decPorts.sink.bound = true →
        exec .decStart s = .next (after { s.dec with phase := .fetch }))

/-- R111: DEC.FETCH. -/
def Obligations.DecFetchParsesControl : Prop :=
  ∀ s : State, s.dec.phase = .fetch →
    let src := s.decPorts.source
    let after (d : Decoder) (src' : Source) : State :=
      { s with dec := d, decPorts := { s.decPorts with source := src' } }
    (∀ (c : Byte) rest, src.answers = .byte c :: rest →
      exec .decFetch s =
        .next
          (after
            { s.dec with
              ctl := c
              cnt := (c &&& 0x7F).setWidth 7
              phase := if c &&& 0x7F = 0 then .fault else if c.getLsbD 7 then .repv else .litc
              cause := if c &&& 0x7F = 0 then 3 else s.dec.cause
              subcause := if c &&& 0x7F = 0 then 2 else s.dec.subcause }
            { src with taken := src.taken ++ [.byte c], answers := rest })) ∧
      (src.answers = [] → src.tail = .ended →
        exec .decFetch s =
          .next (after { s.dec with phase := .done } { src with taken := src.taken ++ [.eoi] })) ∧
      (∀ rest, src.answers = .fail :: rest →
        exec .decFetch s = .next (after (decFaulted 2 0 s.dec) { src with answers := rest }))

/-- R113: DEC.REP.VAL. -/
def Obligations.DecRepValReadsValue : Prop :=
  ∀ s : State, s.dec.phase = .repv →
    let src := s.decPorts.source
    let after (d : Decoder) (src' : Source) : State :=
      { s with dec := d, decPorts := { s.decPorts with source := src' } }
    (∀ (v : Byte) rest, src.answers = .byte v :: rest →
      exec .decRepVal s =
        .next (after { s.dec with val := v, phase := .repw }
          { src with taken := src.taken ++ [.byte v], answers := rest })) ∧
      (src.answers = [] → src.tail = .ended →
        exec .decRepVal s =
          .next (after (decFaulted 3 0 s.dec) { src with taken := src.taken ++ [.eoi] })) ∧
      (∀ rest, src.answers = .fail :: rest →
        exec .decRepVal s = .next (after (decFaulted 2 0 s.dec) { src with answers := rest }))

/-- R114: DEC.REP.OUT. -/
def Obligations.DecRepOutWritesValue : Prop :=
  ∀ s : State, s.dec.phase = .repw → s.dec.cnt ≠ 0 →
    let after (d : Decoder) (snk' : Sink) : State :=
      { s with dec := d, decPorts := { s.decPorts with sink := snk' } }
    (sinkReady 1 s.decPorts.sink →
      exec .decRepOut s =
        .next (after
          { s.dec with
            cnt := s.dec.cnt - 1
            phase := if s.dec.cnt - 1 = 0 then .fetch else .repw }
          (wrote s.decPorts.sink [s.dec.val]))) ∧
      (∀ rest, s.decPorts.sink.answers = .fail :: rest →
        exec .decRepOut s =
          .next (after (decFaulted 2 1 s.dec) { s.decPorts.sink with answers := rest }))

/-- R115: DEC.LIT.COPY. -/
def Obligations.DecLitCopyCopies : Prop :=
  ∀ s : State, s.dec.phase = .litc → s.dec.cnt ≠ 0 →
    let src := s.decPorts.source
    let after (d : Decoder) (src' : Source) (snk' : Sink) : State :=
      { s with dec := d, decPorts := { s.decPorts with source := src', sink := snk' } }
    (∀ (b : Byte) rest, src.answers = .byte b :: rest → sinkReady 1 s.decPorts.sink →
      exec .decLitCopy s =
        .next (after
          { s.dec with
            cnt := s.dec.cnt - 1
            phase := if s.dec.cnt - 1 = 0 then .fetch else .litc }
          { src with taken := src.taken ++ [.byte b], answers := rest }
          (wrote s.decPorts.sink [b]))) ∧
      (∀ (b : Byte) rest more, src.answers = .byte b :: rest →
        s.decPorts.sink.answers = .fail :: more →
        exec .decLitCopy s =
          .next (after (decFaulted 2 1 s.dec)
            { src with taken := src.taken ++ [.byte b], answers := rest }
            { s.decPorts.sink with answers := more })) ∧
      (src.answers = [] → src.tail = .ended →
        exec .decLitCopy s =
          .next (after (decFaulted 3 1 s.dec) { src with taken := src.taken ++ [.eoi] }
            s.decPorts.sink)) ∧
      (∀ rest, src.answers = .fail :: rest →
        exec .decLitCopy s =
          .next (after (decFaulted 2 0 s.dec) { src with answers := rest } s.decPorts.sink))

/-- R118: the reserved control bytes. -/
def Obligations.ReservedControlByteFaults : Prop :=
  ∀ (s : State) (rest : List SrcAnswer), s.dec.phase = .fetch →
    let after (c : Byte) : State :=
      { s with
        dec := { s.dec with phase := .fault, cause := 3, subcause := 2, ctl := c, cnt := 0 }
        decPorts :=
          { s.decPorts with
            source :=
              { s.decPorts.source with
                taken := s.decPorts.source.taken ++ [.byte c]
                answers := rest } } }
    (s.decPorts.source.answers = .byte 0x00 :: rest →
      exec .rsvLit0 s = .next (after 0x00) ∧ exec .decFetch s = .next (after 0x00)) ∧
      (s.decPorts.source.answers = .byte 0x80 :: rest →
        exec .rsvRep0 s = .next (after 0x80) ∧ exec .decFetch s = .next (after 0x80))

/-- R116: the whole effect of a Repeat record, and where its reads and writes can end it. -/
def Obligations.RepeatRecordEffect : Prop :=
  ∀ (s : State) (n : Len) (v : Byte), s.dec.phase = .fetch → n ≠ 0 →
    let c : Byte := 0x80 ||| n.setWidth 8
    let src := s.decPorts.source
    let after (d : Decoder) (src' : Source) (snk' : Sink) : State :=
      { s with dec := d, decPorts := { s.decPorts with source := src', sink := snk' } }
    (∀ rest, src.answers = .byte c :: .byte v :: rest →
      runTurns .decoder (n.toNat + 2) s = exec (.rep n v) s ∧
      (sinkReady n.toNat s.decPorts.sink →
        exec (.rep n v) s =
          .next (after { s.dec with phase := .fetch, ctl := c, val := v, cnt := 0 }
            { src with taken := src.taken ++ [.byte c, .byte v], answers := rest }
            (wrote s.decPorts.sink (List.replicate n.toNat v)))) ∧
        (∀ j, j < n.toNat → sinkFailsAt j s.decPorts.sink →
          exec (.rep n v) s =
            .next (after
              (decFaulted 2 1 { s.dec with ctl := c, val := v, cnt := n - BitVec.ofNat 7 j })
              { src with taken := src.taken ++ [.byte c, .byte v], answers := rest }
              (wroteThenFailed s.decPorts.sink (List.replicate n.toNat v) j)))) ∧
      (∀ rest, src.answers = .fail :: .byte c :: .byte v :: rest →
        exec (.rep n v) s =
          .next (after (decFaulted 2 0 s.dec) { src with answers := .byte c :: .byte v :: rest }
            s.decPorts.sink)) ∧
      (∀ rest, src.answers = .byte c :: .fail :: .byte v :: rest →
        exec (.rep n v) s =
          .next (after (decFaulted 2 0 { s.dec with ctl := c, cnt := n })
            { src with taken := src.taken ++ [.byte c], answers := .byte v :: rest }
            s.decPorts.sink)) ∧
      (src.answers = [.byte c] → src.tail = .ended →
        runTurns .decoder 2 s =
          .next (after (decFaulted 3 0 { s.dec with ctl := c, cnt := n })
            { src with taken := src.taken ++ [.byte c, .eoi], answers := [] }
            s.decPorts.sink))

/-- R117: the whole effect of a Literal record, and where its reads and writes can end it. -/
def Obligations.LiteralRecordEffect : Prop :=
  ∀ (s : State) (n : Len) (bs : List Byte), s.dec.phase = .fetch → n ≠ 0 → bs.length = n.toNat →
    let c : Byte := n.setWidth 8
    let src := s.decPorts.source
    let after (d : Decoder) (src' : Source) (snk' : Sink) : State :=
      { s with dec := d, decPorts := { s.decPorts with source := src', sink := snk' } }
    let took (k : Nat) : List Sym := .byte c :: (bs.take k).map .byte
    (∀ rest, src.answers = .byte c :: (bs.map .byte ++ rest) →
      runTurns .decoder (n.toNat + 1) s = exec (.lit n bs) s ∧
      (sinkReady n.toNat s.decPorts.sink →
        exec (.lit n bs) s =
          .next (after { s.dec with phase := .fetch, ctl := c, cnt := 0 }
            { src with taken := src.taken ++ took n.toNat, answers := rest }
            (wrote s.decPorts.sink bs))) ∧
        (∀ j, j < n.toNat → sinkFailsAt j s.decPorts.sink →
          exec (.lit n bs) s =
            .next (after (decFaulted 2 1 { s.dec with ctl := c, cnt := n - BitVec.ofNat 7 j })
              { src with
                taken := src.taken ++ took (j + 1)
                answers := (bs.drop (j + 1)).map .byte ++ rest }
              (wroteThenFailed s.decPorts.sink bs j)))) ∧
      (∀ rest, src.answers = .fail :: .byte c :: (bs.map .byte ++ rest) →
        exec (.lit n bs) s =
          .next (after (decFaulted 2 0 s.dec)
            { src with answers := .byte c :: (bs.map .byte ++ rest) } s.decPorts.sink)) ∧
      (∀ j rest, j < n.toNat → sinkReady j s.decPorts.sink →
        src.answers =
          .byte c :: ((bs.take j).map .byte ++ .fail :: ((bs.drop j).map .byte ++ rest)) →
        exec (.lit n bs) s =
          .next (after (decFaulted 2 0 { s.dec with ctl := c, cnt := n - BitVec.ofNat 7 j })
            { src with
              taken := src.taken ++ took j
              answers := (bs.drop j).map .byte ++ rest }
            (wrote s.decPorts.sink (bs.take j)))) ∧
      (∀ j, j < n.toNat → sinkReady j s.decPorts.sink →
        src.answers = .byte c :: (bs.take j).map .byte → src.tail = .ended →
        runTurns .decoder (j + 2) s =
          .next (after (decFaulted 3 1 { s.dec with ctl := c, cnt := n - BitVec.ofNat 7 j })
            { src with taken := src.taken ++ took j ++ [.eoi], answers := [] }
            (wrote s.decPorts.sink (bs.take j))))

/-- A record is the sequence of the decoder's own operations that R116, R117 and R118 name, whatever the
ports answer. -/
def Obligations.RecordIsItsOperations : Prop :=
  ∀ (s : State) (i : Instr), nextRecord s = some i →
    exec i s = runTurns .decoder (recordSteps i) s

/-- What the decoder's operations and the records leave alone. -/
def Obligations.DecoderInstructionsFrame : Prop :=
  ∀ (i : Instr) (s t : State), isDecoderInstr i = true → exec i s = .next t →
    t.enc = s.enc ∧ t.encPorts = s.encPorts ∧ t.agenda = s.agenda ∧ t.turn = s.turn ∧ t.free = s.free ∧
      t.decPorts.source.bound = s.decPorts.source.bound ∧
      t.decPorts.sink.bound = s.decPorts.sink.bound ∧
      t.decPorts.source.tail = s.decPorts.source.tail ∧ t.decPorts.sink.tail = s.decPorts.sink.tail ∧
      (i ≠ .decStart → t.decPorts.start = s.decPorts.start)

/-- Which registers and which port each operation of the decoder leaves alone, whether it completes, waits
or ends in a fault (R10's column "written by"; R111 to R115, R140). -/
def Obligations.DecoderRegistersFrame : Prop :=
  ∀ (i : Instr) (s t : State), isDecoderOp i = true → exec i s = .next t →
    (i ≠ .decFetch → t.dec.ctl = s.dec.ctl) ∧
      (i ≠ .decRepVal → t.dec.val = s.dec.val) ∧
      (i ∉ [Instr.decFetch, .decRepOut, .decLitCopy] → t.dec.cnt = s.dec.cnt) ∧
      (t.dec.phase ≠ .fault → t.dec.cause = s.dec.cause ∧ t.dec.subcause = s.dec.subcause) ∧
      (t.dec.phase = .fault → t.dec.cause ≠ 3 →
        t.dec.ctl = s.dec.ctl ∧ t.dec.cnt = s.dec.cnt ∧ t.dec.val = s.dec.val) ∧
      (i ∉ [Instr.decRepOut, .decLitCopy] → t.decPorts.sink = s.decPorts.sink) ∧
      (i ∉ [Instr.decFetch, .decRepVal, .decLitCopy] → t.decPorts.source = s.decPorts.source) ∧
      (i = .decRepOut → t.decPorts.sink.out = s.decPorts.sink.out ∨
        t.decPorts.sink.out = s.decPorts.sink.out ++ [s.dec.val]) ∧
      (i = .decLitCopy → t.decPorts.sink.out = s.decPorts.sink.out ∨
        ∃ b, nextSym s.decPorts.source = .byte b ∧
          t.decPorts.sink.out = s.decPorts.sink.out ++ [b])

/-- `E.len = 127` is outside R15 and `D.cnt = 0`, where it is decremented, outside R16; there the operations
that would wrap stop (the model's choice, log entry 7). -/
def Obligations.CountersOutOfRangeStop : Prop :=
  ∀ s : State,
    (s.enc.len = 127 →
      (encRepEndSelected s.enc = true → exec .encRepEnd s = .fault .lenOutOfRange) ∧
        (encRepContSelected s.enc = true → exec .encRepCont s = .fault .lenOutOfRange) ∧
        (encLitFlushSelected s.enc = true → exec .encLitFlush s = .fault .lenOutOfRange) ∧
        (encLitContSelected s.enc = true → exec .encLitCont s = .fault .lenOutOfRange)) ∧
      (s.dec.cnt = 0 →
        (s.dec.phase = .repw → exec .decRepOut s = .fault .cntUnderflow) ∧
          (s.dec.phase = .litc → exec .decLitCopy s = .fault .cntUnderflow))

/-! The host's commands. -/

/-- R160: RESET, in any phase of either block. -/
def Obligations.ResetReturnsToIdle : Prop :=
  ∀ s : State,
    (∃ t, exec (.reset .encoder) s = .next t ∧ t.enc.phase = .idle ∧ t.enc.cause = 0 ∧
      t.enc.subcause = 0 ∧ t.encPorts.source = s.encPorts.source ∧ t.encPorts.sink = s.encPorts.sink ∧
      t.dec = s.dec ∧ t.decPorts = s.decPorts ∧ t.agenda = s.agenda ∧ t.turn = s.turn) ∧
      ∃ t, exec (.reset .decoder) s = .next t ∧ t.dec.phase = .idle ∧ t.dec.cause = 0 ∧
        t.dec.subcause = 0 ∧ t.decPorts.source = s.decPorts.source ∧ t.decPorts.sink = s.decPorts.sink ∧
        t.enc = s.enc ∧ t.encPorts = s.encPorts ∧ t.agenda = s.agenda ∧ t.turn = s.turn

/-- R161: START is accepted only in IDLE, where it selects the start operation, and ignored elsewhere. -/
def Obligations.StartOnlyInIdle : Prop :=
  ∀ s : State,
    (s.enc.phase ≠ .idle → exec (.start .encoder) s = .next s) ∧
      (s.dec.phase ≠ .idle → exec (.start .decoder) s = .next s) ∧
      (s.enc.phase = .idle →
        exec (.start .encoder) s =
          exec .encStart { s with encPorts := { s.encPorts with start := true } }) ∧
      (s.dec.phase = .idle →
        exec (.start .decoder) s =
          exec .decStart { s with decPorts := { s.decPorts with start := true } }) ∧
      (s.enc.phase = .idle → s.encPorts.start = false → selectEncoder s = none) ∧
      (s.dec.phase = .idle → s.decPorts.start = false → selectDecoder s = none)

/-- START in IDLE with both ports bound and answering starts the invocation (R82, R112, R161; on an empty input
it ends at once in DONE, with `E.len = 0` by R164, log entry 12). -/
def Obligations.StartBeginsInvocation : Prop :=
  ∀ s : State,
    (s.enc.phase = .idle → s.encPorts.source.bound = true → s.encPorts.sink.bound = true →
      sourceReady 3 s.encPorts.source →
      ∃ t, exec (.start .encoder) s = .next t ∧
        (nextSym s.encPorts.source = .eoi → t.enc.phase = .done ∧ t.enc.len = 0) ∧
        (nextSym s.encPorts.source ≠ .eoi → t.enc.phase = .run ∧ t.enc.len = 0 ∧
          t.enc.cur = nextSym s.encPorts.source)) ∧
      (s.dec.phase = .idle → s.decPorts.source.bound = true → s.decPorts.sink.bound = true →
        ∃ t, exec (.start .decoder) s = .next t ∧ t.dec = { s.dec with phase := .fetch } ∧
          t.decPorts.source = s.decPorts.source ∧ t.decPorts.sink = s.decPorts.sink)

/-! Faults and waiting. -/

/-- R22: STATUS, with the codes that R18 and R20 give the phases. -/
def Obligations.StatusLayout : Prop :=
  (∀ e : Encoder,
    (e.phase = .idle → (encStatus e).extractLsb' 0 2 = 0) ∧
      (e.phase = .run → (encStatus e).extractLsb' 0 2 = 1) ∧
      (e.phase = .done → (encStatus e).extractLsb' 0 2 = 2) ∧
      (e.phase = .fault → (encStatus e).extractLsb' 0 2 = 3) ∧
      (encStatus e).extractLsb' 0 2 = encPhaseCode e.phase ∧ (encStatus e).extractLsb' 2 2 = e.cause ∧
      (encStatus e).extractLsb' 4 2 = e.subcause) ∧
    ∀ d : Decoder,
      (d.phase = .idle → (decStatus d).extractLsb' 0 3 = 0) ∧
        (d.phase = .fetch → (decStatus d).extractLsb' 0 3 = 1) ∧
        (d.phase = .repv → (decStatus d).extractLsb' 0 3 = 2) ∧
        (d.phase = .repw → (decStatus d).extractLsb' 0 3 = 3) ∧
        (d.phase = .litc → (decStatus d).extractLsb' 0 3 = 4) ∧
        (d.phase = .done → (decStatus d).extractLsb' 0 3 = 5) ∧
        (d.phase = .fault → (decStatus d).extractLsb' 0 3 = 6) ∧
        (decStatus d).extractLsb' 0 3 = decPhaseCode d.phase ∧ (decStatus d).extractLsb' 3 2 = d.cause ∧
        (decStatus d).extractLsb' 5 2 = d.subcause

/-- R143, R164: DONE and FAULT are absorbing: a block there performs no operation and no port action, and no
event but its `reset` changes a register of it. -/
def Obligations.DoneAndFaultAbsorb : Prop :=
  (∀ (s : State) (k : Nat),
    (s.enc.phase = .done ∨ s.enc.phase = .fault → runTurns .encoder k s = .next s) ∧
      (s.dec.phase = .done ∨ s.dec.phase = .fault → runTurns .decoder k s = .next s)) ∧
    ∀ s t : State, step s = .next t →
      (s.enc.phase = .done ∨ s.enc.phase = .fault → (∀ rest, s.agenda ≠ .reset .encoder :: rest) →
        t.enc = s.enc) ∧
        (s.dec.phase = .done ∨ s.dec.phase = .fault → (∀ rest, s.agenda ≠ .reset .decoder :: rest) →
          t.dec = s.dec)

/-- R138: the encoder's faults are InvalidArgument, which only ENC.START raises, and IOFailure. -/
def Obligations.EncoderNeverMalformed : Prop :=
  ∀ (i : Instr) (s t : State), isEncoderOp i = true → exec i s = .next t → t.enc.phase = .fault →
    (t.enc.cause = 1 ∧ i = .encStart ∧
      (s.encPorts.source.bound = false ∨ s.encPorts.sink.bound = false)) ∨ t.enc.cause = 2

/-- R47: a step whose next port action is not answered does not happen yet; as a step is indivisible (R6), the
actions answered before it have not happened either (log entry 3): a flush of `n` writes (R134) whose sink
accepts `j` of them and falls silent, or whose writes are answered and whose read is not, holds whole. -/
def Obligations.UnansweredPortHolds : Prop :=
  ∀ s : State,
    (s.enc.phase = .idle → s.encPorts.start = true → s.encPorts.source.bound = true →
      s.encPorts.sink.bound = true → s.encPorts.source.tail = .silent →
      (s.encPorts.source.answers = [] ∨ (∃ a, s.encPorts.source.answers = [.byte a]) ∨
        ∃ a b, s.encPorts.source.answers = [.byte a, .byte b]) →
      exec .encStart s = .next s) ∧
    (s.dec.phase = .litc → s.dec.cnt ≠ 0 → s.decPorts.sink.answers = [] →
      s.decPorts.sink.tail = .silent →
      (∃ b rest, s.decPorts.source.answers = .byte b :: rest) → exec .decLitCopy s = .next s) ∧
    (s.encPorts.source.answers = [] → s.encPorts.source.tail = .silent → s.enc.nn ≠ .eoi →
      (encRepContSelected s.enc = true → s.enc.len ≠ 127 → exec .encRepCont s = .next s) ∧
        (encLitContSelected s.enc = true → s.enc.len ≠ 127 → exec .encLitCont s = .next s)) ∧
      (∀ (i : Instr) (n : Nat),
        (i = .encRepEnd ∧ n = 2 ∧ encRepEndSelected s.enc = true ∧ s.enc.len ≠ 127 ∨
          i = .encRepCap ∧ n = 2 ∧ encRepCapSelected s.enc = true ∨
          i = .encLitFlush ∧ n = s.enc.len.toNat + 2 ∧ encLitFlushSelected s.enc = true ∧
            s.enc.len ≠ 127 ∨
          i = .encLitCap ∧ n = 128 ∧ encLitCapSelected s.enc = true) →
        (∀ j, j < n → s.encPorts.sink.answers = List.replicate j .accept →
          s.encPorts.sink.tail = .silent → exec i s = .next s) ∧
          (sinkReady n s.encPorts.sink → s.enc.nn ≠ .eoi → s.encPorts.source.answers = [] →
            s.encPorts.source.tail = .silent → exec i s = .next s)) ∧
      (s.decPorts.source.answers = [] → s.decPorts.source.tail = .silent →
        (s.dec.phase = .fetch → exec .decFetch s = .next s) ∧
          (s.dec.phase = .repv → exec .decRepVal s = .next s) ∧
          (s.dec.phase = .litc → s.dec.cnt ≠ 0 → exec .decLitCopy s = .next s)) ∧
      (s.decPorts.sink.answers = [] → s.decPorts.sink.tail = .silent → s.dec.phase = .repw →
        s.dec.cnt ≠ 0 → exec .decRepOut s = .next s)

/-! Invariants and whole-machine rules. -/

/-- The state after reset meets the invariant. -/
def Obligations.ResetMeetsInvariant : Prop := machineInv State.reset

/-- R30: what reset leaves, where the spec gives a value: in the state the machine begins in, and after the
command `reset`. -/
def Obligations.ResetValues : Prop :=
  (∀ s : State,
    (∃ t, exec (.reset .encoder) s = .next t ∧ t.enc.phase = .idle ∧ encStatus t.enc = 0) ∧
      ∃ t, exec (.reset .decoder) s = .next t ∧ t.dec.phase = .idle ∧ decStatus t.dec = 0) ∧
  State.reset.enc.phase = .idle ∧ State.reset.enc.cause = 0 ∧ State.reset.enc.subcause = 0 ∧
    State.reset.dec.phase = .idle ∧ State.reset.dec.cause = 0 ∧ State.reset.dec.subcause = 0 ∧
    encStatus State.reset.enc = 0 ∧ decStatus State.reset.dec = 0

/-- Every step keeps the invariant, from every state that meets it. -/
def Obligations.StepKeepsInvariant : Prop :=
  ∀ s t : State, machineInv s → step s = .next t → machineInv t

/-- From a state that meets the invariant a step never stops, but where the host binds a port of a block that
is running (log entry 6). -/
def Obligations.StepNeverStops : Prop :=
  ∀ s : State, machineInv s → nextRebindsInUse s = false → ∃ t, step s = .next t

/-- A port of a running block is not bound anew (the model's refusal, log entry 6); outside an invocation a
binding event sets `bound` and starts a new, empty stream, an unbinding event clears `bound` and nothing else
(R41, R131, R163); more answers go to a silent port behind those it has, and lift a hold (R47, log entry 3). -/
def Obligations.RebindInUseRefused : Prop :=
  (∀ s : State, nextRebindsInUse s = true → step s = .refused .portInUse) ∧
    (∀ (s : State) (b : Block) (rest : List Event),
      let at_ (p : Ports) : State := setPorts b p { s with agenda := rest }
      let p := portsOf b s
      (portsInUse b s = false →
        (∀ a tl, s.agenda = .bindSource b a tl :: rest →
          step s =
            .next (at_ { p with source := { bound := true, taken := [], answers := a, tail := tl } })) ∧
          (∀ a tl, s.agenda = .bindSink b a tl :: rest →
            step s =
              .next (at_ { p with sink := { bound := true, out := [], answers := a, tail := tl } })) ∧
          (s.agenda = .unbindSource b :: rest →
            step s = .next (at_ { p with source := { p.source with bound := false } })) ∧
          (s.agenda = .unbindSink b :: rest →
            step s = .next (at_ { p with sink := { p.sink with bound := false } }))) ∧
        (∀ a tl, s.agenda = .supply b a tl :: rest →
          (p.source.tail = .silent →
            step s =
              .next (at_ { p with
                source := { p.source with answers := p.source.answers ++ a, tail := tl } })) ∧
            (p.source.tail = .ended → step s = .next { s with agenda := rest })) ∧
        (∀ a tl, s.agenda = .acceptMore b a tl :: rest →
          (p.sink.tail = .silent →
            step s =
              .next (at_ { p with sink := { p.sink with answers := p.sink.answers ++ a, tail := tl } })) ∧
            (p.sink.tail = .accepting → step s = .next { s with agenda := rest }))) ∧
    (∀ (s : State) (c : Byte) (a : List SrcAnswer) (tl : SrcTail) (rest : List Event),
      s.dec.phase = .fetch → s.decPorts.source.answers = [] → s.decPorts.source.tail = .silent →
      s.agenda = .run .decoder :: .supply .decoder (.byte c :: a) tl :: .run .decoder :: rest →
      ∃ t u, step s = .next { s with agenda := s.agenda.tail } ∧
        step { s with agenda := s.agenda.tail } = .next t ∧ t.dec = s.dec ∧
        step t = .next u ∧ u.dec.ctl = c ∧
        u.decPorts.source.taken = s.decPorts.source.taken ++ [.byte c]) ∧
    ∀ (s : State) (a : List SnkAnswer) (tl : SnkTail) (rest : List Event),
      s.dec.phase = .repw → s.dec.cnt ≠ 0 → s.decPorts.sink.answers = [] →
      s.decPorts.sink.tail = .silent →
      s.agenda = .run .decoder :: .acceptMore .decoder (.accept :: a) tl :: .run .decoder :: rest →
      ∃ t u, step s = .next { s with agenda := s.agenda.tail } ∧
        step { s with agenda := s.agenda.tail } = .next t ∧ t.dec = s.dec ∧
        step t = .next u ∧ u.dec.cnt = s.dec.cnt - 1 ∧
        u.decPorts.sink.out = s.decPorts.sink.out ++ [s.dec.val]

/-- R41, R45: streams are append-only: the bytes a sink has accepted, and the symbols a source has handed
over, stay and are only added to, until the host binds a new stream. -/
def Obligations.StreamsOnlyGrow : Prop :=
  ∀ (s t : State) (b : Block), step s = .next t →
    ((∀ a tl rest, s.agenda ≠ .bindSink b a tl :: rest) →
      (portsOf b s).sink.out <+: (portsOf b t).sink.out) ∧
      ((∀ a tl rest, s.agenda ≠ .bindSource b a tl :: rest) →
        (portsOf b s).source.taken <+: (portsOf b t).source.taken)

/-- R2, R27: a turn of the encoder depends on the encoder and its ports alone, and a turn of the decoder on
the decoder and its ports alone. -/
def Obligations.BlocksAreIndependent : Prop :=
  (∀ s s' t : State, s'.enc = s.enc → s'.encPorts = s.encPorts → stepBlock .encoder s = .next t →
    ∃ t', stepBlock .encoder s' = .next t' ∧ t'.enc = t.enc ∧ t'.encPorts = t.encPorts ∧
      t'.dec = s'.dec ∧ t'.decPorts = s'.decPorts) ∧
    ∀ s s' t : State, s'.dec = s.dec → s'.decPorts = s.decPorts → stepBlock .decoder s = .next t →
      ∃ t', stepBlock .decoder s' = .next t' ∧ t'.dec = t.dec ∧ t'.decPorts = t.decPorts ∧
        t'.enc = s'.enc ∧ t'.encPorts = s'.encPorts

/-- R93: at the end of input nothing is pending: what is halted has an empty run, and the operations with
the marker next always flush. -/
def Obligations.EndOfInputDrains : Prop :=
  ∀ s : State, encInv s.enc → s.enc.phase = .run →
    (s.enc.cur = .eoi → s.enc.len = 0 ∧ selectEncoder s = some .encHalt) ∧
      (∀ v, s.enc.cur = .byte v → s.enc.next = .eoi →
        selectEncoder s = some .encRepEnd ∨ selectEncoder s = some .encLitFlush)

/-- R119: every operation of the decoder that happens consumes an answer of the source, or counts down, or
ends the invocation. -/
def Obligations.DecoderAlwaysProgresses : Prop :=
  ∀ s t : State, s.dec.phase ≠ .idle → s.dec.phase ≠ .done → s.dec.phase ≠ .fault →
    stepBlock .decoder s = .next t → t ≠ s → decWork t.dec t.decPorts < decWork s.dec s.decPorts

/-- R96: every operation of the encoder in phase RUN that happens uses up input. -/
def Obligations.EncoderAlwaysProgresses : Prop :=
  ∀ s t : State, encInv s.enc → s.enc.phase = .run → stepBlock .encoder s = .next t → t ≠ s →
    encWork t.enc t.encPorts < encWork s.enc s.encPorts

/-! The two machines against the list-level functions. -/

/-- R99: no operation of the encoder changes what its sink will hold at the end, and ENC.START begins with
`Encode` of what its source holds: the step machine computes `Encode`. -/
def Obligations.EncoderStepComputesEncode : Prop :=
  ∀ s t : State, encInv s.enc → s.encPorts.source.tail = .ended → stepBlock .encoder s = .next t →
    s.enc.phase ≠ .fault → t.enc.phase ≠ .fault →
    encFinal t.enc t.encPorts = encFinal s.enc s.encPorts

/-- R125: no operation of the decoder changes what its sink will hold at the end and how it ends: the step
machine computes `Decode`. -/
def Obligations.DecoderStepComputesDecode : Prop :=
  ∀ s t : State, decInv s.dec → s.decPorts.source.tail = .ended → stepBlock .decoder s = .next t →
    t.dec.cause ≠ 1 → t.dec.cause ≠ 2 →
    decFinal t.dec t.decPorts = decFinal s.dec s.decPorts

/-- R96, R99: a whole invocation of the encoder, from any state with an idle encoder and ports that do not
fail: DONE after one turn for each input byte and one more, `Encode` of the input in the sink, every input
byte and one end of input read. -/
def Obligations.EncoderInvocationEncodes : Prop :=
  ∀ (s : State) (input : List Byte), s.enc.phase = .idle → s.encPorts.source.bound = true →
    s.encPorts.sink.bound = true → sourceHolds input s.encPorts.source → sinkOpen s.encPorts.sink →
    ∃ t u, exec (.start .encoder) s = .next t ∧
      runTurns .encoder (if input = [] then 0 else input.length + 1) t = .next u ∧
      u.enc.phase = .done ∧ u.encPorts.sink.out = s.encPorts.sink.out ++ encodeList input ∧
      u.encPorts.source.taken = s.encPorts.source.taken ++ input.map .byte ++ [.eoi]

/-- R119, R125: a whole invocation of the decoder, from any state with an idle decoder and ports that do not
fail: it ends, with `Decode` of the stream in the sink, in DONE or in the MalformedStream fault `Decode`
names. -/
def Obligations.DecoderInvocationDecodes : Prop :=
  ∀ (s : State) (stream : List Byte), s.dec.phase = .idle → s.decPorts.source.bound = true →
    s.decPorts.sink.bound = true → sourceHolds stream s.decPorts.source → sinkOpen s.decPorts.sink →
    ∃ k t u, exec (.start .decoder) s = .next t ∧ runTurns .decoder k t = .next u ∧
      u.decPorts.sink.out = s.decPorts.sink.out ++ (decodeList stream).1 ∧
      ((decodeList stream).2 = .done → u.dec.phase = .done) ∧
      ∀ f, (decodeList stream).2 = .malformed f →
        u.dec.phase = .fault ∧ u.dec.cause = 3 ∧ u.dec.subcause = subcauseCode f

/-- R123: the round trip, of the list functions and of the decoder's machine; and the converse does not
hold. -/
def Obligations.RoundTrip : Prop :=
  (∀ input : List Byte, decodeList (encodeList input) = (input, .done)) ∧
    (∀ (s : State) (input : List Byte), s.dec.phase = .idle → s.decPorts.source.bound = true →
      s.decPorts.sink.bound = true → sourceHolds (encodeList input) s.decPorts.source →
      sinkOpen s.decPorts.sink →
      ∃ k t u, exec (.start .decoder) s = .next t ∧ runTurns .decoder k t = .next u ∧
        u.dec.phase = .done ∧ u.decPorts.sink.out = s.decPorts.sink.out ++ input) ∧
    ∃ stream : List Byte, (decodeList stream).2 = .done ∧ encodeList (decodeList stream).1 ≠ stream

/-- R71, R119: decoding ends in DONE exactly on the valid streams, with their content. -/
def Obligations.DoneExactlyOnValidStreams : Prop :=
  ∀ stream out : List Byte, decodeList stream = (out, .done) ↔
    ∃ rs : List Instr, (∀ r ∈ rs, isDataRecord r = true) ∧ stream = rs.flatMap encode ∧
      out = rs.flatMap recordContent

/-- R94: the outcomes the source states for whole inputs. -/
def Obligations.WholeInputOutcomes : Prop :=
  encodeList [] = [] ∧ (∀ v, encodeList [v] = [0x81, v]) ∧
    (∀ (count : Nat) (v : Byte), 1 ≤ count →
      encodeList (List.replicate count v) = runStream count v) ∧
    ∀ input : List Byte, 2 ≤ input.length → noAdjacentEqual input = true →
      encodeList input = rawStream input

/-- R95 (g): the output is at most twice as long as the input. -/
def Obligations.EncodedAtMostTwice : Prop :=
  ∀ input : List Byte, (encodeList input).length ≤ 2 * input.length
end

