-- ==== Sys2Proof/Laws/Decode.lean ====
section
/-! SUPPORT. The control byte's functions on every byte, and one equation of `decode` for each kind of control
byte (spec/30_encoding.md R65, R69), so that proofs about records do not unfold `decode`. -/

namespace Sys2Proof

/-! The control byte. -/

theorem ctlLen_eq_zero : ∀ c : Byte, ctlLen c = 0 ↔ c = 0x00 ∨ c = 0x80 := by decide +kernel

theorem ctlMode_eq_repeat : ∀ c : Byte, ctlMode c = .repeatMode ↔ c.getLsbD 7 = true := by decide +kernel

theorem ctlLen_toNat : ∀ c : Byte, (ctlLen c).toNat = (c &&& 0x7F).toNat := by decide +kernel

theorem packCtl_repeat (n : Len) : packCtl .repeatMode n = 0x80 ||| n.setWidth 8 := by
  revert n; decide +kernel

theorem packCtl_literal (n : Len) : packCtl .literalMode n = n.setWidth 8 := rfl

theorem packCtl_repeat_ne : ∀ n : Len, n ≠ 0 →
    packCtl .repeatMode n ≠ 0x00 ∧ packCtl .repeatMode n ≠ 0x80 := by decide +kernel

theorem packCtl_literal_ne : ∀ n : Len, n ≠ 0 →
    packCtl .literalMode n ≠ 0x00 ∧ packCtl .literalMode n ≠ 0x80 := by decide +kernel

/-! One equation of `decode` per kind of control byte. -/

theorem decode_lit0 (rest : List Byte) : decode (0x00 :: rest) = .ok (.rsvLit0, rest) := rfl

theorem decode_rep0 (rest : List Byte) : decode (0x80 :: rest) = .ok (.rsvRep0, rest) := rfl

theorem decode_repeat {c v : Byte} {rest : List Byte} (hl : ctlLen c ≠ 0)
    (hm : ctlMode c = .repeatMode) : decode (c :: v :: rest) = .ok (.rep (ctlLen c) v, rest) := by
  obtain ⟨h₀, h₁⟩ := not_or.mp (mt (ctlLen_eq_zero c).mpr hl)
  rw [decode, if_neg h₀, if_neg h₁, hm]

theorem decode_repeat_truncated {c : Byte} (hl : ctlLen c ≠ 0) (hm : ctlMode c = .repeatMode) :
    decode [c] = .error .truncatedRepeat := by
  obtain ⟨h₀, h₁⟩ := not_or.mp (mt (ctlLen_eq_zero c).mpr hl)
  rw [decode, if_neg h₀, if_neg h₁, hm]

theorem decode_literal {c : Byte} {rest : List Byte} (hl : ctlLen c ≠ 0)
    (hm : ctlMode c = .literalMode) (hr : (ctlLen c).toNat ≤ rest.length) :
    decode (c :: rest) =
      .ok (.lit (ctlLen c) (rest.take (ctlLen c).toNat), rest.drop (ctlLen c).toNat) := by
  obtain ⟨h₀, h₁⟩ := not_or.mp (mt (ctlLen_eq_zero c).mpr hl)
  simp only [decode, if_neg h₀, if_neg h₁, hm, if_pos hr]

theorem decode_literal_truncated {c : Byte} {rest : List Byte} (hl : ctlLen c ≠ 0)
    (hm : ctlMode c = .literalMode) (hr : rest.length < (ctlLen c).toNat) :
    decode (c :: rest) = .error .truncatedLiteral := by
  obtain ⟨h₀, h₁⟩ := not_or.mp (mt (ctlLen_eq_zero c).mpr hl)
  simp only [decode, if_neg h₀, if_neg h₁, hm, if_neg (Nat.not_le.mpr hr)]

/-- Everything `decode` can answer. -/
theorem decode_cases (c : Byte) (rest : List Byte) :
    (c = 0x00 ∧ decode (c :: rest) = .ok (.rsvLit0, rest)) ∨
    (c = 0x80 ∧ decode (c :: rest) = .ok (.rsvRep0, rest)) ∨
    (ctlLen c ≠ 0 ∧ ctlMode c = .repeatMode ∧
      ((rest = [] ∧ decode (c :: rest) = .error .truncatedRepeat) ∨
        ∃ v rest', rest = v :: rest' ∧ decode (c :: rest) = .ok (.rep (ctlLen c) v, rest'))) ∨
    (ctlLen c ≠ 0 ∧ ctlMode c = .literalMode ∧
      ((rest.length < (ctlLen c).toNat ∧ decode (c :: rest) = .error .truncatedLiteral) ∨
        ((ctlLen c).toNat ≤ rest.length ∧
          decode (c :: rest) =
            .ok (.lit (ctlLen c) (rest.take (ctlLen c).toNat), rest.drop (ctlLen c).toNat)))) := by
  by_cases hl : ctlLen c = 0
  · rcases (ctlLen_eq_zero c).mp hl with rfl | rfl
    · exact .inl ⟨rfl, rfl⟩
    · exact .inr (.inl ⟨rfl, rfl⟩)
  · cases hm : ctlMode c with
    | repeatMode =>
      refine .inr (.inr (.inl ⟨hl, rfl, ?_⟩))
      cases rest with
      | nil => exact .inl ⟨rfl, decode_repeat_truncated hl hm⟩
      | cons v r => exact .inr ⟨v, r, rfl, decode_repeat hl hm⟩
    | literalMode =>
      refine .inr (.inr (.inr ⟨hl, rfl, ?_⟩))
      rcases Nat.lt_or_ge rest.length (ctlLen c).toNat with h | h
      · exact .inl ⟨h, decode_literal_truncated hl hm h⟩
      · exact .inr ⟨h, decode_literal hl hm h⟩

end Sys2Proof
end

