-- ==== Sys2Proof/Laws/State.lean ====
section
/-! SUPPORT. One lemma per field per update of the state, the ports and the blocks, so that no later proof
unfolds a record update. -/

namespace Sys2Proof.Machine

variable (s : State) (e : Encoder) (d : Decoder) (p : Ports) (k : FaultKind)

/-! Writing the encoder back. -/

@[simp] theorem putEncoder_none : putEncoder s none = s := rfl
@[simp] theorem putEncoder_enc : (putEncoder s (some (e, p))).enc = e := rfl
@[simp] theorem putEncoder_encPorts : (putEncoder s (some (e, p))).encPorts = p := rfl
@[simp] theorem putEncoder_dec (r : Option (Encoder × Ports)) : (putEncoder s r).dec = s.dec := by
  cases r <;> rfl
@[simp] theorem putEncoder_decPorts (r : Option (Encoder × Ports)) :
    (putEncoder s r).decPorts = s.decPorts := by cases r <;> rfl
@[simp] theorem putEncoder_agenda (r : Option (Encoder × Ports)) :
    (putEncoder s r).agenda = s.agenda := by cases r <;> rfl
@[simp] theorem putEncoder_turn (r : Option (Encoder × Ports)) : (putEncoder s r).turn = s.turn := by
  cases r <;> rfl
@[simp] theorem putEncoder_free (r : Option (Encoder × Ports)) : (putEncoder s r).free = s.free := by
  cases r <;> rfl

/-! Writing the decoder back. -/

@[simp] theorem putDecoder_none : putDecoder s none = s := rfl
@[simp] theorem putDecoder_dec : (putDecoder s (some (d, p))).dec = d := rfl
@[simp] theorem putDecoder_decPorts : (putDecoder s (some (d, p))).decPorts = p := rfl
@[simp] theorem putDecoder_enc (r : Option (Decoder × Ports)) : (putDecoder s r).enc = s.enc := by
  cases r <;> rfl
@[simp] theorem putDecoder_encPorts (r : Option (Decoder × Ports)) :
    (putDecoder s r).encPorts = s.encPorts := by cases r <;> rfl
@[simp] theorem putDecoder_agenda (r : Option (Decoder × Ports)) :
    (putDecoder s r).agenda = s.agenda := by cases r <;> rfl
@[simp] theorem putDecoder_turn (r : Option (Decoder × Ports)) : (putDecoder s r).turn = s.turn := by
  cases r <;> rfl
@[simp] theorem putDecoder_free (r : Option (Decoder × Ports)) : (putDecoder s r).free = s.free := by
  cases r <;> rfl

/-! Fault entry. -/

@[simp] theorem encRaise_phase : (encRaise k e).phase = .fault := rfl
@[simp] theorem encRaise_cause : (encRaise k e).cause = causeCode k := rfl
@[simp] theorem encRaise_subcause : (encRaise k e).subcause = subcauseCode k := rfl
@[simp] theorem encRaise_mode : (encRaise k e).mode = e.mode := rfl
@[simp] theorem encRaise_cur : (encRaise k e).cur = e.cur := rfl
@[simp] theorem encRaise_next : (encRaise k e).next = e.next := rfl
@[simp] theorem encRaise_nn : (encRaise k e).nn = e.nn := rfl
@[simp] theorem encRaise_len : (encRaise k e).len = e.len := rfl
@[simp] theorem encRaise_lbuf : (encRaise k e).lbuf = e.lbuf := rfl

@[simp] theorem decRaise_phase : (decRaise k d).phase = .fault := rfl
@[simp] theorem decRaise_cause : (decRaise k d).cause = causeCode k := rfl
@[simp] theorem decRaise_subcause : (decRaise k d).subcause = subcauseCode k := rfl
@[simp] theorem decRaise_ctl : (decRaise k d).ctl = d.ctl := rfl
@[simp] theorem decRaise_cnt : (decRaise k d).cnt = d.cnt := rfl
@[simp] theorem decRaise_val : (decRaise k d).val = d.val := rfl

/-! The literal buffer's write. -/

@[simp] theorem appendLiteral_phase : (appendLiteral e).phase = e.phase := rfl
@[simp] theorem appendLiteral_mode : (appendLiteral e).mode = e.mode := rfl
@[simp] theorem appendLiteral_cur : (appendLiteral e).cur = e.cur := rfl
@[simp] theorem appendLiteral_next : (appendLiteral e).next = e.next := rfl
@[simp] theorem appendLiteral_nn : (appendLiteral e).nn = e.nn := rfl
@[simp] theorem appendLiteral_len : (appendLiteral e).len = e.len := rfl
@[simp] theorem appendLiteral_cause : (appendLiteral e).cause = e.cause := rfl
@[simp] theorem appendLiteral_subcause : (appendLiteral e).subcause = e.subcause := rfl

/-! Counting down. -/

@[simp] theorem decCountDown_cnt : (decCountDown d).cnt = d.cnt - 1 := rfl
@[simp] theorem decCountDown_ctl : (decCountDown d).ctl = d.ctl := rfl
@[simp] theorem decCountDown_val : (decCountDown d).val = d.val := rfl
@[simp] theorem decCountDown_cause : (decCountDown d).cause = d.cause := rfl
@[simp] theorem decCountDown_subcause : (decCountDown d).subcause = d.subcause := rfl

/-! The start command. -/

@[simp] theorem startTaken_start : (startTaken p).start = false := rfl
@[simp] theorem startTaken_source : (startTaken p).source = p.source := rfl
@[simp] theorem startTaken_sink : (startTaken p).sink = p.sink := rfl
@[simp] theorem startIssued_start : (startIssued p).start = true := rfl
@[simp] theorem startIssued_source : (startIssued p).source = p.source := rfl
@[simp] theorem startIssued_sink : (startIssued p).sink = p.sink := rfl

/-! Replacing the ports of a block. -/

@[simp] theorem portsOf_setPorts (b : Block) : portsOf b (setPorts b p s) = p := by cases b <;> rfl
@[simp] theorem portsOf_setPorts_other (b : Block) :
    portsOf (otherBlock b) (setPorts b p s) = portsOf (otherBlock b) s := by cases b <;> rfl
@[simp] theorem setPorts_enc (b : Block) : (setPorts b p s).enc = s.enc := by cases b <;> rfl
@[simp] theorem setPorts_dec (b : Block) : (setPorts b p s).dec = s.dec := by cases b <;> rfl
@[simp] theorem setPorts_agenda (b : Block) : (setPorts b p s).agenda = s.agenda := by cases b <;> rfl
@[simp] theorem setPorts_turn (b : Block) : (setPorts b p s).turn = s.turn := by cases b <;> rfl
@[simp] theorem setPorts_free (b : Block) : (setPorts b p s).free = s.free := by cases b <;> rfl

/-! Symbols: equality of the inductive type is equality of the nine bits (R12). -/

theorem symBits_inj (x y : Sym) : symBits x = symBits y ↔ x = y := by
  have marker : ∀ a : Byte, symBits (.byte a) ≠ symBits .eoi := by decide +kernel
  have data : ∀ a : Byte, (symBits (.byte a)).setWidth 8 = a := by decide +kernel
  refine ⟨fun h => ?_, fun h => by rw [h]⟩
  cases x with
  | byte a =>
    cases y with
    | byte b => rw [← data a, h, data b]
    | eoi => exact absurd h (marker a)
  | eoi =>
    cases y with
    | byte b => exact absurd h.symm (marker b)
    | eoi => rfl

end Sys2Proof.Machine
end

