-- ==== Sys2Proof/Laws/Ops.lean ====
section
/-! SUPPORT. What each shared operation can do, said once: the port actions, the sequencing of actions, the
shift, the end of a step. Proofs about instructions cite these and unfold none of the operations. -/

namespace Sys2Proof.Machine

/-! The end of a step. -/

@[simp] theorem whenSelected_next {a f : Bool} {r : Fault} {t u : State} :
    whenSelected a f r t = .next u ↔ a = true ∧ f = true ∧ t = u := by
  cases a <;> cases f <;> simp [whenSelected]

@[simp] theorem finish_done {β : Type} (raise : FaultKind → β → β) (z b : β) (p : Ports) :
    finish raise z (.done b p) = some (b, p) := rfl

@[simp] theorem finish_raised {β : Type} (raise : FaultKind → β → β) (z : β) (k : FaultKind) (p : Ports) :
    finish raise z (.raised k p) = some (raise k z, p) := rfl

@[simp] theorem finish_pending {β : Type} (raise : FaultKind → β → β) (z : β) :
    finish raise z .pending = none := rfl

/-! Sequencing. -/

@[simp] theorem andThen_done {α β : Type} (a : α) (p : Ports) (f : α → Ports → Act β) :
    (Act.done a p).andThen f = f a p := rfl

@[simp] theorem andThen_raised {α β : Type} (k : FaultKind) (p : Ports) (f : α → Ports → Act β) :
    (Act.raised k p : Act α).andThen f = .raised k p := rfl

@[simp] theorem andThen_pending {α β : Type} (f : α → Ports → Act β) :
    (Act.pending : Act α).andThen f = .pending := rfl

@[simp] theorem thenWrite_done {β : Type} (f : β → β) (b : β) (p : Ports) :
    thenWrite f (.done b p) = .done (f b) p := rfl

@[simp] theorem thenWrite_raised {β : Type} (f : β → β) (k : FaultKind) (p : Ports) :
    thenWrite f (.raised k p) = .raised k p := rfl

@[simp] theorem thenWrite_pending {β : Type} (f : β → β) : thenWrite f (.pending : Act β) = .pending := rfl

/-! Reading. -/

/-- Everything a read can do. -/
theorem srcRead_cases (p : Ports) :
    (∃ b rest, p.source.answers = .byte b :: rest ∧
      srcRead p = .done (.byte b)
        { p with source := { p.source with taken := p.source.taken ++ [.byte b], answers := rest } }) ∨
    (∃ rest, p.source.answers = .fail :: rest ∧
      srcRead p = .raised .sourceRead { p with source := { p.source with answers := rest } }) ∨
    (p.source.answers = [] ∧ p.source.tail = .ended ∧
      srcRead p =
        .done .eoi { p with source := { p.source with taken := p.source.taken ++ [.eoi] } }) ∨
    (p.source.answers = [] ∧ p.source.tail = .silent ∧ srcRead p = .pending) := by
  cases h : p.source.answers with
  | nil => cases ht : p.source.tail <;> simp [srcRead, h, ht]
  | cons a rest => cases a <;> simp [srcRead, h]

/-- A source that is ready answers a read with its next symbol. -/
theorem srcRead_ready {p : Ports} (h : sourceReady 1 p.source) :
    srcRead p =
      .done (nextSym p.source) { p with source := readOnce p.source (nextSym p.source) } := by
  obtain ⟨h₁, h₂⟩ := h
  cases ha : p.source.answers with
  | nil =>
    have ht : p.source.tail = .ended := by simpa [ha] using h₂
    simp [srcRead, nextSym, readOnce, ha, ht]
  | cons a rest =>
    cases a with
    | byte b => simp [srcRead, nextSym, readOnce, ha]
    | fail => simp [ha] at h₁

@[simp] theorem srcReadAfter_eoi (p : Ports) : srcReadAfter .eoi p = .done .eoi p := rfl

@[simp] theorem srcReadAfter_byte (b : Byte) (p : Ports) : srcReadAfter (.byte b) p = srcRead p := rfl

theorem srcReadAfter_of_ne {x : Sym} (h : x ≠ .eoi) (p : Ports) : srcReadAfter x p = srcRead p := by
  cases x with
  | byte b => rfl
  | eoi => exact absurd rfl h

/-- A read changes the source alone. -/
theorem srcRead_done_frame {p p' : Ports} {x : Sym} (h : srcRead p = .done x p') :
    p'.sink = p.sink ∧ p'.start = p.start ∧ p'.source.bound = p.source.bound ∧
      p'.source.taken = p.source.taken ++ [x] := by
  obtain ⟨b, r, -, e⟩ | ⟨r, -, e⟩ | ⟨-, -, e⟩ | ⟨-, -, e⟩ := srcRead_cases p <;>
    rw [e] at h <;> cases h <;> simp

/-- A failed read raises IOFailure(SourceRead), hands nothing over and changes nothing else. -/
theorem srcRead_raised_frame {p p' : Ports} {k : FaultKind} (h : srcRead p = .raised k p') :
    k = .sourceRead ∧ p'.sink = p.sink ∧ p'.start = p.start ∧ p'.source.bound = p.source.bound ∧
      p'.source.taken = p.source.taken := by
  obtain ⟨b, r, -, e⟩ | ⟨r, -, e⟩ | ⟨-, -, e⟩ | ⟨-, -, e⟩ := srcRead_cases p <;>
    rw [e] at h <;> cases h
  simp

/-! Writing. -/

/-- Everything a write can do. -/
theorem snkWrite_cases (b : Byte) (p : Ports) :
    (∃ rest, snkWrite b p =
      .done () { p with sink := { p.sink with out := p.sink.out ++ [b], answers := rest } } ∧
      rest = p.sink.answers.tail ∧ (p.sink.answers.head? = some .accept ∨
        (p.sink.answers = [] ∧ p.sink.tail = .accepting))) ∨
    (∃ rest, p.sink.answers = .fail :: rest ∧
      snkWrite b p = .raised .sinkWrite { p with sink := { p.sink with answers := rest } }) ∨
    (p.sink.answers = [] ∧ p.sink.tail = .silent ∧ snkWrite b p = .pending) := by
  cases h : p.sink.answers with
  | nil => cases ht : p.sink.tail <;> simp [snkWrite, h, ht]
  | cons a rest => cases a <;> simp [snkWrite, h]

theorem snkWrite_ready {b : Byte} {p : Ports} (h : sinkReady 1 p.sink) :
    snkWrite b p = .done () { p with sink := wrote p.sink [b] } := by
  obtain ⟨h₁, h₂⟩ := h
  cases ha : p.sink.answers with
  | nil =>
    have ht : p.sink.tail = .accepting := by simpa [ha] using h₂
    simp [snkWrite, wrote, ha, ht]
  | cons a rest =>
    cases a with
    | accept => simp [snkWrite, wrote, ha]
    | fail => simp [ha] at h₁

theorem sinkReady_one {k : Nat} {s : Sink} (h : sinkReady (k + 1) s) : sinkReady 1 s := by
  obtain ⟨h₁, h₂⟩ := h
  constructor
  · cases ha : s.answers with
    | nil => simp
    | cons a r => simp only [ha, List.take_succ_cons, List.mem_cons, not_or] at h₁ ⊢; simp [h₁.1]
  · rcases h₂ with h | h
    · left; omega
    · exact .inr h

theorem sinkReady_wrote {k : Nat} {s : Sink} {b : Byte} (h : sinkReady (k + 1) s) :
    sinkReady k (wrote s [b]) := by
  obtain ⟨h₁, h₂⟩ := h
  constructor
  · cases ha : s.answers with
    | nil => simp [wrote, ha]
    | cons a r => simp only [ha, List.take_succ_cons, List.mem_cons, not_or] at h₁; simpa [wrote, ha] using h₁.2
  · rcases h₂ with h | h
    · left; simp [wrote]; omega
    · exact .inr h

/-- A sink that is ready accepts all the bytes. -/
theorem snkWriteMany_ready {bs : List Byte} {p : Ports} (h : sinkReady bs.length p.sink) :
    snkWriteMany bs p = .done () { p with sink := wrote p.sink bs } := by
  induction bs generalizing p with
  | nil => simp [snkWriteMany, wrote]
  | cons b bs ih =>
    rw [snkWriteMany, snkWrite_ready (sinkReady_one h), andThen_done, ih (sinkReady_wrote h)]
    simp [wrote]

/-- A sink that accepts `j` writes and fails the next one keeps the first `j` bytes (R46). -/
theorem snkWriteMany_failsAt {bs : List Byte} {j : Nat} {p : Ports} (hj : j < bs.length)
    (h : sinkFailsAt j p.sink) :
    snkWriteMany bs p = .raised .sinkWrite { p with sink := wroteThenFailed p.sink bs j } := by
  induction bs generalizing p j with
  | nil => simp at hj
  | cons b bs ih =>
    obtain ⟨h₁, h₂⟩ := h
    cases ha : p.sink.answers with
    | nil => simp [ha] at h₂
    | cons a r =>
      cases j with
      | zero =>
        have : a = .fail := by simpa [ha] using h₂
        simp [snkWriteMany, snkWrite, wroteThenFailed, ha, this]
      | succ j =>
        have hacc : a = .accept := by
          cases a with
          | accept => rfl
          | fail => simp [ha] at h₁
        subst hacc
        rw [snkWriteMany, snkWrite, ha]
        simp only [andThen_done]
        rw [ih (by simpa using hj)]
        · simp [wroteThenFailed, ha]
        · constructor
          · simp only [ha, List.take_succ_cons, List.mem_cons, not_or] at h₁; exact h₁.2
          · simpa [ha] using h₂

/-- A sink that accepts `j` of the writes and is then silent leaves them all unanswered (R47). -/
theorem snkWriteMany_silent {bs : List Byte} {j : Nat} {p : Ports} (hj : j < bs.length)
    (ha : p.sink.answers = List.replicate j .accept) (ht : p.sink.tail = .silent) :
    snkWriteMany bs p = .pending := by
  induction bs generalizing p j with
  | nil => simp at hj
  | cons b bs ih =>
    cases j with
    | zero => simp [snkWriteMany, snkWrite, Act.andThen, ha, ht]
    | succ j =>
      rw [snkWriteMany, snkWrite, ha, List.replicate_succ]
      simp only [andThen_done]
      exact ih (by simpa using hj) rfl ht

/-- Whatever writes do, they change only the sink, at its end. -/
theorem snkWriteMany_done_frame {bs : List Byte} {p p' : Ports} (h : snkWriteMany bs p = .done () p') :
    p'.source = p.source ∧ p'.start = p.start ∧ p'.sink.bound = p.sink.bound ∧
      p'.sink.out = p.sink.out ++ bs := by
  induction bs generalizing p with
  | nil => cases h; simp
  | cons b bs ih =>
    rw [snkWriteMany] at h
    obtain ⟨r, e, -, -⟩ | ⟨r, -, e⟩ | ⟨-, -, e⟩ := snkWrite_cases b p <;> rw [e] at h
    · have := ih h; simpa using this
    · cases h
    · cases h

/-- Writes that fail raise IOFailure(SinkWrite), and exactly the bytes before the failing one stay. -/
theorem snkWriteMany_raised_frame {bs : List Byte} {p p' : Ports} {k : FaultKind}
    (h : snkWriteMany bs p = .raised k p') :
    k = .sinkWrite ∧ p'.source = p.source ∧ p'.start = p.start ∧ p'.sink.bound = p.sink.bound ∧
      ∃ j, j < bs.length ∧ p'.sink.out = p.sink.out ++ bs.take j := by
  induction bs generalizing p with
  | nil => cases h
  | cons b bs ih =>
    rw [snkWriteMany] at h
    obtain ⟨r, e, -, -⟩ | ⟨r, -, e⟩ | ⟨-, -, e⟩ := snkWrite_cases b p <;> rw [e] at h
    · obtain ⟨hk, h₁, h₂, h₃, j, hj, h₄⟩ := ih h
      refine ⟨hk, h₁, h₂, h₃, j + 1, by simpa using hj, ?_⟩
      simp [h₄]
    · cases h; exact ⟨rfl, rfl, rfl, rfl, 0, by simp, by simp⟩
    · cases h

/-! The shift. -/

/-- The window after a shift in which the source answered (R83). -/
theorem shift_ready {e : Encoder} {p : Ports} (h : e.nn = .eoi ∨ sourceReady 1 p.source) :
    shift e p =
      .done { e with cur := e.next, next := e.nn, nn := if e.nn = .eoi then .eoi else nextSym p.source }
        { p with source := if e.nn = .eoi then p.source else readOnce p.source (nextSym p.source) } := by
  by_cases hn : e.nn = .eoi
  · simp [shift, hn]
  · have h' := h.resolve_left hn
    simp [shift, srcReadAfter_of_ne hn, srcRead_ready h', hn]

/-- A shift that reads from a silent source is not answered (R47). -/
theorem shift_silent {e : Encoder} {p : Ports} (hn : e.nn ≠ .eoi) (ha : p.source.answers = [])
    (ht : p.source.tail = .silent) : shift e p = .pending := by
  simp [shift, srcReadAfter_of_ne hn, srcRead, Act.andThen, ha, ht]

/-- A shift writes the window alone, and reads only before the marker has been received. -/
theorem shift_done {e e' : Encoder} {p p' : Ports} (h : shift e p = .done e' p') :
    (∃ x, e' = { e with cur := e.next, next := e.nn, nn := x } ∧ (e.nn = .eoi → x = .eoi ∧ p' = p) ∧
      (e.nn ≠ .eoi → srcRead p = .done x p')) := by
  cases hn : e.nn with
  | eoi => simp [shift, hn] at h; exact ⟨.eoi, by simp [← h.1], by simp [h.2], by simp⟩
  | byte b =>
    rw [shift, hn, srcReadAfter_byte] at h
    obtain ⟨c, r, -, hr⟩ | ⟨r, -, hr⟩ | ⟨-, -, hr⟩ | ⟨-, -, hr⟩ := srcRead_cases p <;>
      rw [hr] at h <;> cases h <;> exact ⟨_, rfl, by simp, fun _ => hr⟩

theorem shift_raised {e : Encoder} {p p' : Ports} {k : FaultKind} (h : shift e p = .raised k p') :
    e.nn ≠ .eoi ∧ srcRead p = .raised k p' := by
  cases hn : e.nn with
  | eoi => simp [shift, hn] at h
  | byte b =>
    rw [shift, hn, srcReadAfter_byte] at h
    obtain ⟨c, r, -, hr⟩ | ⟨r, -, hr⟩ | ⟨-, -, hr⟩ | ⟨-, -, hr⟩ := srcRead_cases p <;>
      rw [hr] at h <;> cases h
    exact ⟨by simp, hr⟩

/-- A record written whole, then the shift; or the end of the step at the action that failed. -/
theorem emitThenShift_done {bs : List Byte} {e e' : Encoder} {p p' : Ports}
    (h : emitThenShift bs e p = .done e' p') :
    ∃ p₁, snkWriteMany bs p = .done () p₁ ∧ shift e p₁ = .done e' p' := by
  unfold emitThenShift at h
  cases hw : snkWriteMany bs p with
  | done a p₁ => rw [hw] at h; exact ⟨p₁, rfl, h⟩
  | raised k p₁ => rw [hw] at h; cases h
  | pending => rw [hw] at h; cases h

theorem emitThenShift_raised {bs : List Byte} {e : Encoder} {p p' : Ports} {k : FaultKind}
    (h : emitThenShift bs e p = .raised k p') :
    snkWriteMany bs p = .raised k p' ∨
      ∃ p₁, snkWriteMany bs p = .done () p₁ ∧ shift e p₁ = .raised k p' := by
  unfold emitThenShift at h
  cases hw : snkWriteMany bs p with
  | done a p₁ => rw [hw] at h; exact .inr ⟨p₁, rfl, h⟩
  | raised k p₁ => rw [hw] at h; cases h; exact .inl rfl
  | pending => rw [hw] at h; cases h

/-- How a step ends. -/
theorem finish_thenWrite_cases {β : Type} {raise : FaultKind → β → β} {z : β} {f : β → β} {x : Act β}
    {b : β} {p : Ports} (h : finish raise z (thenWrite f x) = some (b, p)) :
    (∃ b₀, x = .done b₀ p ∧ b = f b₀) ∨ (∃ k, x = .raised k p ∧ b = raise k z) := by
  cases x with
  | done b₀ p₀ =>
    simp only [thenWrite_done, finish_done, Option.some.injEq, Prod.mk.injEq] at h
    exact .inl ⟨b₀, by rw [h.2], h.1.symm⟩
  | raised k p₀ =>
    simp only [thenWrite_raised, finish_raised, Option.some.injEq, Prod.mk.injEq] at h
    exact .inr ⟨k, by rw [h.2], h.1.symm⟩
  | pending => simp at h

end Sys2Proof.Machine
end

