-- ==== Sys2Proof/Laws/Selection.lean ====
section
/-! SUPPORT. The selector vector against the operations' own lines "Selected when" (spec/40_encoder.md R80): the
two ways in which the model says which operation a state selects agree. -/

namespace Sys2Proof.Machine

/-- The vector's row for each combination of the five conditions (R80). -/
theorem decodeSelector_bits : ∀ (e : Bool) (m : Mode) (x y z : Bool),
    decodeSelector
        (BitVec.ofBool e ++ modeCode m ++ BitVec.ofBool x ++ BitVec.ofBool y ++ BitVec.ofBool z) =
      some
        (if e then .encHalt
        else
          match m with
          | .repeatMode => if x then .encRepEnd else if z then .encRepCap else .encRepCont
          | .literalMode => if y then .encLitFlush else if z then .encLitCap else .encLitCont) := by
  intro e m x y z
  cases e <;> cases m <;> cases x <;> cases y <;> cases z <;> decide

/-- In phase RUN the encoder's operation, read off the five conditions (R80). -/
theorem selectEncoder_run {s : State} (h : s.enc.phase = .run) :
    selectEncoder s =
      some
        (if symEoi s.enc.cur then .encHalt
        else
          match s.enc.mode with
          | .repeatMode =>
            if ne s.enc then .encRepEnd else if cap s.enc then .encRepCap else .encRepCont
          | .literalMode =>
            if q s.enc then .encLitFlush else if cap s.enc then .encLitCap else .encLitCont) := by
  simp only [selectEncoder, h, sel]
  exact decodeSelector_bits _ _ _ _ _

/-- What the encoder selects meets the operation's own line "Selected when". -/
theorem selectEncoder_selected {s : State} {i : Instr} (h : selectEncoder s = some i) :
    (i = .encStart ∧ encStartSelected s.enc s.encPorts = true) ∨
    (i = .encHalt ∧ encHaltSelected s.enc = true) ∨
    (i = .encRepEnd ∧ encRepEndSelected s.enc = true) ∨
    (i = .encRepCap ∧ encRepCapSelected s.enc = true) ∨
    (i = .encRepCont ∧ encRepContSelected s.enc = true) ∨
    (i = .encLitFlush ∧ encLitFlushSelected s.enc = true) ∨
    (i = .encLitCap ∧ encLitCapSelected s.enc = true) ∨
    (i = .encLitCont ∧ encLitContSelected s.enc = true) := by
  cases hp : s.enc.phase with
  | idle =>
    simp only [selectEncoder, hp] at h
    split at h
    · cases h; exact .inl ⟨rfl, by simp_all [encStartSelected]⟩
    · cases h
  | run =>
    rw [selectEncoder_run hp] at h
    cases hm : s.enc.mode <;> cases he : symEoi s.enc.cur <;> cases hn : ne s.enc <;>
      cases hq : q s.enc <;> cases hc : cap s.enc <;>
      simp [hm, he, hn, hq, hc] at h <;> subst h <;>
      simp [encHaltSelected, encRepEndSelected, encRepCapSelected, encRepContSelected,
        encLitFlushSelected, encLitCapSelected, encLitContSelected, classifying, hp, hm, he, hn, hq, hc]
  | done => simp [selectEncoder, hp] at h
  | fault => simp [selectEncoder, hp] at h

/-- The decoder's operation in each phase (R110). -/
theorem selectDecoder_phase (s : State) :
    selectDecoder s =
      match s.dec.phase with
      | .idle => if s.decPorts.start then some .decStart else none
      | .fetch => some .decFetch
      | .repv => some .decRepVal
      | .repw => some .decRepOut
      | .litc => some .decLitCopy
      | .done | .fault => none := by
  have hs : decodePhase (decPhaseCode .idle) = some .decStart := by decide
  cases hp : s.dec.phase <;> simp only [selectDecoder, hp, hs] <;> rfl

end Sys2Proof.Machine
end

