-- ==== Sys2Proof/Laws/Decoder.lean ====
section
/-! SUPPORT. What each operation of the decoder can do, one lemma an operation (spec/41_decoder.md R111 to R115),
and a record as a run of them (R116 to R118). -/

namespace Sys2Proof.Machine

/-- DEC.START: either binding missing, or phase FETCH (R112). -/
theorem exec_decStart_cases {s t : State} (hx : exec .decStart s = .next t) :
    s.dec.phase = .idle ∧ s.decPorts.start = true ∧
    ((∃ k, (k = .sourceAbsent ∧ s.decPorts.source.bound = false ∨
        k = .sinkAbsent ∧ s.decPorts.sink.bound = false) ∧
      t = { s with dec := decRaise k s.dec, decPorts := startTaken s.decPorts }) ∨
    (s.decPorts.source.bound = true ∧ s.decPorts.sink.bound = true ∧
      t = { s with dec := { s.dec with phase := .fetch }, decPorts := startTaken s.decPorts })) := by
  change execDecStart s = _ at hx
  rw [execDecStart, whenSelected_next] at hx
  obtain ⟨h₁, -, rfl⟩ := hx
  simp only [decStartSelected, Bool.and_eq_true, beq_iff_eq] at h₁
  refine ⟨h₁.1, h₁.2, ?_⟩
  simp only [decStartOp, decStartAct]
  split
  · exact .inl ⟨.sourceAbsent, .inl ⟨rfl, ‹_›⟩, rfl⟩
  rename_i hs
  split
  · exact .inl ⟨.sinkAbsent, .inr ⟨rfl, ‹_›⟩, rfl⟩
  rename_i hk
  exact .inr ⟨by simpa using hs, by simpa using hk, rfl⟩

/-- DEC.FETCH on the registers: it waits, meets a control byte, meets the end, or its read fails (R111). -/
theorem decFetchOp_cases (d : Decoder) (p : Ports) :
    decFetchOp d p = none ∨
    (∃ c p', srcRead p = .done (.byte c) p' ∧ decFetchOp d p = some (decTakeControl d c, p')) ∨
    (∃ p', srcRead p = .done .eoi p' ∧ decFetchOp d p = some ({ d with phase := .done }, p')) ∨
    (∃ p', srcRead p = .raised .sourceRead p' ∧ decFetchOp d p = some (decRaise .sourceRead d, p')) := by
  unfold decFetchOp decFetchAct
  obtain ⟨b, r, -, e⟩ | ⟨r, -, e⟩ | ⟨-, -, e⟩ | ⟨-, -, e⟩ := srcRead_cases p <;> rw [e]
  · exact .inr (.inl ⟨b, _, rfl, rfl⟩)
  · exact .inr (.inr (.inr ⟨_, rfl, rfl⟩))
  · exact .inr (.inr (.inl ⟨_, rfl, rfl⟩))
  · exact .inl rfl

/-- What a control byte makes of the registers (R111, R118). -/
theorem decTakeControl_cases (d : Decoder) (c : Byte) :
    (ctlLen c = 0 ∧
      decTakeControl d c = decRaise .reservedLength { d with ctl := c, cnt := 0 }) ∨
    (ctlLen c ≠ 0 ∧ ctlMode c = .repeatMode ∧
      decTakeControl d c = { d with ctl := c, cnt := ctlLen c, phase := .repv }) ∨
    (ctlLen c ≠ 0 ∧ ctlMode c = .literalMode ∧
      decTakeControl d c = { d with ctl := c, cnt := ctlLen c, phase := .litc }) := by
  by_cases h : ctlLen c = 0
  · exact .inl ⟨h, by simp [decTakeControl, h]⟩
  · cases hm : ctlMode c
    · exact .inr (.inr ⟨h, rfl, by rw [decTakeControl, if_neg h, hm]⟩)
    · exact .inr (.inl ⟨h, rfl, by rw [decTakeControl, if_neg h, hm]⟩)

/-- DEC.REP.VAL on the registers (R113). -/
theorem decRepValOp_cases (d : Decoder) (p : Ports) :
    decRepValOp d p = none ∨
    (∃ v p', srcRead p = .done (.byte v) p' ∧
      decRepValOp d p = some ({ d with val := v, phase := .repw }, p')) ∨
    (∃ p', srcRead p = .done .eoi p' ∧ decRepValOp d p = some (decRaise .truncatedRepeat d, p')) ∨
    (∃ p', srcRead p = .raised .sourceRead p' ∧ decRepValOp d p = some (decRaise .sourceRead d, p')) := by
  unfold decRepValOp decRepValAct
  obtain ⟨b, r, -, e⟩ | ⟨r, -, e⟩ | ⟨-, -, e⟩ | ⟨-, -, e⟩ := srcRead_cases p <;> rw [e]
  · exact .inr (.inl ⟨b, _, rfl, rfl⟩)
  · exact .inr (.inr (.inr ⟨_, rfl, rfl⟩))
  · exact .inr (.inr (.inl ⟨_, rfl, rfl⟩))
  · exact .inl rfl

/-- DEC.REP.OUT on the registers (R114). -/
theorem decRepOutOp_cases (d : Decoder) (p : Ports) :
    decRepOutOp d p = none ∨
    (∃ p', snkWrite d.val p = .done () p' ∧ decRepOutOp d p = some (decCountDown d, p')) ∨
    (∃ p', snkWrite d.val p = .raised .sinkWrite p' ∧
      decRepOutOp d p = some (decRaise .sinkWrite d, p')) := by
  unfold decRepOutOp
  obtain ⟨r, e, -, -⟩ | ⟨r, -, e⟩ | ⟨-, -, e⟩ := snkWrite_cases d.val p <;> rw [e]
  · exact .inr (.inl ⟨_, rfl, rfl⟩)
  · exact .inr (.inr ⟨_, rfl, rfl⟩)
  · exact .inl rfl

/-- DEC.LIT.COPY on the registers (R115). -/
theorem decLitCopyOp_cases (d : Decoder) (p : Ports) :
    decLitCopyOp d p = none ∨
    (∃ b p₁ p', srcRead p = .done (.byte b) p₁ ∧ snkWrite b p₁ = .done () p' ∧
      decLitCopyOp d p = some (decCountDown d, p')) ∨
    (∃ b p₁ p', srcRead p = .done (.byte b) p₁ ∧ snkWrite b p₁ = .raised .sinkWrite p' ∧
      decLitCopyOp d p = some (decRaise .sinkWrite d, p')) ∨
    (∃ p', srcRead p = .done .eoi p' ∧ decLitCopyOp d p = some (decRaise .truncatedLiteral d, p')) ∨
    (∃ p', srcRead p = .raised .sourceRead p' ∧
      decLitCopyOp d p = some (decRaise .sourceRead d, p')) := by
  unfold decLitCopyOp decLitCopyAct
  obtain ⟨b, r, -, e⟩ | ⟨r, -, e⟩ | ⟨-, -, e⟩ | ⟨-, -, e⟩ := srcRead_cases p
  · generalize Ports.mk _ _ _ = p₁ at e
    rw [e]
    simp only [andThen_done]
    obtain ⟨r', e', -, -⟩ | ⟨r', -, e'⟩ | ⟨-, -, e'⟩ := snkWrite_cases b p₁
    · exact .inr (.inl ⟨b, p₁, _, rfl, e', by rw [e']; rfl⟩)
    · exact .inr (.inr (.inl ⟨b, p₁, _, rfl, e', by rw [e']; rfl⟩))
    · exact .inl (by rw [e']; rfl)
  · exact .inr (.inr (.inr (.inr ⟨_, e, by rw [e]; rfl⟩)))
  · exact .inr (.inr (.inr (.inl ⟨_, e, by rw [e]; rfl⟩)))
  · exact .inl (by rw [e]; rfl)

/-- A write changes the sink alone, at its end. -/
theorem snkWrite_done_frame {b : Byte} {p p' : Ports} (h : snkWrite b p = .done () p') :
    p'.source = p.source ∧ p'.start = p.start ∧ p'.sink.bound = p.sink.bound ∧
      p'.sink.tail = p.sink.tail ∧ p'.sink.out = p.sink.out ++ [b] := by
  obtain ⟨r, e, -, -⟩ | ⟨r, -, e⟩ | ⟨-, -, e⟩ := snkWrite_cases b p <;> rw [e] at h <;> cases h
  simp

/-- A failed write appends nothing and changes nothing but the sink's answers. -/
theorem snkWrite_raised_frame {b : Byte} {p p' : Ports} {k : FaultKind}
    (h : snkWrite b p = .raised k p') :
    k = .sinkWrite ∧ p'.source = p.source ∧ p'.start = p.start ∧ p'.sink.bound = p.sink.bound ∧
      p'.sink.tail = p.sink.tail ∧ p'.sink.out = p.sink.out := by
  obtain ⟨r, e, -, -⟩ | ⟨r, -, e⟩ | ⟨-, -, e⟩ := snkWrite_cases b p <;> rw [e] at h <;> cases h
  simp

/-! The operation of a phase, and the operation the decoder selects. -/

/-- In the four phases of a run, a turn of the decoder is the operation of its phase, where `D.cnt` fits. -/
theorem stepBlock_decoder {s : State} (hi : s.dec.phase ≠ .idle)
    (hc : s.dec.phase = .repw ∨ s.dec.phase = .litc → s.dec.cnt ≠ 0) :
    stepBlock .decoder s = .next (putDecoder s (decPhaseOp s.dec s.decPorts)) := by
  cases hp : s.dec.phase with
  | idle => exact absurd hp hi
  | fetch =>
    simp [stepBlock, select, selectDecoder_phase, hp, decPhaseOp, exec, execDecFetch, whenSelected,
      decFetchSelected]
  | repv =>
    simp [stepBlock, select, selectDecoder_phase, hp, decPhaseOp, exec, execDecRepVal, whenSelected,
      decRepValSelected]
  | repw =>
    have : cntOwed s.dec = true := by simpa [cntOwed] using hc (.inl hp)
    simp [stepBlock, select, selectDecoder_phase, hp, decPhaseOp, exec, execDecRepOut, whenSelected,
      decRepOutSelected, this]
  | litc =>
    have : cntOwed s.dec = true := by simpa [cntOwed] using hc (.inr hp)
    simp [stepBlock, select, selectDecoder_phase, hp, decPhaseOp, exec, execDecLitCopy, whenSelected,
      decLitCopySelected, this]
  | done => simp [stepBlock, select, selectDecoder_phase, hp, decPhaseOp, putDecoder]
  | fault => simp [stepBlock, select, selectDecoder_phase, hp, decPhaseOp, putDecoder]

end Sys2Proof.Machine
end

