-- ==== Sys2Proof/Laws/Encoder.lean ====
section
/-! SUPPORT. The six operations with a current byte are one shape: write the record, shift, write registers
(spec/40_encoder.md R83 to R92). One equation says so, and one lemma says everything such a step can do. -/

namespace Sys2Proof.Machine

/-- The line "Selected when" of an operation with a current byte. -/
def classifyingSelected (i : Instr) (e : Encoder) : Bool :=
  match i with
  | .encRepEnd => encRepEndSelected e
  | .encRepCap => encRepCapSelected e
  | .encRepCont => encRepContSelected e
  | .encLitFlush => encLitFlushSelected e
  | .encLitCap => encLitCapSelected e
  | .encLitCont => encLitContSelected e
  | .encStart | .encHalt => false
  | .rsvLit0 | .rsvRep0 | .lit _ _ | .rep _ _ => false
  | .decStart | .decFetch | .decRepVal | .decRepOut | .decLitCopy => false
  | .reset _ | .start _ => false

/-- Does the operation's count fit? The two cuts are selected only at 126. -/
def classifyingFits (i : Instr) (e : Encoder) : Bool :=
  match i with
  | .encRepCap | .encLitCap => true
  | .encRepEnd | .encRepCont | .encLitFlush | .encLitCont => lenFits e
  | .encStart | .encHalt => true
  | .rsvLit0 | .rsvRep0 | .lit _ _ | .rep _ _ => true
  | .decStart | .decFetch | .decRepVal | .decRepOut | .decLitCopy => true
  | .reset _ | .start _ => true

/-- The registers as they stand when an action of the operation fails (R140). -/
def frozenRegisters (i : Instr) (e : Encoder) : Encoder :=
  if i ∈ [Instr.encLitFlush, .encLitCap, .encLitCont] then appendLiteral e else e

/-- The register writes after the shift (R84 to R89). -/
def writtenRegisters (i : Instr) (e : Encoder) (e' : Encoder) : Encoder :=
  match i with
  | .encRepEnd => { e' with mode := if q e then .repeatMode else .literalMode, len := 0 }
  | .encLitFlush => { e' with mode := .repeatMode, len := 0 }
  | .encRepCap | .encLitCap => { e' with len := 0 }
  | .encRepCont | .encLitCont => { e' with len := e.len + 1 }
  | .encStart | .encHalt => e'
  | .rsvLit0 | .rsvRep0 | .lit _ _ | .rep _ _ => e'
  | .decStart | .decFetch | .decRepVal | .decRepOut | .decLitCopy => e'
  | .reset _ | .start _ => e'

/-- The one shape of the six operations. -/
theorem exec_classifying {i : Instr} (h : isClassifyingOp i = true) (s : State) :
    exec i s =
      whenSelected (classifyingSelected i s.enc) (classifyingFits i s.enc) .lenOutOfRange
        (putEncoder s
          (finish encRaise (frozenRegisters i s.enc)
            (thenWrite (writtenRegisters i s.enc)
              (emitThenShift (recordEmitted i s.enc) (frozenRegisters i s.enc) s.encPorts)))) := by
  cases i <;> first | rfl | exact absurd h (by simp [isClassifyingOp])

/-- The window after a shift whose new symbol is `x` (R83). -/
def shiftedBy (e : Encoder) (x : Sym) : Encoder := { e with cur := e.next, next := e.nn, nn := x }

/-- Everything a step that writes and then shifts can do: it waits; it completes, the whole record written and
then at most one symbol read; or a port fails, and the bytes before the failing action stay. -/
theorem emitThenShift_cases (bs : List Byte) (e : Encoder) (f : Encoder → Encoder) (p : Ports) :
    finish encRaise e (thenWrite f (emitThenShift bs e p)) = none ∨
    (∃ x p₁ p', snkWriteMany bs p = .done () p₁ ∧ (e.nn = .eoi → x = .eoi ∧ p' = p₁) ∧
      (e.nn ≠ .eoi → srcRead p₁ = .done x p') ∧
      finish encRaise e (thenWrite f (emitThenShift bs e p)) = some (f (shiftedBy e x), p')) ∨
    (∃ p', snkWriteMany bs p = .raised .sinkWrite p' ∧
      finish encRaise e (thenWrite f (emitThenShift bs e p)) = some (encRaise .sinkWrite e, p')) ∨
    (∃ p₁ p', snkWriteMany bs p = .done () p₁ ∧ e.nn ≠ .eoi ∧ srcRead p₁ = .raised .sourceRead p' ∧
      finish encRaise e (thenWrite f (emitThenShift bs e p)) = some (encRaise .sourceRead e, p')) := by
  cases hx : emitThenShift bs e p with
  | pending => exact .inl rfl
  | done e' p' =>
    obtain ⟨p₁, hw, hs⟩ := emitThenShift_done hx
    obtain ⟨x, rfl, h₁, h₂⟩ := shift_done hs
    exact .inr (.inl ⟨x, p₁, p', hw, h₁, h₂, rfl⟩)
  | raised k p' =>
    rcases emitThenShift_raised hx with hw | ⟨p₁, hw, hs⟩
    · obtain ⟨rfl, -⟩ := snkWriteMany_raised_frame hw
      exact .inr (.inr (.inl ⟨p', hw, rfl⟩))
    · obtain ⟨hn, hr⟩ := shift_raised hs
      obtain ⟨rfl, -⟩ := srcRead_raised_frame hr
      exact .inr (.inr (.inr ⟨p₁, p', hw, hn, hr, rfl⟩))

/-- Everything an operation with a current byte can do, when it answers a next state. -/
theorem exec_classifying_cases {i : Instr} (h : isClassifyingOp i = true) {s t : State}
    (hx : exec i s = .next t) :
    classifyingSelected i s.enc = true ∧ classifyingFits i s.enc = true ∧
    (t = s ∨
    (∃ x p₁ p', snkWriteMany (recordEmitted i s.enc) s.encPorts = .done () p₁ ∧
      (s.enc.nn = .eoi → x = .eoi ∧ p' = p₁) ∧ (s.enc.nn ≠ .eoi → srcRead p₁ = .done x p') ∧
      t = { s with
        enc := writtenRegisters i s.enc (shiftedBy (frozenRegisters i s.enc) x), encPorts := p' }) ∨
    (∃ p', snkWriteMany (recordEmitted i s.enc) s.encPorts = .raised .sinkWrite p' ∧
      t = { s with enc := encRaise .sinkWrite (frozenRegisters i s.enc), encPorts := p' }) ∨
    (∃ p₁ p', snkWriteMany (recordEmitted i s.enc) s.encPorts = .done () p₁ ∧ s.enc.nn ≠ .eoi ∧
      srcRead p₁ = .raised .sourceRead p' ∧
      t = { s with enc := encRaise .sourceRead (frozenRegisters i s.enc), encPorts := p' })) := by
  rw [exec_classifying h, whenSelected_next] at hx
  obtain ⟨h₁, h₂, rfl⟩ := hx
  have hn : (frozenRegisters i s.enc).nn = s.enc.nn := by
    unfold frozenRegisters; split <;> rfl
  refine ⟨h₁, h₂, ?_⟩
  rcases emitThenShift_cases (recordEmitted i s.enc) (frozenRegisters i s.enc)
      (writtenRegisters i s.enc) s.encPorts with e | ⟨x, p₁, p', a, b, c, e⟩ | ⟨p', a, e⟩ | ⟨p₁, p', a, b, c, e⟩
  · exact .inl (by rw [e]; rfl)
  · exact .inr (.inl ⟨x, p₁, p', a, hn ▸ b, hn ▸ c, by rw [e]; rfl⟩)
  · exact .inr (.inr (.inl ⟨p', a, by rw [e]; rfl⟩))
  · exact .inr (.inr (.inr ⟨p₁, p', a, hn ▸ b, c, by rw [e]; rfl⟩))

/-- What the statements say of an operation with a current byte, from the one shape of the six. -/
theorem encoderStepIs_of_shape {i : Instr} (hi : isClassifyingOp i = true) {s : State} {bs : List Byte}
    {frozen result : Encoder} (hsel : classifyingSelected i s.enc = true)
    (hfit : classifyingFits i s.enc = true) (hbs : recordEmitted i s.enc = bs)
    (hfr : frozenRegisters i s.enc = frozen) (hnn : frozen.nn = s.enc.nn)
    (hres : writtenRegisters i s.enc (windowShifted frozen s.encPorts.source) = result) :
    encoderStepIs i s bs frozen result := by
  refine ⟨fun hs hsrc => ?_, fun j hj hs => ?_, fun rest hs hn ha => ?_⟩
  · rw [exec_classifying hi, hsel, hfit, hbs, hfr, emitThenShift, snkWriteMany_ready hs, andThen_done,
      shift_ready (by rw [hnn]; exact hsrc)]
    simp only [thenWrite_done, finish_done, whenSelected, if_true, putEncoder, ← hres, windowShifted,
      sourceShifted, hnn]
  · rw [exec_classifying hi, hsel, hfit, hbs, hfr, emitThenShift, snkWriteMany_failsAt hj hs]
    rfl
  · rw [exec_classifying hi, hsel, hfit, hbs, hfr, emitThenShift, snkWriteMany_ready hs, andThen_done,
      shift, hnn, srcReadAfter_of_ne hn]
    simp [srcRead, ha, whenSelected, putEncoder, encRaise, encFaulted, causeCode, subcauseCode]

/-- An operation with a current byte waits whole where its record, or the read after it, is not answered
(R6, R47). -/
theorem exec_classifying_holds {i : Instr} (hi : isClassifyingOp i = true) {s : State}
    (hsel : classifyingSelected i s.enc = true) (hfit : classifyingFits i s.enc = true)
    (h : snkWriteMany (recordEmitted i s.enc) s.encPorts = .pending ∨
      sinkReady (recordEmitted i s.enc).length s.encPorts.sink ∧ s.enc.nn ≠ .eoi ∧
        s.encPorts.source.answers = [] ∧ s.encPorts.source.tail = .silent) :
    exec i s = .next s := by
  have hn : (frozenRegisters i s.enc).nn = s.enc.nn := by
    unfold frozenRegisters; split <;> rfl
  rw [exec_classifying hi, hsel, hfit, emitThenShift]
  rcases h with h | ⟨hs, hnn, ha, ht⟩
  · rw [h]; rfl
  · rw [snkWriteMany_ready hs, andThen_done, shift_silent (hn ▸ hnn) (by exact ha) (by exact ht)]; rfl

/-- Everything ENC.START can do, when it answers a next state (R82). -/
theorem exec_encStart_cases {s t : State} (hx : exec .encStart s = .next t) :
    s.enc.phase = .idle ∧ s.encPorts.start = true ∧
    (t = s ∨
    (∃ k, (k = .sourceAbsent ∧ s.encPorts.source.bound = false ∨
        k = .sinkAbsent ∧ s.encPorts.sink.bound = false) ∧
      t = { s with enc := encRaise k s.enc, encPorts := startTaken s.encPorts }) ∨
    (∃ p', srcRead (startTaken s.encPorts) = .done .eoi p' ∧
      t = { s with enc := { s.enc with phase := .done, len := 0 }, encPorts := p' }) ∨
    (∃ b n x p₁ p₂ p', srcRead (startTaken s.encPorts) = .done (.byte b) p₁ ∧
      srcRead p₁ = .done n p₂ ∧ (n = .eoi → x = .eoi ∧ p' = p₂) ∧
      (n ≠ .eoi → srcRead p₂ = .done x p') ∧
      t = { s with
        enc :=
          { s.enc with
            phase := .run
            mode := if n = .eoi ∨ Sym.byte b = n then .repeatMode else .literalMode
            cur := .byte b
            next := n
            nn := x
            len := 0 }
        encPorts := p' }) ∨
    (∃ p', p'.sink = s.encPorts.sink ∧ p'.start = false ∧ p'.source.bound = s.encPorts.source.bound ∧
      p'.source.tail = s.encPorts.source.tail ∧ s.encPorts.source.taken <+: p'.source.taken ∧
      t = { s with enc := encRaise .sourceRead s.enc, encPorts := p' })) := by
  change execEncStart s = _ at hx
  rw [execEncStart, whenSelected_next] at hx
  obtain ⟨h₁, -, rfl⟩ := hx
  simp only [encStartSelected, Bool.and_eq_true, beq_iff_eq] at h₁
  refine ⟨h₁.1, h₁.2, ?_⟩
  simp only [encStartOp, encStartAct]
  split
  · exact .inr (.inl ⟨.sourceAbsent, .inl ⟨rfl, ‹_›⟩, rfl⟩)
  split
  · exact .inr (.inl ⟨.sinkAbsent, .inr ⟨rfl, ‹_›⟩, rfl⟩)
  obtain ⟨b, r, ha, e⟩ | ⟨r, ha, e⟩ | ⟨ha, ht, e⟩ | ⟨ha, ht, e⟩ := srcRead_cases (startTaken s.encPorts)
  · generalize hp₁ : Ports.mk _ _ _ = p₁ at e
    rw [e]
    simp only [andThen_done, encLoadWindow]
    have f₁ := srcRead_done_frame e
    have t₁ : p₁.source.tail = s.encPorts.source.tail := by rw [← hp₁]; rfl
    obtain ⟨c, r₂, ha₂, e₂⟩ | ⟨r₂, ha₂, e₂⟩ | ⟨ha₂, ht₂, e₂⟩ | ⟨ha₂, ht₂, e₂⟩ := srcRead_cases p₁
    · generalize hp₂ : Ports.mk _ _ _ = p₂ at e₂
      have f₂ := srcRead_done_frame e₂
      have t₂ : p₂.source.tail = p₁.source.tail := by rw [← hp₂]
      rw [e₂]
      simp only [andThen_done, srcReadAfter_byte]
      obtain ⟨d, r₃, ha₃, e₃⟩ | ⟨r₃, ha₃, e₃⟩ | ⟨ha₃, ht₃, e₃⟩ | ⟨ha₃, ht₃, e₃⟩ := srcRead_cases p₂
      · exact .inr (.inr (.inr (.inl ⟨b, .byte c, _, p₁, p₂, _, rfl, e₂, by simp, fun _ => e₃, by rw [e₃]; rfl⟩)))
      · have f₃ := srcRead_raised_frame e₃
        refine .inr (.inr (.inr (.inr ⟨_, ?_, ?_, ?_, ?_, ?_, by rw [e₃]; rfl⟩)))
        · exact (f₃.2.1.trans f₂.1).trans f₁.1
        · exact (f₃.2.2.1.trans f₂.2.1).trans f₁.2.1
        · exact (f₃.2.2.2.1.trans f₂.2.2.1).trans f₁.2.2.1
        · exact t₂.trans t₁
        · rw [f₃.2.2.2.2, f₂.2.2.2, f₁.2.2.2]; simp
      · exact .inr (.inr (.inr (.inl ⟨b, .byte c, _, p₁, p₂, _, rfl, e₂, by simp, fun _ => e₃, by rw [e₃]; rfl⟩)))
      · exact .inl (by rw [e₃]; rfl)
    · have f₂ := srcRead_raised_frame e₂
      refine .inr (.inr (.inr (.inr ⟨_, ?_, ?_, ?_, ?_, ?_, by rw [e₂]; rfl⟩)))
      · exact f₂.2.1.trans f₁.1
      · exact f₂.2.2.1.trans f₁.2.1
      · exact f₂.2.2.2.1.trans f₁.2.2.1
      · exact t₁
      · rw [f₂.2.2.2.2, f₁.2.2.2]; simp
    · rw [e₂]
      exact .inr (.inr (.inr (.inl ⟨b, .eoi, .eoi, p₁, _, _, rfl, e₂, by simp, by simp, rfl⟩)))
    · exact .inl (by rw [e₂]; rfl)
  · refine .inr (.inr (.inr (.inr ⟨_, ?_, ?_, ?_, ?_, ?_, by rw [e]; rfl⟩))) <;> simp [startTaken]
  · exact .inr (.inr (.inl ⟨_, e, by rw [e]; rfl⟩))
  · exact .inl (by rw [e]; rfl)

/-- What ENC.HALT does, when it answers a next state (R90). -/
theorem exec_encHalt_cases {s t : State} (hx : exec .encHalt s = .next t) :
    s.enc.phase = .run ∧ s.enc.cur = .eoi ∧ t = { s with enc := { s.enc with phase := .done } } := by
  change execEncHalt s = _ at hx
  rw [execEncHalt, whenSelected_next] at hx
  obtain ⟨h₁, -, rfl⟩ := hx
  simp only [encHaltSelected, Bool.and_eq_true, beq_iff_eq] at h₁
  refine ⟨h₁.1, ?_, rfl⟩
  cases hc : s.enc.cur with
  | byte b => simp [hc, symEoi] at h₁
  | eoi => rfl

end Sys2Proof.Machine
end

