-- ==== Sys2Proof/Laws/PerInstr.lean ====
section
/-! SUPPORT. Facts about every instruction as syntax, one lemma a constructor. -/

namespace Sys2Proof.Laws.Size

open Sys2Proof

/-- The bytes of a well-formed record are as many as its own control byte says (R66); what is no record has
no bytes in a stream (R74). -/
def Statement (i : Instr) : Prop :=
  i.wellFormed = true →
    (i.isRecord = true → ∃ c rest, encode i = c :: rest ∧ (encode i).length = recordSize c) ∧
      (i.isRecord = false → encode i = [])

theorem rsvLit0 : Statement .rsvLit0 := by
  intro _; exact ⟨fun _ => ⟨_, _, rfl, rfl⟩, by simp [Instr.isRecord]⟩

theorem rsvRep0 : Statement .rsvRep0 := by
  intro _; exact ⟨fun _ => ⟨_, _, rfl, rfl⟩, by simp [Instr.isRecord]⟩

theorem literal_size : ∀ n : Len, n ≠ 0 → recordSize (packCtl .literalMode n) = 1 + n.toNat := by
  decide +kernel

theorem repeat_size : ∀ n : Len, n ≠ 0 → recordSize (packCtl .repeatMode n) = 2 := by decide +kernel

theorem lit (n : Len) (payload : List Byte) : Statement (.lit n payload) := by
  intro h
  simp only [Instr.wellFormed, Bool.and_eq_true, decide_eq_true_eq, beq_iff_eq] at h
  refine ⟨fun _ => ⟨_, _, rfl, ?_⟩, by simp [Instr.isRecord]⟩
  rw [literal_size n h.1, encode, List.length_cons, h.2]
  omega

theorem rep (n : Len) (v : Byte) : Statement (.rep n v) := by
  intro h
  simp only [Instr.wellFormed, decide_eq_true_eq] at h
  refine ⟨fun _ => ⟨_, _, rfl, ?_⟩, by simp [Instr.isRecord]⟩
  rw [repeat_size n h]
  rfl

theorem encStart : Statement .encStart := fun _ => ⟨by simp [Instr.isRecord], fun _ => rfl⟩
theorem encHalt : Statement .encHalt := fun _ => ⟨by simp [Instr.isRecord], fun _ => rfl⟩
theorem encRepEnd : Statement .encRepEnd := fun _ => ⟨by simp [Instr.isRecord], fun _ => rfl⟩
theorem encRepCap : Statement .encRepCap := fun _ => ⟨by simp [Instr.isRecord], fun _ => rfl⟩
theorem encRepCont : Statement .encRepCont := fun _ => ⟨by simp [Instr.isRecord], fun _ => rfl⟩
theorem encLitFlush : Statement .encLitFlush := fun _ => ⟨by simp [Instr.isRecord], fun _ => rfl⟩
theorem encLitCap : Statement .encLitCap := fun _ => ⟨by simp [Instr.isRecord], fun _ => rfl⟩
theorem encLitCont : Statement .encLitCont := fun _ => ⟨by simp [Instr.isRecord], fun _ => rfl⟩
theorem decStart : Statement .decStart := fun _ => ⟨by simp [Instr.isRecord], fun _ => rfl⟩
theorem decFetch : Statement .decFetch := fun _ => ⟨by simp [Instr.isRecord], fun _ => rfl⟩
theorem decRepVal : Statement .decRepVal := fun _ => ⟨by simp [Instr.isRecord], fun _ => rfl⟩
theorem decRepOut : Statement .decRepOut := fun _ => ⟨by simp [Instr.isRecord], fun _ => rfl⟩
theorem decLitCopy : Statement .decLitCopy := fun _ => ⟨by simp [Instr.isRecord], fun _ => rfl⟩
theorem reset (b : Block) : Statement (.reset b) := fun _ => ⟨by simp [Instr.isRecord], fun _ => rfl⟩
theorem start (b : Block) : Statement (.start b) := fun _ => ⟨by simp [Instr.isRecord], fun _ => rfl⟩

end Sys2Proof.Laws.Size
end

