-- ==== Sys2Proof/Tests/Slice0.lean ====
section
/-! SUPPORT. The model's own tests: the check of well-formed terms, words written out from the spec's encodings,
one step per instruction from the spec's vectors (spec/95_test_vectors.md), and a witness for every statement
that has hypotheses, at the boundary of each clause. -/

namespace Sys2Proof.Tests

open Sys2Proof Sys2Proof.Machine

/-! Helpers: small states. -/

/-- Bound ports with the answers given. -/
def ports (src : List SrcAnswer) (srcTail : SrcTail) (snk : List SnkAnswer) (snkTail : SnkTail) : Ports :=
  { source := { bound := true, taken := [], answers := src, tail := srcTail }
    sink := { bound := true, out := [], answers := snk, tail := snkTail }
    start := false }

/-- Ports that never fail, over these bytes. -/
def openPorts (bs : List Byte) : Ports := ports (bs.map .byte) .ended [] .accepting

/-- A state with the encoder as given, the rest as after reset. -/
def encAt (ph : EncPhase) (m : Mode) (c n x : Sym) (len : Len) (p : Ports) : State :=
  { State.reset with
    enc := { Encoder.reset with phase := ph, mode := m, cur := c, next := n, nn := x, len := len }
    encPorts := p }

/-- The same with two bytes at the front of the literal buffer. -/
def withBuf (s : State) (a b : Byte) : State :=
  { s with enc := { s.enc with lbuf := (s.enc.lbuf.setIfInBounds 0 a).setIfInBounds 1 b } }

/-- A state with the decoder as given, the rest as after reset. -/
def decAt (ph : DecPhase) (ctl : Byte) (cnt : Len) (val : Byte) (p : Ports) : State :=
  { State.reset with
    dec := { Decoder.reset with phase := ph, ctl := ctl, cnt := cnt, val := val }
    decPorts := p }

/-- The next state, if the outcome is one. -/
def nextOf (o : Host.Outcome State Fault Refusal) : Option State :=
  match o with
  | .next t => some t
  | .fault _ => none
  | .refused _ => none

/-- What a test of the encoder looks at: phase, mode, window, len, the sink. -/
def encView (o : Host.Outcome State Fault Refusal) :
    Option (EncPhase × Mode × List Sym × Len × List Byte) :=
  (nextOf o).map fun t =>
    (t.enc.phase, t.enc.mode, [t.enc.cur, t.enc.next, t.enc.nn], t.enc.len, t.encPorts.sink.out)

/-- What a test of the decoder looks at: STATUS, ctl, cnt, val, the sink. -/
def decView (o : Host.Outcome State Fault Refusal) : Option (Nat × Byte × Len × Byte × List Byte) :=
  (nextOf o).map fun t =>
    ((decStatus t.dec).toNat, t.dec.ctl, t.dec.cnt, t.dec.val, t.decPorts.sink.out)

/-! Well-formed terms (R62, R63): one ill-formed term per check. -/

theorem test_wf_lit_zero : (Instr.lit 0 []).wellFormed = false := by decide
theorem test_wf_lit_count : (Instr.lit 3 [0x01, 0x02]).wellFormed = false := by decide
theorem test_wf_rep_zero : (Instr.rep 0 0x41).wellFormed = false := by decide
theorem test_wf_lit_good : (Instr.lit 2 [0x01, 0x02]).wellFormed = true := by decide

/-! Words. Records: V-F1 to V-F14, R69, R72. -/

theorem test_word_rep : decode [0b10000011, 0x41] = .ok (.rep 3 0x41, []) := by decide
theorem test_word_rep_max : decode [0b11111111, 0x00, 0x07] = .ok (.rep 127 0x00, [0x07]) := by decide
theorem test_word_lit : decode [0b00000010, 0x42, 0x43, 0x81] = .ok (.lit 2 [0x42, 0x43], [0x81]) := by
  decide
theorem test_word_lit0 : decode [0b00000000, 0x41] = .ok (.rsvLit0, [0x41]) := by decide
theorem test_word_rep0 : decode [0b10000000, 0x41] = .ok (.rsvRep0, [0x41]) := by decide
theorem test_word_truncated :
    decode [0x83] = .error .truncatedRepeat ∧ decode [0x03, 0x01, 0x02] = .error .truncatedLiteral ∧
      decode [] = .error .endOfStream := by decide
theorem test_encode_records :
    encode (.rep 127 0xFF) = [0xFF, 0xFF] ∧ encode (.rep 3 0xFF) = [0x83, 0xFF] ∧
      encode (.lit 3 [0x01, 0x02, 0x03]) = [0x03, 0x01, 0x02, 0x03] := by decide
theorem test_packCtl :
    packCtl .repeatMode 1 = 0x81 ∧ packCtl .repeatMode 126 = 0xFE ∧ packCtl .literalMode 127 = 0x7F ∧
      ctlMode 0xC1 = .repeatMode ∧ ctlLen 0xC1 = 65 ∧ ctlLen 0x80 = 0 := by decide

/-! Selector vectors, a 1 or a 0 for each bit the row of R80 leaves open. -/

theorem test_word_encHalt : decodeSelector 0b10000 = some .encHalt ∧ decodeSelector 0b11111 = some .encHalt := by
  decide
theorem test_word_encRepEnd :
    decodeSelector 0b01100 = some .encRepEnd ∧ decodeSelector 0b01111 = some .encRepEnd := by decide
theorem test_word_encRepCap :
    decodeSelector 0b01001 = some .encRepCap ∧ decodeSelector 0b01011 = some .encRepCap := by decide
theorem test_word_encRepCont :
    decodeSelector 0b01000 = some .encRepCont ∧ decodeSelector 0b01010 = some .encRepCont := by decide
theorem test_word_encLitFlush :
    decodeSelector 0b00010 = some .encLitFlush ∧ decodeSelector 0b00111 = some .encLitFlush := by decide
theorem test_word_encLitCap :
    decodeSelector 0b00001 = some .encLitCap ∧ decodeSelector 0b00101 = some .encLitCap := by decide
theorem test_word_encLitCont :
    decodeSelector 0b00000 = some .encLitCont ∧ decodeSelector 0b00100 = some .encLitCont := by decide

/-! Phase codes (R110); ENC.START has the phase code 0 of the encoder and its command (R82). -/

theorem test_word_decoder :
    decodePhase 0b000 = some .decStart ∧ decodePhase 0b001 = some .decFetch ∧
      decodePhase 0b010 = some .decRepVal ∧ decodePhase 0b011 = some .decRepOut ∧
      decodePhase 0b100 = some .decLitCopy ∧ decodePhase 0b101 = none ∧ decodePhase 0b110 = none ∧
      decodePhase 0b111 = none := by decide
theorem test_word_encStart :
    selectEncoder { State.reset with encPorts := { openPorts [] with start := true } } = some .encStart ∧
      selectEncoder State.reset = none := by decide

/-- Table words: the four rows that are bits of a stream; the operand bytes above the word are zeros. -/
theorem test_table_words :
    decodeTableWord 8 0x00 = some .rsvLit0 ∧ decodeTableWord 8 0x80 = some .rsvRep0 ∧
      decodeTableWord 8 0x02 = some (.lit 2 [0, 0]) ∧ decodeTableWord 8 0x81 = some (.rep 1 0) ∧
      decodeTableWord 16 0x4183 = some (.rep 3 0x41) := by decide +kernel

/-! One step per instruction. -/

/-- V-S1. -/
theorem test_encRepCont :
    encView (exec .encRepCont
      (encAt .run .repeatMode (.byte 0x41) (.byte 0x41) (.byte 0x42) 0 (openPorts [0x43]))) =
      some (.run, .repeatMode, [.byte 0x41, .byte 0x42, .byte 0x43], 1, []) := by decide
/-- V-S8: no read after the marker. -/
theorem test_encRepCont_at_end :
    encView (exec .encRepCont
      (encAt .run .repeatMode (.byte 0xFF) (.byte 0xFF) .eoi 125 (openPorts [0x43]))) =
      some (.run, .repeatMode, [.byte 0xFF, .eoi, .eoi], 126, []) := by decide
/-- V-S2. -/
theorem test_encRepEnd :
    encView (exec .encRepEnd
      (encAt .run .repeatMode (.byte 0x41) (.byte 0x42) (.byte 0x43) 2 (openPorts []))) =
      some (.run, .literalMode, [.byte 0x42, .byte 0x43, .eoi], 0, [0x83, 0x41]) := by decide
/-- V-S7: END, not CAP, at 127. -/
theorem test_encRepEnd_at_cap :
    encView (stepBlock .encoder
      (encAt .run .repeatMode (.byte 0xFF) (.byte 0x00) (.byte 0x00) 126 (openPorts [0x01]))) =
      some (.run, .repeatMode, [.byte 0x00, .byte 0x00, .byte 0x01], 0, [0xFF, 0xFF]) := by decide
/-- V-S6. -/
theorem test_encRepCap :
    encView (exec .encRepCap
      (encAt .run .repeatMode (.byte 0xFF) (.byte 0xFF) (.byte 0xFF) 126 (openPorts [0x05]))) =
      some (.run, .repeatMode, [.byte 0xFF, .byte 0xFF, .byte 0x05], 0, [0xFF, 0xFF]) := by decide
/-- V-S9. -/
theorem test_encLitCont :
    (nextOf (exec .encLitCont
      (encAt .run .literalMode (.byte 0x01) (.byte 0x02) (.byte 0x03) 0 (openPorts [0x04])))).map
        (fun t => (t.enc.len, t.enc.cur, t.enc.lbuf.toList.take 2)) =
      some (1, .byte 0x02, [0x01, 0x00]) := by decide +kernel
/-- V-X6: the buffer's element stays written when the shift's read fails. -/
theorem test_encLitCont_read_fails :
    (nextOf (exec .encLitCont
      (encAt .run .literalMode (.byte 0x01) (.byte 0x02) (.byte 0x03) 0
        (ports [.fail] .ended [] .accepting)))).map
        (fun t => (encStatus t.enc, t.enc.len, t.enc.cur, t.enc.lbuf.toList.take 1)) =
      some (0x0B, 0, .byte 0x01, [0x01]) := by decide +kernel
/-- V-S11: the pending literal run is flushed at the end of input. -/
theorem test_encLitFlush :
    encView (exec .encLitFlush
      (withBuf (encAt .run .literalMode (.byte 0x03) .eoi .eoi 2 (openPorts [])) 0x01 0x02)) =
      some (.run, .repeatMode, [.eoi, .eoi, .eoi], 0, [0x03, 0x01, 0x02, 0x03]) := by decide +kernel
/-- V-X8: the third write fails. -/
theorem test_encLitFlush_write_fails :
    (nextOf (exec .encLitFlush
      (withBuf (encAt .run .literalMode (.byte 0x03) .eoi .eoi 2
        (ports [] .ended [.accept, .accept, .fail] .accepting)) 0x01 0x02))).map
        (fun t => (encStatus t.enc, t.enc.len, t.encPorts.sink.out, t.enc.lbuf.toList.take 3)) =
      some (0x1B, 2, [0x03, 0x01], [0x01, 0x02, 0x03]) := by decide +kernel
/-- V-S13, with a buffer of zeros but for its first two elements. -/
theorem test_encLitCap :
    (nextOf (exec .encLitCap
      (withBuf (encAt .run .literalMode (.byte 0x7E) (.byte 0x7F) (.byte 0x80) 126 (openPorts [0x09]))
        0x01 0x02))).map
        (fun t => (t.enc.mode, t.enc.len, t.enc.nn, t.encPorts.sink.out)) =
      some (.literalMode, 0, .byte 0x09, [0x7F, 0x01, 0x02] ++ List.replicate 124 0 ++ [0x7E]) := by
  decide +kernel
/-- V-S15. -/
theorem test_encHalt :
    encView (exec .encHalt (encAt .run .repeatMode .eoi .eoi .eoi 0 (openPorts []))) =
      some (.done, .repeatMode, [.eoi, .eoi, .eoi], 0, []) := by decide
/-- The example of R82. -/
theorem test_encStart :
    encView (exec .encStart
      { State.reset with encPorts := { openPorts [0x41, 0x41, 0x42] with start := true } }) =
      some (.run, .repeatMode, [.byte 0x41, .byte 0x41, .byte 0x42], 0, []) := by decide
/-- V-E1, R164: the empty input ends in DONE, nothing pending whatever the register held. -/
theorem test_encStart_empty :
    encView (exec (.start .encoder) (encAt .idle .literalMode (.byte 1) (.byte 2) (.byte 3) 5 (openPorts []))) =
      some (.done, .literalMode, [.byte 1, .byte 2, .byte 3], 0, []) := by decide
/-- V-X1, V-X2. -/
theorem test_encStart_unbound :
    (nextOf (exec (.start .encoder) State.reset)).map (fun t => encStatus t.enc) = some 0x07 ∧
      (nextOf (exec (.start .encoder)
        { State.reset with
          encPorts :=
            { openPorts [] with sink := { (openPorts []).sink with bound := false } } })).map
          (fun t => encStatus t.enc) = some 0x17 := by decide

/-- R112, V-X11. -/
theorem test_decStart :
    (nextOf (exec (.start .decoder) { State.reset with decPorts := openPorts [0x83] })).map
        (fun t => (decStatus t.dec, t.decPorts.source.taken)) = some (0x01, []) ∧
      (nextOf (exec (.start .decoder)
        { State.reset with
          decPorts :=
            { openPorts [] with sink := { (openPorts []).sink with bound := false } } })).map
          (fun t => decStatus t.dec) = some 0x2E := by decide
/-- R111: 83 is REPV with 3, 03 is LITC with 3. -/
theorem test_decFetch :
    decView (exec .decFetch (decAt .fetch 0 0 0 (openPorts [0x83]))) = some (2, 0x83, 3, 0, []) ∧
      decView (exec .decFetch (decAt .fetch 0 0 0 (openPorts [0x03]))) = some (4, 0x03, 3, 0, []) := by
  refine ⟨?_, ?_⟩ <;> decide
/-- V-D12, V-D13, V-D1. -/
theorem test_decFetch_ends :
    decView (exec .decFetch (decAt .fetch 1 1 1 (openPorts [0x00]))) = some (0x5E, 0x00, 0, 1, []) ∧
      decView (exec .decFetch (decAt .fetch 1 1 1 (openPorts [0x80, 0x41]))) =
        some (0x5E, 0x80, 0, 1, []) ∧
      decView (exec .decFetch (decAt .fetch 1 1 1 (openPorts []))) = some (5, 1, 1, 1, []) := by
  refine ⟨?_, ?_, ?_⟩ <;> decide
/-- P1 step 2, V-D15. -/
theorem test_decRepVal :
    decView (exec .decRepVal (decAt .repv 0x83 3 0 (openPorts [0x41]))) = some (3, 0x83, 3, 0x41, []) ∧
      decView (exec .decRepVal (decAt .repv 0x83 3 0 (openPorts []))) = some (0x1E, 0x83, 3, 0, []) := by
  refine ⟨?_, ?_⟩ <;> decide
/-- P1 steps 3 and 5. -/
theorem test_decRepOut :
    decView (exec .decRepOut (decAt .repw 0x83 3 0x41 (openPorts []))) =
        some (3, 0x83, 2, 0x41, [0x41]) ∧
      decView (exec .decRepOut (decAt .repw 0x83 1 0x41 (openPorts []))) =
        some (1, 0x83, 0, 0x41, [0x41]) := by
  refine ⟨?_, ?_⟩ <;> decide
/-- V-X14. -/
theorem test_decRepOut_write_fails :
    decView (exec .decRepOut (decAt .repw 0x83 2 0x41 (ports [] .ended [.fail] .accepting))) =
      some (0x36, 0x83, 2, 0x41, []) := by decide
/-- P1 steps 7 and 8. -/
theorem test_decLitCopy :
    decView (exec .decLitCopy (decAt .litc 0x02 2 0x41 (openPorts [0x42]))) =
        some (4, 0x02, 1, 0x41, [0x42]) ∧
      decView (exec .decLitCopy (decAt .litc 0x02 1 0x41 (openPorts [0x43]))) =
        some (1, 0x02, 0, 0x41, [0x43]) := by
  refine ⟨?_, ?_⟩ <;> decide
/-- V-D17, V-X15: the byte whose write fails is consumed. -/
theorem test_decLitCopy_faults :
    decView (exec .decLitCopy (decAt .litc 0x03 1 0 (openPorts []))) = some (0x3E, 0x03, 1, 0, []) ∧
      (nextOf (exec .decLitCopy
        (decAt .litc 0x02 2 0 (ports [.byte 0x42, .byte 0x43] .ended [.fail] .accepting)))).map
          (fun t => (decStatus t.dec, t.dec.cnt, t.decPorts.source.taken, t.decPorts.sink.out)) =
        some (0x36, 2, [.byte 0x42], []) := by decide

/-- R116: 83 41 appends 41 41 41. -/
theorem test_rep :
    decView (exec (.rep 3 0x41) (decAt .fetch 0 0 0 (openPorts [0x83, 0x41, 0x02]))) =
      some (1, 0x83, 0, 0x41, [0x41, 0x41, 0x41]) := by decide
/-- R117: 03 01 02 03 appends 01 02 03. -/
theorem test_lit :
    decView (exec (.lit 3 [0x01, 0x02, 0x03]) (decAt .fetch 0 0 0 (openPorts [0x03, 0x01, 0x02, 0x03]))) =
      some (1, 0x03, 0, 0, [0x01, 0x02, 0x03]) := by decide
/-- R118; the byte after 0x80 is not read. -/
theorem test_reserved :
    decView (exec .rsvLit0 (decAt .fetch 9 9 9 (openPorts [0x00]))) = some (0x5E, 0x00, 0, 9, []) ∧
      (nextOf (exec .rsvRep0 (decAt .fetch 9 9 9 (openPorts [0x80, 0x41])))).map
          (fun t => (decStatus t.dec, t.decPorts.source.taken)) = some (0x5E, [.byte 0x80]) := by decide
/-- V-R2: the sink is unchanged and the eight input bytes are lost. -/
theorem test_reset :
    (nextOf (exec (.reset .encoder)
      (encAt .run .repeatMode (.byte 0x41) (.byte 0x41) (.byte 0x42) 5 (openPorts [0x07])))).map
        (fun t => (encStatus t.enc, t.encPorts == openPorts [0x07])) = some (0x00, true) := by decide
/-- V-R4, V-R6. -/
theorem test_start_ignored :
    nextOf (exec (.start .encoder) (encAt .done .repeatMode .eoi .eoi .eoi 0 (openPorts [1]))) =
        some (encAt .done .repeatMode .eoi .eoi .eoi 0 (openPorts [1])) ∧
      nextOf (exec (.start .decoder) (decAt .litc 2 2 2 (openPorts [1]))) =
        some (decAt .litc 2 2 2 (openPorts [1])) := by decide +kernel
/-- V-R7: with nothing to do a block waits. -/
theorem test_idle_waits :
    (nextOf (step State.reset)).map (fun t => (encStatus t.enc, decStatus t.dec, t.turn)) =
      some (0, 0, .decoder) := by decide
/-- R47: an unanswered read holds the step. -/
theorem test_hold :
    nextOf (exec .decFetch (decAt .fetch 0 0 0 (ports [] .silent [] .accepting))) =
      some (decAt .fetch 0 0 0 (ports [] .silent [] .accepting)) := by decide +kernel

/-! The list-level functions (S3, S4, S5, V-E10, V-E13, V-D21). -/

theorem test_encodeList :
    encodeList [0x41] = [0x81, 0x41] ∧ encodeList [0x01, 0x02, 0x03] = [0x03, 0x01, 0x02, 0x03] ∧
      encodeList [0x01, 0x02, 0x02] = [0x01, 0x01, 0x82, 0x02] ∧
      encodeList [0x01, 0x01, 0x02, 0x03, 0x03] = [0x82, 0x01, 0x01, 0x02, 0x82, 0x03] := by decide
theorem test_encodeList_cap : encodeList (List.replicate 130 0xFF) = [0xFF, 0xFF, 0x83, 0xFF] := by
  decide +kernel
theorem test_decodeList :
    decodeList [0x83, 0x41, 0x02, 0x42, 0x43] = ([0x41, 0x41, 0x41, 0x42, 0x43], .done) ∧
      decodeList [0x01, 0x02, 0x03] = ([0x02], .malformed .truncatedLiteral) ∧
      decodeList [0x82, 0x41, 0x80, 0x41] = ([0x41, 0x41], .malformed .reservedLength) := by decide

/-! Witnesses: states and operands that meet the hypotheses of each statement, for each clause at a boundary. -/

theorem test_witness_ControlByteFieldsAgree :
    (1 : Len) ≠ 0 ∧ (127 : Len) ≠ 0 ∧ ctlLen 0x01 ≠ 0 ∧ ctlLen 0xFF ≠ 0 := by decide
theorem test_witness_RecordDecodesBack :
    (Instr.lit 1 [0x80]).isRecord = true ∧ (Instr.lit 1 [0x80]).wellFormed = true ∧
      (Instr.rep 127 0).isRecord = true ∧ (Instr.rep 127 0).wellFormed = true := by decide
theorem test_witness_DecodedRecordIsItsBytes : decode [0x01, 0x80] = .ok (.lit 1 [0x80], []) := by decide
theorem test_witness_ControlByteIsTheOpcode :
    (0x01 : Byte) ≤ 0x01 ∧ (0x01 : Byte) ≤ 0x7F ∧ (0x01 : Byte).toNat ≤ [(0 : Byte)].length ∧
      (0x7F : Byte) ≤ 0x7F ∧ ([] : List Byte).length < (0x7F : Byte).toNat ∧ (0x81 : Byte) ≤ 0x81 ∧
      (0x81 : Byte) ≤ 0xFF := by decide
theorem test_witness_ControlByteGivesRecordSize :
    decode [0xFF, 0x00] = .ok (.rep 127 0x00, []) ∧ (0xFF : Byte) &&& 0x7F ≠ 0 ∧
      (0xFF : Byte).getLsbD 7 = true ∧ decode [0x01, 0x00] = .ok (.lit 1 [0x00], []) ∧
      (0x01 : Byte) &&& 0x7F ≠ 0 ∧ (0x01 : Byte).getLsbD 7 = false := by decide

/-- The six classifying states of R80, one per operation, with the ports given. -/
def repEndState (p : Ports) : State := encAt .run .repeatMode (.byte 0xFF) (.byte 0) (.byte 0) 126 p
def repCapState (p : Ports) : State := encAt .run .repeatMode (.byte 0xFF) (.byte 0xFF) .eoi 126 p
def repContState (p : Ports) : State := encAt .run .repeatMode (.byte 0xFF) (.byte 0xFF) (.byte 1) 125 p
def litFlushState (p : Ports) : State := encAt .run .literalMode (.byte 0x7E) (.byte 1) (.byte 1) 126 p
def litCapState (p : Ports) : State := encAt .run .literalMode (.byte 0x7E) (.byte 1) (.byte 2) 126 p
def litContState (p : Ports) : State := encAt .run .literalMode (.byte 0x7E) (.byte 1) (.byte 2) 125 p

theorem test_witness_EncoderSelection :
    (repEndState Ports.unbound).enc.cur ≠ (repEndState Ports.unbound).enc.next ∧
      (repCapState Ports.unbound).enc.len + 1 = 127 ∧
      (repContState Ports.unbound).enc.len + 1 ≠ 127 ∧
      (litFlushState Ports.unbound).enc.next = (litFlushState Ports.unbound).enc.nn ∧
      (litCapState Ports.unbound).enc.len + 1 = 127 ∧
      (litContState Ports.unbound).enc.len + 1 ≠ 127 ∧
      selectEncoder (litCapState Ports.unbound) = some .encLitCap := by decide
theorem test_witness_DecoderSelection :
    [DecPhase.idle, .fetch, .repv, .repw, .litc, .done, .fault].map
        (fun ph => (decAt ph 0 0 0 (openPorts [])).dec.phase) =
      [.idle, .fetch, .repv, .repw, .litc, .done, .fault] := by decide
theorem test_witness_StepRunsDecodedInstruction :
    select .encoder (repEndState Ports.unbound) = some .encRepEnd ∧
      select .decoder State.reset = none ∧
      nextRecord (decAt .fetch 0 0 0 (openPorts [0x81, 0x41])) = some (.rep 1 0x41) ∧
      (repEndState Ports.unbound).agenda = [] ∧
      select (repEndState Ports.unbound).turn
        { repEndState Ports.unbound with turn := otherBlock .encoder } = some .encRepEnd ∧
      select State.reset.turn { State.reset with turn := otherBlock .encoder } = none ∧
      nextRecord (decAt .fetch 0 0 0 (openPorts [0x81])) = none ∧
      selectDecoder (decAt .fetch 0 0 0 (openPorts [0x81])) = some .decFetch ∧
      nextRecord State.reset = none ∧ selectDecoder State.reset = none := by decide
theorem test_witness_PlacedRecordRuns :
    decodeTableWord 8 0xFF = some (.rep 127 0) ∧ decodeTableWord 8 0x01 = some (.lit 1 [0]) := by
  decide +kernel

/-- A state in which ENC.START is selected, over these answers and the end of input. -/
def startState (a : List SrcAnswer) : State :=
  { State.reset with encPorts := { ports a .ended [] .accepting with start := true } }

theorem test_witness_EncStartLoadsWindow :
    (startState []).enc.phase = .idle ∧ (startState []).encPorts.start = true ∧
      (startState []).encPorts.source.bound = true ∧ (startState []).encPorts.sink.bound = true ∧
      (startState []).encPorts.source.answers = [] ∧ (startState []).encPorts.source.tail = .ended ∧
      (startState [.byte 1]).encPorts.source.answers = [.byte 1] ∧
      (startState [.byte 1, .byte 1]).encPorts.source.answers = [.byte 1, .byte 1] ∧
      (startState [.byte 1, .byte 2, .byte 3]).encPorts.source.answers = [.byte 1, .byte 2, .byte 3] ∧
      (startState [.fail]).encPorts.source.answers = [.fail] ∧
      (startState [.byte 1, .fail]).encPorts.source.answers = [.byte 1, .fail] ∧
      (startState [.byte 1, .byte 2, .fail]).encPorts.source.answers = [.byte 1, .byte 2, .fail] ∧
      State.reset.encPorts.source.bound = false := by decide
theorem test_witness_EncHaltIsDone :
    (encAt .run .repeatMode .eoi .eoi .eoi 0 (openPorts [])).enc.phase = .run ∧
      (encAt .run .repeatMode .eoi .eoi .eoi 0 (openPorts [])).enc.cur = .eoi ∧
      encInv (encAt .run .repeatMode .eoi .eoi .eoi 0 (openPorts [])).enc := by decide
theorem test_witness_EncRepContCounts :
    encRepContSelected (repContState (openPorts [])).enc = true ∧
      (repContState (openPorts [])).enc.len ≠ 127 ∧ sinkReady 0 (openPorts []).sink ∧
      sourceReady 1 (openPorts []).source ∧ (repContState (openPorts [])).enc.nn ≠ .eoi ∧
      (ports [.fail] .ended [] .silent).source.answers = [.fail] ∧
      sinkReady 0 (ports [.fail] .ended [] .silent).sink := by decide
theorem test_witness_EncRepEndFlushes :
    encRepEndSelected (repEndState (openPorts [])).enc = true ∧
      (repEndState (openPorts [])).enc.len ≠ 127 ∧ sinkReady 2 (openPorts []).sink ∧
      sourceReady 1 (openPorts []).source ∧
      sinkFailsAt 1 (ports [] .ended [.accept, .fail] .silent).sink ∧
      (ports [.fail] .ended [.accept, .accept] .silent).source.answers = [.fail] ∧
      sinkReady 2 (ports [.fail] .ended [.accept, .accept] .silent).sink := by decide
theorem test_witness_EncRepCapCuts :
    encRepCapSelected (repCapState (openPorts [])).enc = true ∧
      (repCapState (openPorts [])).enc.len + 1 = 127 ∧ (repCapState (openPorts [])).enc.nn = .eoi ∧
      sinkReady 2 (openPorts []).sink ∧ sinkFailsAt 0 (ports [] .ended [.fail] .silent).sink ∧
      encRepCapSelected (encAt .run .repeatMode (.byte 0) (.byte 0) (.byte 0) 126 (openPorts [])).enc = true ∧
      (encAt .run .repeatMode (.byte 0) (.byte 0) (.byte 0) 126 (openPorts [])).enc.nn ≠ .eoi := by decide
theorem test_witness_EncLitContAppends :
    encLitContSelected (litContState (openPorts [])).enc = true ∧
      (litContState (openPorts [])).enc.len ≠ 127 ∧ sinkReady 0 (openPorts []).sink ∧
      sourceReady 1 (openPorts []).source ∧ (litContState (openPorts [])).enc.nn ≠ .eoi := by decide
theorem test_witness_EncLitFlushFlushes :
    encLitFlushSelected (litFlushState (openPorts [])).enc = true ∧
      (litFlushState (openPorts [])).enc.len ≠ 127 ∧ sinkReady 128 (openPorts []).sink ∧
      sourceReady 1 (openPorts []).source ∧ (litFlushState (openPorts [])).enc.nn ≠ .eoi ∧
      sinkFailsAt 127 (ports [] .ended (List.replicate 127 .accept ++ [.fail]) .silent).sink ∧
      sinkReady 128 (ports [.fail] .ended (List.replicate 128 .accept) .silent).sink := by decide +kernel
theorem test_witness_EncLitCapCuts :
    encLitCapSelected (litCapState (openPorts [])).enc = true ∧
      (litCapState (openPorts [])).enc.len + 1 = 127 ∧ sinkReady 128 (openPorts []).sink ∧
      sourceReady 1 (openPorts []).source ∧ (litCapState (openPorts [])).enc.nn ≠ .eoi ∧
      sinkFailsAt 0 (ports [] .ended [.fail] .silent).sink := by decide
theorem test_witness_EncoderOperationsFrame :
    isEncoderOp .encRepEnd = true ∧
      (nextOf (exec .encRepEnd (repEndState (openPorts [])))).isSome = true := by decide
theorem test_witness_EncoderRegistersFrame :
    (nextOf (exec .encRepEnd (repEndState (ports [] .ended [.fail] .accepting)))).map
        (fun t => t.enc.phase) = some .fault ∧
      (nextOf (exec .encRepCap (repCapState (openPorts [])))).map (fun t => t.enc.phase) = some .run := by
  decide
theorem test_witness_EncoderWritesItsRecord :
    (nextOf (exec .encRepCap (repCapState (openPorts [])))).map
        (fun t => (t.enc.phase, t == repCapState (openPorts []))) = some (.run, false) := by decide +kernel
theorem test_witness_NoReadAfterMarker :
    isClassifyingOp .encRepCap = true ∧ (repCapState (openPorts [])).enc.nn = .eoi ∧
      (nextOf (exec .encRepCap (repCapState (openPorts [])))).isSome = true := by decide

/-- A state in which DEC.START is selected. -/
def decStartState (p : Ports) : State := decAt .idle 0 0 0 { p with start := true }

theorem test_witness_DecStartFetches :
    (decStartState (openPorts [])).dec.phase = .idle ∧ (decStartState (openPorts [])).decPorts.start = true ∧
      (decStartState (openPorts [])).decPorts.source.bound = true ∧
      (decStartState (openPorts [])).decPorts.sink.bound = true ∧
      (decStartState Ports.unbound).decPorts.source.bound = false := by decide
theorem test_witness_DecFetchParsesControl :
    (decAt .fetch 0 0 0 (openPorts [0xFF])).dec.phase = .fetch ∧
      (openPorts [0xFF]).source.answers = [.byte 0xFF] ∧ (openPorts []).source.answers = [] ∧
      (openPorts []).source.tail = .ended ∧
      (ports [.fail] .ended [] .accepting).source.answers = [.fail] := by decide
theorem test_witness_DecRepValReadsValue : (decAt .repv 0x81 1 0 (openPorts [0])).dec.phase = .repv := by decide
theorem test_witness_DecRepOutWritesValue :
    (decAt .repw 0x81 1 0 (openPorts [])).dec.phase = .repw ∧
      (decAt .repw 0x81 1 0 (openPorts [])).dec.cnt ≠ 0 ∧ sinkReady 1 (openPorts []).sink ∧
      (ports [] .ended [.fail] .silent).sink.answers = [.fail] := by decide
theorem test_witness_DecLitCopyCopies :
    (decAt .litc 0x01 1 0 (openPorts [0])).dec.phase = .litc ∧
      (decAt .litc 0x01 1 0 (openPorts [0])).dec.cnt ≠ 0 ∧
      (openPorts [0]).source.answers = [.byte 0] ∧ sinkReady 1 (openPorts [0]).sink := by decide
theorem test_witness_ReservedControlByteFaults :
    (decAt .fetch 0 0 0 (openPorts [0x80, 1])).dec.phase = .fetch ∧
      (openPorts [0x80, 1]).source.answers = [.byte 0x80, .byte 1] ∧
      (openPorts [0x00]).source.answers = [.byte 0x00] := by decide
theorem test_witness_RepeatRecordEffect :
    (decAt .fetch 0 0 0 (openPorts [0x81, 5])).dec.phase = .fetch ∧ (1 : Len) ≠ 0 ∧
      (openPorts [0x81, 5]).source.answers = [.byte (0x80 ||| (1 : Len).setWidth 8), .byte 5] ∧
      sinkReady 1 (openPorts [0x81, 5]).sink ∧
      sinkFailsAt 0 (ports [.byte 0x81, .byte 5] .ended [.fail] .silent).sink ∧
      (127 : Len).toNat = 127 := by decide
theorem test_witness_LiteralRecordEffect :
    (decAt .fetch 0 0 0 (openPorts [0x01, 5])).dec.phase = .fetch ∧ (1 : Len) ≠ 0 ∧
      [(5 : Byte)].length = (1 : Len).toNat ∧
      (openPorts [0x01, 5]).source.answers = .byte ((1 : Len).setWidth 8) :: ([(5 : Byte)].map .byte ++ []) ∧
      sinkReady 1 (openPorts [0x01, 5]).sink ∧
      sinkFailsAt 0 (ports [.byte 0x01, .byte 5] .ended [.fail] .silent).sink ∧
      sinkReady 0 (ports [.byte 0x01, .fail, .byte 5] .ended [] .silent).sink ∧
      (openPorts [0x01]).source.tail = .ended := by decide
theorem test_witness_RecordIsItsOperations :
    nextRecord (decAt .fetch 0 0 0 (ports [.byte 0x81, .fail, .byte 5] .ended [] .silent)) =
      some (.rep 1 5) := by decide
theorem test_witness_DecoderInstructionsFrame :
    isDecoderInstr (.rep 1 5) = true ∧ isDecoderInstr .decFetch = true ∧
      (nextOf (exec .decFetch (decAt .fetch 0 0 0 (openPorts [0x81])))).isSome = true := by decide
theorem test_witness_DecoderRegistersFrame :
    isDecoderOp .decLitCopy = true ∧
      (nextOf (exec .decLitCopy
        (decAt .litc 1 1 0 (ports [.byte 1] .ended [.fail] .accepting)))).map
          (fun t => (t.dec.phase, t.dec.cause)) = some (.fault, 2) := by decide
theorem test_witness_CountersOutOfRangeStop :
    encRepEndSelected (encAt .run .repeatMode (.byte 0) .eoi .eoi 127 (openPorts [])).enc = true ∧
      encRepContSelected (encAt .run .repeatMode (.byte 0) (.byte 0) .eoi 127 (openPorts [])).enc = true ∧
      encLitFlushSelected (encAt .run .literalMode (.byte 0) .eoi .eoi 127 (openPorts [])).enc = true ∧
      encLitContSelected (encAt .run .literalMode (.byte 0) (.byte 1) .eoi 127 (openPorts [])).enc = true ∧
      (decAt .repw 0x81 0 0 (openPorts [])).dec.cnt = 0 ∧ (decAt .litc 1 0 0 (openPorts [])).dec.cnt = 0 := by
  decide
theorem test_witness_StartOnlyInIdle :
    (encAt .run .repeatMode .eoi .eoi .eoi 0 (openPorts [])).enc.phase ≠ .idle ∧
      (decAt .fetch 0 0 0 (openPorts [])).dec.phase ≠ .idle ∧ State.reset.enc.phase = .idle ∧
      State.reset.dec.phase = .idle ∧ State.reset.encPorts.start = false ∧
      State.reset.decPorts.start = false := by decide
theorem test_witness_StartBeginsInvocation :
    (encAt .idle .literalMode .eoi .eoi .eoi 0 (openPorts [])).enc.phase = .idle ∧
      (openPorts []).source.bound = true ∧ (openPorts []).sink.bound = true ∧
      sourceReady 3 (openPorts []).source ∧ nextSym (openPorts []).source = .eoi ∧
      sourceReady 3 (openPorts [1]).source ∧ nextSym (openPorts [1]).source ≠ .eoi ∧
      (decAt .idle 0 0 0 (openPorts [])).dec.phase = .idle := by decide
theorem test_witness_DoneAndFaultAbsorb :
    (encAt .done .repeatMode .eoi .eoi .eoi 0 (openPorts [])).enc.phase = .done ∧
      (decAt .fault 0 0 0 (openPorts [])).dec.phase = .fault ∧
      (nextOf (step (encAt .done .repeatMode .eoi .eoi .eoi 0 (openPorts [])))).isSome = true ∧
      (nextOf (step { decAt .fault 0 0 0 (openPorts []) with agenda := [.start .decoder] })).isSome =
        true := by decide
theorem test_witness_EncoderNeverMalformed :
    (nextOf (exec .encRepEnd (repEndState (ports [] .ended [.fail] .accepting)))).map
        (fun t => (t.enc.phase, t.enc.cause)) = some (.fault, 2) ∧
      (nextOf (exec .encStart { State.reset with encPorts := { Ports.unbound with start := true } })).map
        (fun t => (t.enc.phase, t.enc.cause)) = some (.fault, 1) := by decide
theorem test_witness_UnansweredPortHolds :
    (ports [] .silent [] .silent).source.answers = [] ∧ (ports [] .silent [] .silent).source.tail = .silent ∧
      (ports [] .silent [] .silent).sink.answers = [] ∧ (ports [] .silent [] .silent).sink.tail = .silent ∧
      encRepContSelected (repContState (ports [] .silent [] .silent)).enc = true ∧
      (repContState (ports [] .silent [] .silent)).enc.nn ≠ .eoi ∧
      encLitContSelected (litContState (ports [] .silent [] .silent)).enc = true ∧
      encRepEndSelected (repEndState (ports [] .silent [] .silent)).enc = true ∧
      encRepCapSelected (repCapState (ports [] .silent [] .silent)).enc = true ∧
      encLitFlushSelected (litFlushState (ports [] .silent [] .silent)).enc = true ∧
      encLitCapSelected (litCapState (ports [] .silent [] .silent)).enc = true ∧
      (decAt .repw 0x81 1 0 (ports [] .silent [] .silent)).dec.cnt ≠ 0 ∧
      (decAt .litc 0x01 1 0 (ports [.byte 7] .silent [] .silent)).decPorts.source.answers = [.byte 7] ∧
      (ports [.byte 1, .byte 2] .silent [] .accepting).source.answers = [.byte 1, .byte 2] := by decide
/-- The half-answered flushes: the last write of each unanswered, and every write answered but the read. -/
theorem test_witness_UnansweredPortHolds_flush :
    encRepEndSelected (repEndState (ports [] .silent [.accept] .silent)).enc = true ∧
      (ports [] .silent [.accept] .silent).sink.answers = List.replicate 1 .accept ∧
      encLitFlushSelected (litFlushState (ports [] .silent (List.replicate 127 .accept) .silent)).enc =
        true ∧
      127 < (litFlushState (openPorts [])).enc.len.toNat + 2 ∧
      sinkReady 128 (ports [] .silent (List.replicate 128 .accept) .silent).sink ∧
      (litCapState (openPorts [])).enc.nn ≠ .eoi ∧ (litFlushState (openPorts [])).enc.nn ≠ .eoi ∧
      (repEndState (openPorts [])).enc.nn ≠ .eoi ∧
      encRepCapSelected (encAt .run .repeatMode (.byte 0) (.byte 0) (.byte 0) 126 (openPorts [])).enc =
        true := by decide +kernel
/-- A state inside a run that meets the invariant, and a step from it. -/
theorem test_witness_StepKeepsInvariant :
    machineInv (repEndState (openPorts [])) ∧
      (nextOf (step (repEndState (openPorts [])))).isSome = true := by
  refine ⟨⟨?_, ?_, ?_⟩, ?_⟩ <;> decide +kernel
theorem test_witness_StepNeverStops :
    machineInv (litCapState (openPorts [])) ∧ nextRebindsInUse (litCapState (openPorts [])) = false := by
  refine ⟨⟨?_, ?_, ?_⟩, ?_⟩ <;> decide +kernel
theorem test_witness_RebindInUseRefused :
    nextRebindsInUse { repEndState (openPorts []) with agenda := [.bindSink .encoder [] .accepting] } =
        true ∧
      nextRebindsInUse { repEndState (openPorts []) with agenda := [.unbindSource .decoder] } = false := by
  decide
/-- Binding in IDLE, and answers for a port on which the decoder holds. -/
theorem test_witness_RebindInUseRefused_accepted :
    portsInUse .encoder State.reset = false ∧ portsInUse .decoder State.reset = false ∧
      portsInUse .encoder (encAt .done .repeatMode .eoi .eoi .eoi 0 (openPorts [])) = false ∧
      portsInUse .decoder (decAt .fault 0 0 0 (openPorts [])) = false ∧
      (decAt .fetch 0 0 0 (ports [] .silent [] .silent)).dec.phase = .fetch ∧
      (decAt .repw 0x81 1 0 (ports [] .silent [] .silent)).dec.cnt ≠ 0 ∧
      (ports [] .silent [] .silent).source.tail = .silent ∧ (openPorts []).source.tail = .ended ∧
      (ports [] .silent [] .silent).sink.tail = .silent ∧ (openPorts []).sink.tail = .accepting := by decide
/-- R131, R163: the host binds a source in IDLE, of one block and not of the other. -/
theorem test_bindSource :
    ((nextOf (step { State.reset with agenda := [.bindSource .decoder [.byte 1] .ended] })).map
        fun t => (t.decPorts.source.bound, t.decPorts.source.answers, t.encPorts.source.bound)) =
      some (true, [.byte 1], false) := by decide
theorem test_witness_StreamsOnlyGrow :
    (nextOf (step (repEndState (openPorts [])))).map (fun t => t.encPorts.sink.out) = some [0xFF, 0xFF] ∧
      (repEndState (openPorts [])).agenda = [] := by decide
theorem test_witness_BlocksAreIndependent :
    (repEndState (openPorts [])).enc = { repEndState (openPorts []) with free := 7 }.enc ∧
      (nextOf (stepBlock .encoder (repEndState (openPorts [])))).isSome = true ∧
      (nextOf (stepBlock .decoder (decAt .fetch 0 0 0 (openPorts [])))).isSome = true := by decide +kernel
theorem test_witness_EndOfInputDrains :
    encInv (encAt .run .repeatMode .eoi .eoi .eoi 0 (openPorts [])).enc ∧
      encInv (encAt .run .repeatMode (.byte 1) .eoi .eoi 126 (openPorts [])).enc ∧
      encInv (encAt .run .literalMode (.byte 1) .eoi .eoi 126 (openPorts [])).enc := by
  refine ⟨?_, ?_, ?_⟩ <;> decide
theorem test_witness_DecoderAlwaysProgresses :
    (nextOf (stepBlock .decoder (decAt .repw 0x81 1 0 (openPorts [])))).map
        (fun t => (t == decAt .repw 0x81 1 0 (openPorts []), t.dec.phase)) = some (false, .fetch) := by
  decide +kernel
theorem test_witness_EncoderAlwaysProgresses :
    encInv (repEndState (openPorts [])).enc ∧ (repEndState (openPorts [])).enc.phase = .run ∧
      (nextOf (stepBlock .encoder (repEndState (openPorts [])))).map
          (fun t => t == repEndState (openPorts [])) = some false := by decide +kernel
theorem test_witness_EncoderStepComputesEncode :
    encInv (repEndState (openPorts [])).enc ∧ (repEndState (openPorts [])).encPorts.source.tail = .ended ∧
      (nextOf (stepBlock .encoder (repEndState (openPorts [])))).map (fun t => t.enc.phase) = some .run := by
  decide
theorem test_witness_DecoderStepComputesDecode :
    decInv (decAt .repw 0x81 1 0 (openPorts [])).dec ∧
      (decAt .repw 0x81 1 0 (openPorts [])).decPorts.source.tail = .ended ∧
      (nextOf (stepBlock .decoder (decAt .repw 0x81 1 0 (openPorts [])))).map (fun t => t.dec.cause) =
        some 0 := by decide
theorem test_witness_EncoderInvocationEncodes :
    (encAt .idle .literalMode .eoi .eoi .eoi 0 (openPorts [1])).enc.phase = .idle ∧
      sourceHolds [1] (openPorts [1]).source ∧ sinkOpen (openPorts [1]).sink ∧
      sourceHolds [] (openPorts []).source := by decide
theorem test_witness_DecoderInvocationDecodes :
    (decAt .idle 0 0 0 (openPorts [0x80])).dec.phase = .idle ∧
      sourceHolds [0x80] (openPorts [0x80]).source ∧ sinkOpen (openPorts [0x80]).sink ∧
      decodeList [0x80] = ([], .malformed .reservedLength) ∧ decodeList [] = ([], .done) := by decide
theorem test_witness_DoneExactlyOnValidStreams :
    decodeList [0x81, 5] = ([5], .done) ∧ isDataRecord (.rep 1 5) = true := by decide
theorem test_witness_RoundTrip :
    (decAt .idle 0 0 0 (openPorts [0x81, 7])).dec.phase = .idle ∧
      sourceHolds (encodeList [7]) (openPorts [0x81, 7]).source ∧ sinkOpen (openPorts [0x81, 7]).sink ∧
      encodeList [7] ≠ [0x01, 7] := by decide
theorem test_witness_WholeInputOutcomes :
    noAdjacentEqual [1, 2] = true ∧ 2 ≤ ([1, 2] : List Byte).length ∧
      runStream 1 5 = [0x81, 5] ∧ rawStream [1, 2] = [2, 1, 2] := by decide

end Sys2Proof.Tests
end

/-! PROOFS, family 00_scope: what a step runs, the frame of each block's operations, the holds at silent ports,
and the independence of the two blocks. -/

namespace Sys2Proof.Machine

/-! ### The step (R6): the next event, or a turn of the block whose turn it is. -/

theorem step_of_event {s : State} {ev : Event} {rest : List Event} (h : s.agenda = ev :: rest) :
    step s = perform ev { s with agenda := rest } := by
  rw [step, h]

theorem step_of_no_event {s : State} (h : s.agenda = []) : step s = freeTurn s := by
  rw [step, h]

theorem stepBlock_of_selected {b : Block} {s : State} {i : Instr} (h : select b s = some i) :
    stepBlock b s = exec i s := by
  rw [stepBlock, h]

theorem stepBlock_of_none {b : Block} {s : State} (h : select b s = none) :
    stepBlock b s = .next s := by
  rw [stepBlock, h]

theorem stepRecord_of_record {s : State} {i : Instr} (h : nextRecord s = some i) :
    stepRecord s = exec i s := by
  rw [stepRecord, h]

theorem stepRecord_of_none {s : State} (h : nextRecord s = none) :
    stepRecord s = stepBlock .decoder s := by
  rw [stepRecord, h]

/-- Settles O10: each clause is the equation of `step` for its event and the equation of the selection. -/
theorem stepRunsDecodedInstruction : Obligations.StepRunsDecodedInstruction := by
  intro s rest
  refine ⟨fun b i ha hs => ?_, fun b ha hs => ?_, fun i ha hr => ?_, fun i ha hr hs => ?_,
    fun ha hr hs => ?_, fun b ha => step_of_event ha, fun b ha => step_of_event ha,
    fun i ha hs => ?_, fun ha hs => ?_⟩
  · exact (step_of_event ha).trans (stepBlock_of_selected hs)
  · exact (step_of_event ha).trans (stepBlock_of_none hs)
  · exact (step_of_event ha).trans (stepRecord_of_record hr)
  · exact (step_of_event ha).trans ((stepRecord_of_none hr).trans (stepBlock_of_selected hs))
  · exact (step_of_event ha).trans ((stepRecord_of_none hr).trans (stepBlock_of_none hs))
  · exact (step_of_no_event ha).trans (stepBlock_of_selected hs)
  · exact (step_of_no_event ha).trans (stepBlock_of_none hs)

/-! ### A placed record (log entry 10). -/

/-- A source whose answers are these bytes, without a failure, has them next. -/
theorem upcoming_of_bytes {src : Source} {bs : List Byte} (h : src.answers = bs.map .byte) :
    upcoming src = bs := by
  rw [upcoming, h, List.filterMap_map]
  exact List.filterMap_some

theorem decode_of_decodeTableWord {nbits w : Nat} {i : Instr} (h : decodeTableWord nbits w = some i) :
    ∃ rest, decode (tableBytes nbits w) = .ok (i, rest) := by
  unfold decodeTableWord at h
  split at h
  · cases h
  · split at h
    · rename_i rest hd
      cases h
      exact ⟨rest, hd⟩
    · cases h

/-- At a record boundary the next record is the one at the front of the source's bytes (R7, R66). -/
theorem nextRecord_of_decode {s : State} {bs rest : List Byte} {i : Instr} (hp : s.dec.phase = .fetch)
    (hb : s.decPorts.source.answers = bs.map .byte) (hd : decode bs = .ok (i, rest)) :
    nextRecord s = some i := by
  simp only [nextRecord, hp, upcoming_of_bytes hb, hd]

/-- Settles O11: the placed bytes are the source's, so the record event finds the decoded record. -/
theorem placedRecordRuns : Obligations.PlacedRecordRuns := by
  intro s nbits w i h
  obtain ⟨rest, hd⟩ := decode_of_decodeTableWord h
  have next : ∀ a, nextRecord { s.withFetchWord nbits w with agenda := a } = some i :=
    fun _ => nextRecord_of_decode rfl rfl hd
  exact ⟨next _, (step_of_event (ev := .record) rfl).trans (stepRecord_of_record (next _))⟩

/-! ### What no port action changes: the bindings, the later answers, the start command (R50, R131). -/

/-- The parts of a block's ports that no port action changes. -/
structure SameEnds (p p' : Ports) : Prop where
  sourceBound : p'.source.bound = p.source.bound
  sinkBound : p'.sink.bound = p.sink.bound
  sourceTail : p'.source.tail = p.source.tail
  sinkTail : p'.sink.tail = p.sink.tail
  start : p'.start = p.start

theorem SameEnds.refl (p : Ports) : SameEnds p p := ⟨rfl, rfl, rfl, rfl, rfl⟩

theorem SameEnds.trans {p₁ p₂ p₃ : Ports} (h : SameEnds p₁ p₂) (h' : SameEnds p₂ p₃) :
    SameEnds p₁ p₃ :=
  ⟨h'.sourceBound.trans h.sourceBound, h'.sinkBound.trans h.sinkBound,
    h'.sourceTail.trans h.sourceTail, h'.sinkTail.trans h.sinkTail, h'.start.trans h.start⟩

/-- However a sequence of port actions begun on `p` ends, the ends of `p` are the same. -/
def Act.KeepsEnds {α : Type} (p : Ports) : Act α → Prop
  | .done _ p' => SameEnds p p'
  | .raised _ p' => SameEnds p p'
  | .pending => True

/-- Sequencing keeps the ends when both parts do: the one rule for every pseudocode. -/
theorem Act.KeepsEnds.andThen {α β : Type} {p : Ports} {x : Act α} {f : α → Ports → Act β}
    (hx : x.KeepsEnds p) (hf : ∀ a p', (f a p').KeepsEnds p') : (x.andThen f).KeepsEnds p := by
  cases x with
  | done a p₁ =>
    have hf₁ := hf a p₁
    rw [andThen_done]
    cases hy : f a p₁ with
    | done b p₂ => rw [hy] at hf₁; exact SameEnds.trans hx hf₁
    | raised k p₂ => rw [hy] at hf₁; exact SameEnds.trans hx hf₁
    | pending => trivial
  | raised k p₁ => exact hx
  | pending => trivial

theorem srcRead_keepsEnds (p : Ports) : (srcRead p).KeepsEnds p := by
  obtain ⟨b, r, -, e⟩ | ⟨r, -, e⟩ | ⟨-, -, e⟩ | ⟨-, -, e⟩ := srcRead_cases p <;> rw [e]
  · exact ⟨rfl, rfl, rfl, rfl, rfl⟩
  · exact ⟨rfl, rfl, rfl, rfl, rfl⟩
  · exact ⟨rfl, rfl, rfl, rfl, rfl⟩
  · trivial

theorem srcReadAfter_keepsEnds (x : Sym) (p : Ports) : (srcReadAfter x p).KeepsEnds p := by
  cases x with
  | byte b => exact srcRead_keepsEnds p
  | eoi => exact SameEnds.refl p

theorem snkWrite_keepsEnds (b : Byte) (p : Ports) : (snkWrite b p).KeepsEnds p := by
  obtain ⟨r, e, -, -⟩ | ⟨r, -, e⟩ | ⟨-, -, e⟩ := snkWrite_cases b p <;> rw [e]
  · exact ⟨rfl, rfl, rfl, rfl, rfl⟩
  · exact ⟨rfl, rfl, rfl, rfl, rfl⟩
  · trivial

theorem snkWriteMany_keepsEnds (bs : List Byte) (p : Ports) : (snkWriteMany bs p).KeepsEnds p := by
  induction bs generalizing p with
  | nil => exact SameEnds.refl p
  | cons b bs ih => exact (snkWrite_keepsEnds b p).andThen fun _ p' => ih p'

theorem shift_keepsEnds (e : Encoder) (p : Ports) : (shift e p).KeepsEnds p :=
  (srcReadAfter_keepsEnds e.nn p).andThen fun _ p' => SameEnds.refl p'

theorem emitThenShift_keepsEnds (bs : List Byte) (e : Encoder) (p : Ports) :
    (emitThenShift bs e p).KeepsEnds p :=
  (snkWriteMany_keepsEnds bs p).andThen fun _ p' => shift_keepsEnds e p'

theorem thenWrite_keepsEnds {β : Type} {f : β → β} {x : Act β} {p : Ports} (h : x.KeepsEnds p) :
    (thenWrite f x).KeepsEnds p :=
  h.andThen fun _ p' => SameEnds.refl p'

theorem encLoadWindow_keepsEnds (e : Encoder) (c : Sym) (p : Ports) :
    (encLoadWindow e c p).KeepsEnds p :=
  (srcRead_keepsEnds p).andThen fun n p' =>
    (srcReadAfter_keepsEnds n p').andThen fun _ p'' => SameEnds.refl p''

theorem encStartAct_keepsEnds (e : Encoder) (p : Ports) : (encStartAct e p).KeepsEnds p := by
  unfold encStartAct
  split
  · exact SameEnds.refl p
  split
  · exact SameEnds.refl p
  refine (srcRead_keepsEnds p).andThen fun c p' => ?_
  cases c with
  | byte b => exact encLoadWindow_keepsEnds e _ p'
  | eoi => exact SameEnds.refl p'

theorem decStartAct_keepsEnds (d : Decoder) (p : Ports) : (decStartAct d p).KeepsEnds p := by
  unfold decStartAct
  split
  · exact SameEnds.refl p
  split <;> exact SameEnds.refl p

theorem decFetchAct_keepsEnds (d : Decoder) (p : Ports) : (decFetchAct d p).KeepsEnds p :=
  (srcRead_keepsEnds p).andThen fun c p' => by cases c <;> exact SameEnds.refl p'

theorem decRepValAct_keepsEnds (d : Decoder) (p : Ports) : (decRepValAct d p).KeepsEnds p :=
  (srcRead_keepsEnds p).andThen fun c p' => by cases c <;> exact SameEnds.refl p'

theorem decLitCopyAct_keepsEnds (d : Decoder) (p : Ports) : (decLitCopyAct d p).KeepsEnds p := by
  refine (srcRead_keepsEnds p).andThen fun c p' => ?_
  cases c with
  | byte b => exact (snkWrite_keepsEnds b p').andThen fun _ p'' => SameEnds.refl p''
  | eoi => exact SameEnds.refl p'

/-- An operation whose result is `r`, begun on the ports `p`, keeps their ends if it happens. -/
def ResultKeepsEnds {β : Type} (p : Ports) (r : Option (β × Ports)) : Prop :=
  ∀ b p', r = some (b, p') → SameEnds p p'

theorem resultKeepsEnds_some {β : Type} {p p' : Ports} {b : β} (h : SameEnds p p') :
    ResultKeepsEnds p (some (b, p')) := by
  rintro _ _ ⟨⟩
  exact h

theorem finish_keepsEnds {β : Type} {raise : FaultKind → β → β} {z : β} {x : Act β} {p : Ports}
    (h : x.KeepsEnds p) : ResultKeepsEnds p (finish raise z x) := by
  cases x with
  | done b p' => exact resultKeepsEnds_some h
  | raised k p' => exact resultKeepsEnds_some h
  | pending => rintro _ _ ⟨⟩

/-! ### The operations of a block in one shape: a test and a result, both of that block and its ports alone. -/

/-- The line "Selected when" of each operation of the encoder (R80). -/
def encoderSelected (i : Instr) (e : Encoder) (p : Ports) : Bool :=
  if i = .encStart then encStartSelected e p
  else if i = .encHalt then encHaltSelected e
  else classifyingSelected i e

/-- What each operation of the encoder makes of the registers and the ports (R82 to R90). -/
def encoderOp (i : Instr) (e : Encoder) (p : Ports) : Option (Encoder × Ports) :=
  if i = .encStart then encStartOp e p
  else if i = .encHalt then some (encHaltOp e, p)
  else
    finish encRaise (frozenRegisters i e)
      (thenWrite (writtenRegisters i e) (emitThenShift (recordEmitted i e) (frozenRegisters i e) p))

theorem isEncoderOp_cases {i : Instr} (h : isEncoderOp i = true) :
    i = .encStart ∨ i = .encHalt ∨ i ≠ .encStart ∧ i ≠ .encHalt ∧ isClassifyingOp i = true := by
  cases i <;> simp_all [isEncoderOp, isClassifyingOp]

/-- The one shape of the eight operations of the encoder. -/
theorem exec_encoderOp {i : Instr} (h : isEncoderOp i = true) (s : State) :
    exec i s =
      whenSelected (encoderSelected i s.enc s.encPorts) (classifyingFits i s.enc) .lenOutOfRange
        (putEncoder s (encoderOp i s.enc s.encPorts)) := by
  obtain rfl | rfl | ⟨hs, hh, hc⟩ := isEncoderOp_cases h
  · rfl
  · rfl
  · rw [exec_classifying hc, encoderSelected, encoderOp, if_neg hs, if_neg hh, if_neg hs, if_neg hh]

/-- The line "Selected when" of each operation of the decoder (R110). -/
def decoderSelected (i : Instr) (d : Decoder) (p : Ports) : Bool :=
  match i with
  | .decStart => decStartSelected d p
  | .decFetch => decFetchSelected d
  | .decRepVal => decRepValSelected d
  | .decRepOut => decRepOutSelected d
  | .decLitCopy => decLitCopySelected d
  | _ => false

/-- Is a payload unit owed, for the two operations that count one down (R16)? -/
def decoderFits (i : Instr) (d : Decoder) : Bool :=
  match i with
  | .decRepOut | .decLitCopy => cntOwed d
  | _ => true

/-- What each operation of the decoder makes of the registers and the ports (R111 to R115). -/
def decoderOp (i : Instr) (d : Decoder) (p : Ports) : Option (Decoder × Ports) :=
  match i with
  | .decStart => decStartOp d p
  | .decFetch => decFetchOp d p
  | .decRepVal => decRepValOp d p
  | .decRepOut => decRepOutOp d p
  | .decLitCopy => decLitCopyOp d p
  | _ => none

/-- The one shape of the five operations of the decoder. -/
theorem exec_decoderOp {i : Instr} (h : isDecoderOp i = true) (s : State) :
    exec i s =
      whenSelected (decoderSelected i s.dec s.decPorts) (decoderFits i s.dec) .cntUnderflow
        (putDecoder s (decoderOp i s.dec s.decPorts)) := by
  cases i with
  | decStart | decFetch | decRepVal | decRepOut | decLitCopy => rfl
  | _ => exact absurd h (by simp [isDecoderOp])

/-- The one shape of the records: so many operations of the decoder (R116 to R118). -/
theorem exec_record {i : Instr} (h : i.isRecord = true) (s : State) :
    exec i s =
      whenSelected (nextRecord s == some i) true .cntUnderflow
        (putDecoder s (some (decRun (recordSteps i) s.dec s.decPorts))) := by
  cases i with
  | rsvLit0 | rsvRep0 | lit | rep => rfl
  | _ => exact absurd h (by simp [Instr.isRecord])

/-! ### Frames (R2, R27, R50). -/

/-- The ports an operation begins with: the start operation of the block takes the command first (R161). -/
def commandTaken (startOp i : Instr) (p : Ports) : Ports := if i = startOp then startTaken p else p

theorem encoderOp_keepsEnds (i : Instr) (e : Encoder) (p : Ports) :
    ResultKeepsEnds (commandTaken .encStart i p) (encoderOp i e p) := by
  unfold encoderOp commandTaken
  split
  · exact finish_keepsEnds (encStartAct_keepsEnds e _)
  split
  · exact resultKeepsEnds_some (SameEnds.refl p)
  · exact finish_keepsEnds (thenWrite_keepsEnds (emitThenShift_keepsEnds _ _ p))

theorem decoderOp_keepsEnds (i : Instr) (d : Decoder) (p : Ports) :
    ResultKeepsEnds (commandTaken .decStart i p) (decoderOp i d p) := by
  cases i with
  | decStart => exact finish_keepsEnds (decStartAct_keepsEnds d _)
  | decFetch => exact finish_keepsEnds (decFetchAct_keepsEnds d p)
  | decRepVal => exact finish_keepsEnds (decRepValAct_keepsEnds d p)
  | decRepOut =>
    exact finish_keepsEnds ((snkWrite_keepsEnds d.val p).andThen fun _ p' => SameEnds.refl p')
  | decLitCopy => exact finish_keepsEnds (decLitCopyAct_keepsEnds d p)
  | _ => rintro _ _ ⟨⟩

theorem decPhaseOp_keepsEnds (d : Decoder) (p : Ports) : ResultKeepsEnds p (decPhaseOp d p) := by
  unfold decPhaseOp
  split
  · exact decoderOp_keepsEnds .decFetch d p
  · exact decoderOp_keepsEnds .decRepVal d p
  · exact decoderOp_keepsEnds .decRepOut d p
  · exact decoderOp_keepsEnds .decLitCopy d p
  all_goals exact resultKeepsEnds_some (SameEnds.refl p)

theorem decRun_keepsEnds (k : Nat) (d : Decoder) (p : Ports) : SameEnds p (decRun k d p).2 := by
  induction k generalizing d p with
  | zero => exact SameEnds.refl p
  | succ k ih =>
    rw [decRun]
    split
    · rename_i d' p' h
      exact (decPhaseOp_keepsEnds d p d' p' h).trans (ih d' p')
    · exact SameEnds.refl p

/-- The ports after an operation with result `r`; the same where it does not happen yet (R47). -/
def portsAfter {β : Type} (p : Ports) (r : Option (β × Ports)) : Ports := (r.map Prod.snd).getD p

theorem putEncoder_portsAfter (s : State) (r : Option (Encoder × Ports)) :
    (putEncoder s r).encPorts = portsAfter s.encPorts r := by
  cases r <;> rfl

theorem putDecoder_portsAfter (s : State) (r : Option (Decoder × Ports)) :
    (putDecoder s r).decPorts = portsAfter s.decPorts r := by
  cases r <;> rfl

/-- What an operation leaves of its block's ports. -/
theorem portsAfter_frame {β : Type} {startOp i : Instr} {p : Ports} {r : Option (β × Ports)}
    (h : ResultKeepsEnds (commandTaken startOp i p) r) :
    (portsAfter p r).source.bound = p.source.bound ∧ (portsAfter p r).sink.bound = p.sink.bound ∧
      (portsAfter p r).source.tail = p.source.tail ∧ (portsAfter p r).sink.tail = p.sink.tail ∧
      (i ≠ startOp → (portsAfter p r).start = p.start) := by
  cases r with
  | none => simp [portsAfter]
  | some bp =>
    obtain ⟨b, p'⟩ := bp
    obtain ⟨h₁, h₂, h₃, h₄, h₅⟩ := h b p' rfl
    by_cases hi : i = startOp
    · simp only [commandTaken, if_pos hi] at h₁ h₂ h₃ h₄
      exact ⟨h₁, h₂, h₃, h₄, fun hn => absurd hi hn⟩
    · simp only [commandTaken, if_neg hi] at h₁ h₂ h₃ h₄ h₅
      exact ⟨h₁, h₂, h₃, h₄, fun _ => h₅⟩

/-- Settles O20: an operation of the encoder writes back the encoder and its ports, and keeps their ends. -/
theorem encoderOperationsFrame : Obligations.EncoderOperationsFrame := by
  intro i s t hi hx
  rw [exec_encoderOp hi, whenSelected_next] at hx
  obtain ⟨-, -, rfl⟩ := hx
  rw [putEncoder_portsAfter]
  exact ⟨putEncoder_dec .., putEncoder_decPorts .., putEncoder_agenda .., putEncoder_turn ..,
    putEncoder_free .., portsAfter_frame (encoderOp_keepsEnds i s.enc s.encPorts)⟩

/-- What the decoder executes writes back the decoder and its ports, and keeps their ends. -/
theorem exec_decoderInstr_result {i : Instr} {s t : State} (hi : isDecoderInstr i = true)
    (hx : exec i s = .next t) :
    ∃ r, t = putDecoder s r ∧ ResultKeepsEnds (commandTaken .decStart i s.decPorts) r := by
  rcases Bool.or_eq_true_iff.mp hi with h | h
  · rw [exec_decoderOp h, whenSelected_next] at hx
    obtain ⟨-, -, rfl⟩ := hx
    exact ⟨_, rfl, decoderOp_keepsEnds i s.dec s.decPorts⟩
  · rw [exec_record h, whenSelected_next] at hx
    obtain ⟨-, -, rfl⟩ := hx
    have hn : i ≠ .decStart := by rintro rfl; simp [Instr.isRecord] at h
    refine ⟨_, rfl, ?_⟩
    rw [commandTaken, if_neg hn]
    exact resultKeepsEnds_some (decRun_keepsEnds _ _ _)

/-- Settles O33: so do the operations of the decoder and the records, which are runs of them. -/
theorem decoderInstructionsFrame : Obligations.DecoderInstructionsFrame := by
  intro i s t hi hx
  obtain ⟨r, rfl, hr⟩ := exec_decoderInstr_result hi hx
  rw [putDecoder_portsAfter]
  exact ⟨putDecoder_enc .., putDecoder_encPorts .., putDecoder_agenda .., putDecoder_turn ..,
    putDecoder_free .., portsAfter_frame hr⟩

/-! ### Independence of the blocks (R2, R8, R27). -/

theorem selectEncoder_isEncoderOp {s : State} {i : Instr} (h : selectEncoder s = some i) :
    isEncoderOp i = true := by
  obtain ⟨rfl, -⟩ | ⟨rfl, -⟩ | ⟨rfl, -⟩ | ⟨rfl, -⟩ | ⟨rfl, -⟩ | ⟨rfl, -⟩ | ⟨rfl, -⟩ | ⟨rfl, -⟩ :=
    selectEncoder_selected h <;> rfl

theorem selectDecoder_isDecoderOp {s : State} {i : Instr} (h : selectDecoder s = some i) :
    isDecoderOp i = true := by
  rw [selectDecoder_phase] at h
  split at h
  · split at h <;> cases h
    rfl
  all_goals cases h <;> rfl

theorem selectEncoder_congr {s s' : State} (he : s'.enc = s.enc) (hp : s'.encPorts = s.encPorts) :
    selectEncoder s' = selectEncoder s := by
  simp only [selectEncoder, he, hp]

theorem selectDecoder_congr {s s' : State} (hd : s'.dec = s.dec) (hp : s'.decPorts = s.decPorts) :
    selectDecoder s' = selectDecoder s := by
  simp only [selectDecoder, hd, hp]

/-- A turn of the encoder in two states that agree on it has one result, written back in both. -/
theorem stepBlock_encoder_result {s s' t : State} (he : s'.enc = s.enc)
    (hp : s'.encPorts = s.encPorts) (hx : stepBlock .encoder s = .next t) :
    ∃ r, t = putEncoder s r ∧ stepBlock .encoder s' = .next (putEncoder s' r) := by
  have hsel : select .encoder s' = select .encoder s := selectEncoder_congr he hp
  cases h : select .encoder s with
  | none =>
    rw [stepBlock_of_none h] at hx
    cases hx
    exact ⟨none, rfl, stepBlock_of_none (hsel.trans h)⟩
  | some i =>
    have hi := selectEncoder_isEncoderOp h
    rw [stepBlock_of_selected h, exec_encoderOp hi, whenSelected_next] at hx
    obtain ⟨hs, hf, rfl⟩ := hx
    refine ⟨_, rfl, ?_⟩
    rw [stepBlock_of_selected (hsel.trans h), exec_encoderOp hi, he, hp, whenSelected_next]
    exact ⟨hs, hf, rfl⟩

/-- A turn of the decoder in two states that agree on it has one result, written back in both. -/
theorem stepBlock_decoder_result {s s' t : State} (hd : s'.dec = s.dec)
    (hp : s'.decPorts = s.decPorts) (hx : stepBlock .decoder s = .next t) :
    ∃ r, t = putDecoder s r ∧ stepBlock .decoder s' = .next (putDecoder s' r) := by
  have hsel : select .decoder s' = select .decoder s := selectDecoder_congr hd hp
  cases h : select .decoder s with
  | none =>
    rw [stepBlock_of_none h] at hx
    cases hx
    exact ⟨none, rfl, stepBlock_of_none (hsel.trans h)⟩
  | some i =>
    have hi := selectDecoder_isDecoderOp h
    rw [stepBlock_of_selected h, exec_decoderOp hi, whenSelected_next] at hx
    obtain ⟨hs, hf, rfl⟩ := hx
    refine ⟨_, rfl, ?_⟩
    rw [stepBlock_of_selected (hsel.trans h), exec_decoderOp hi, hd, hp, whenSelected_next]
    exact ⟨hs, hf, rfl⟩

theorem putEncoder_enc_congr {s s' : State} (h : s'.enc = s.enc) (r : Option (Encoder × Ports)) :
    (putEncoder s' r).enc = (putEncoder s r).enc := by
  cases r with
  | none => exact h
  | some ep => rfl

theorem putDecoder_dec_congr {s s' : State} (h : s'.dec = s.dec) (r : Option (Decoder × Ports)) :
    (putDecoder s' r).dec = (putDecoder s r).dec := by
  cases r with
  | none => exact h
  | some dp => rfl

/-- Settles O49: the result of a turn is of the block and its ports alone, and only these are written back. -/
theorem blocksAreIndependent : Obligations.BlocksAreIndependent := by
  constructor
  · intro s s' t he hp hx
    obtain ⟨r, rfl, hx'⟩ := stepBlock_encoder_result he hp hx
    refine ⟨_, hx', putEncoder_enc_congr he r, ?_, putEncoder_dec .., putEncoder_decPorts ..⟩
    rw [putEncoder_portsAfter, putEncoder_portsAfter, hp]
  · intro s s' t hd hp hx
    obtain ⟨r, rfl, hx'⟩ := stepBlock_decoder_result hd hp hx
    refine ⟨_, hx', putDecoder_dec_congr hd r, ?_, putDecoder_enc .., putDecoder_encPorts ..⟩
    rw [putDecoder_portsAfter, putDecoder_portsAfter, hp]

/-! ### Holds at a silent port (R6, R47; log entry 3). -/

theorem srcRead_silent {p : Ports} (ha : p.source.answers = []) (ht : p.source.tail = .silent) :
    srcRead p = .pending := by
  simp [srcRead, ha, ht]

theorem srcRead_byte {p : Ports} {b : Byte} {rest : List SrcAnswer}
    (ha : p.source.answers = .byte b :: rest) :
    srcRead p = .done (.byte b)
      { p with source := { p.source with taken := p.source.taken ++ [.byte b], answers := rest } } := by
  simp [srcRead, ha]

theorem snkWrite_silent {b : Byte} {p : Ports} (ha : p.sink.answers = []) (ht : p.sink.tail = .silent) :
    snkWrite b p = .pending := by
  simp [snkWrite, ha, ht]

/-- An operation of the encoder that is not answered changes nothing. -/
theorem exec_encoderOp_holds {i : Instr} {s : State} (hi : isEncoderOp i = true)
    (hs : encoderSelected i s.enc s.encPorts = true) (hf : classifyingFits i s.enc = true)
    (hr : encoderOp i s.enc s.encPorts = none) : exec i s = .next s := by
  rw [exec_encoderOp hi, whenSelected_next]
  exact ⟨hs, hf, by rw [hr, putEncoder_none]⟩

/-- An operation of the decoder that is not answered changes nothing. -/
theorem exec_decoderOp_holds {i : Instr} {s : State} (hi : isDecoderOp i = true)
    (hs : decoderSelected i s.dec s.decPorts = true) (hf : decoderFits i s.dec = true)
    (hr : decoderOp i s.dec s.decPorts = none) : exec i s = .next s := by
  rw [exec_decoderOp hi, whenSelected_next]
  exact ⟨hs, hf, by rw [hr, putDecoder_none]⟩

/-- ENC.START's second and third reads, of a source that falls silent before they are all answered (R82). -/
theorem encLoadWindow_silent {e : Encoder} {c : Sym} {p : Ports} (ht : p.source.tail = .silent)
    (ha : p.source.answers = [] ∨ ∃ b, p.source.answers = [.byte b]) :
    encLoadWindow e c p = .pending := by
  unfold encLoadWindow
  obtain ha | ⟨b, ha⟩ := ha
  · rw [srcRead_silent ha ht, andThen_pending]
  · rw [srcRead_byte ha, andThen_done, srcReadAfter_byte, srcRead_silent rfl (by exact ht),
      andThen_pending]

/-- ENC.START on a source that falls silent before its three reads are answered (R82). -/
theorem encStartAct_silent {e : Encoder} {p : Ports} (hsrc : p.source.bound = true)
    (hsnk : p.sink.bound = true) (ht : p.source.tail = .silent)
    (ha : p.source.answers = [] ∨ (∃ a, p.source.answers = [.byte a]) ∨
      ∃ a b, p.source.answers = [.byte a, .byte b]) :
    encStartAct e p = .pending := by
  rw [encStartAct, if_neg (by simp [hsrc]), if_neg (by simp [hsnk])]
  obtain ha | ⟨a, ha⟩ | ⟨a, b, ha⟩ := ha
  · rw [srcRead_silent ha ht, andThen_pending]
  · rw [srcRead_byte ha, andThen_done]
    exact encLoadWindow_silent ht (.inl rfl)
  · rw [srcRead_byte ha, andThen_done]
    exact encLoadWindow_silent ht (.inr ⟨b, rfl⟩)

/-- DEC.LIT.COPY on a silent source, or on a byte for a silent sink (R115). -/
theorem decLitCopyOp_silent {d : Decoder} {p : Ports}
    (h : (p.source.answers = [] ∧ p.source.tail = .silent) ∨
      ((∃ b rest, p.source.answers = .byte b :: rest) ∧ p.sink.answers = [] ∧
        p.sink.tail = .silent)) :
    decLitCopyOp d p = none := by
  unfold decLitCopyOp decLitCopyAct
  obtain ⟨ha, ht⟩ | ⟨⟨b, rest, ha⟩, hk, ht⟩ := h
  · rw [srcRead_silent ha ht, andThen_pending, finish_pending]
  · rw [srcRead_byte ha, andThen_done]
    dsimp only
    rw [snkWrite_silent (by exact hk) (by exact ht), andThen_pending, finish_pending]

theorem lenFits_of_ne {e : Encoder} (h : e.len ≠ 127) : lenFits e = true := by
  simpa [lenFits] using h

/-- A Literal record is its control byte, the pending bytes and the current one (R88). -/
theorem literalRecord_length {e : Encoder} (h : e.len ≠ 127) :
    (literalRecord e).length = e.len.toNat + 2 := by
  have hadd : (e.len + 1).toNat = e.len.toNat + 1 := by bv_omega
  simp only [literalRecord, literalBytes, List.length_cons, List.length_take, Vector.length_toList,
    Config.lbufDepth, hadd]
  have := e.len.isLt
  omega

/-- A flushing operation, of `n` writes, that its state selects and whose count fits. -/
theorem flushing_selected {i : Instr} {n : Nat} {e : Encoder}
    (h : i = .encRepEnd ∧ n = 2 ∧ encRepEndSelected e = true ∧ e.len ≠ 127 ∨
      i = .encRepCap ∧ n = 2 ∧ encRepCapSelected e = true ∨
      i = .encLitFlush ∧ n = e.len.toNat + 2 ∧ encLitFlushSelected e = true ∧ e.len ≠ 127 ∨
      i = .encLitCap ∧ n = 128 ∧ encLitCapSelected e = true) :
    isClassifyingOp i = true ∧ classifyingSelected i e = true ∧ classifyingFits i e = true ∧
      (recordEmitted i e).length = n := by
  obtain ⟨rfl, rfl, hs, hl⟩ | ⟨rfl, rfl, hs⟩ | ⟨rfl, rfl, hs, hl⟩ | ⟨rfl, rfl, hs⟩ := h
  · exact ⟨rfl, hs, lenFits_of_ne hl, rfl⟩
  · exact ⟨rfl, hs, rfl, rfl⟩
  · exact ⟨rfl, hs, lenFits_of_ne hl, literalRecord_length hl⟩
  · exact ⟨rfl, hs, rfl, by simp [recordEmitted, literalBytes]⟩

/-- Settles O42: the unanswered action leaves the operation without a result, and the step holds whole. -/
theorem unansweredPortHolds : Obligations.UnansweredPortHolds := by
  intro s
  refine ⟨fun hp hst hsrc hsnk ht ha => ?_, fun hp hc hk ht ha => ?_, fun ha ht hn => ?_,
    fun i n h => ?_, fun ha ht => ?_, fun ha ht hp hc => ?_⟩
  · refine exec_encoderOp_holds rfl (by simp [encoderSelected, encStartSelected, hp, hst]) rfl ?_
    change finish encRaise s.enc (encStartAct s.enc (startTaken s.encPorts)) = none
    rw [encStartAct_silent (by exact hsrc) (by exact hsnk) (by exact ht) (by exact ha), finish_pending]
  · exact exec_decoderOp_holds rfl (by simp [decoderSelected, decLitCopySelected, hp])
      (by simpa [decoderFits, cntOwed] using hc) (decLitCopyOp_silent (.inr ⟨ha, hk, ht⟩))
  · have read : sinkReady 0 s.encPorts.sink ∧ s.enc.nn ≠ .eoi ∧ s.encPorts.source.answers = [] ∧
        s.encPorts.source.tail = .silent := ⟨⟨by simp, by simp⟩, hn, ha, ht⟩
    exact ⟨fun hs hl => exec_classifying_holds rfl hs (lenFits_of_ne hl) (.inr read),
      fun hs hl => exec_classifying_holds rfl hs (lenFits_of_ne hl) (.inr read)⟩
  · obtain ⟨hi, hs, hf, rfl⟩ := flushing_selected h
    exact ⟨fun j hj ha ht => exec_classifying_holds hi hs hf (.inl (snkWriteMany_silent hj ha ht)),
      fun hk hn ha ht => exec_classifying_holds hi hs hf (.inr ⟨hk, hn, ha, ht⟩)⟩
  · refine ⟨fun hp => ?_, fun hp => ?_, fun hp hc => ?_⟩
    · refine exec_decoderOp_holds rfl (by simp [decoderSelected, decFetchSelected, hp]) rfl ?_
      simp [decoderOp, decFetchOp, decFetchAct, srcRead_silent ha ht]
    · refine exec_decoderOp_holds rfl (by simp [decoderSelected, decRepValSelected, hp]) rfl ?_
      simp [decoderOp, decRepValOp, decRepValAct, srcRead_silent ha ht]
    · exact exec_decoderOp_holds rfl (by simp [decoderSelected, decLitCopySelected, hp])
        (by simpa [decoderFits, cntOwed] using hc) (decLitCopyOp_silent (.inl ⟨ha, ht⟩))
  · refine exec_decoderOp_holds rfl (by simp [decoderSelected, decRepOutSelected, hp])
      (by simpa [decoderFits, cntOwed] using hc) ?_
    simp [decoderOp, decRepOutOp, snkWrite_silent ha ht]

end Sys2Proof.Machine

/-! PROOFS, family 10_state: the invariant of the machine, what its steps keep of it, the frames of the registers,
the values after reset, and the encoder's machine against `Encode`. -/

namespace Sys2Proof.Machine

/-! ### An operation with a current byte: when it is selected, and the registers it ends with (R80 to R89). -/

theorem cap_eq_true (e : Encoder) : cap e = true ↔ e.len = 126 := by
  simp only [cap, Config.maxLen, beq_iff_eq]
  bv_omega

theorem classifying_eq_true (e : Encoder) (m : Mode) :
    classifying e m = true ↔ e.phase = .run ∧ (∃ v, e.cur = .byte v) ∧ e.mode = m := by
  cases hc : e.cur <;> simp [classifying, hc, symEoi]

/-- The six lines "Selected when" as conditions on the registers. -/
theorem classifyingSelected_cases {i : Instr} {e : Encoder} (h : classifyingSelected i e = true) :
    e.phase = .run ∧ (∃ v, e.cur = .byte v) ∧
    ((i = .encRepEnd ∧ e.mode = .repeatMode ∧ e.cur ≠ e.next) ∨
    (i = .encRepCap ∧ e.mode = .repeatMode ∧ e.cur = e.next ∧ e.len = 126) ∨
    (i = .encRepCont ∧ e.mode = .repeatMode ∧ e.cur = e.next ∧ e.len ≠ 126) ∨
    (i = .encLitFlush ∧ e.mode = .literalMode ∧ e.next = e.nn) ∨
    (i = .encLitCap ∧ e.mode = .literalMode ∧ e.next ≠ e.nn ∧ e.len = 126) ∨
    (i = .encLitCont ∧ e.mode = .literalMode ∧ e.next ≠ e.nn ∧ e.len ≠ 126)) := by
  have hcap : cap e = false ↔ e.len ≠ 126 := by rw [ne_eq, ← cap_eq_true, Bool.not_eq_true]
  cases i with
  | encRepEnd | encRepCap | encRepCont =>
    simp only [classifyingSelected, encRepEndSelected, encRepCapSelected, encRepContSelected, ne,
      Bool.and_eq_true, Bool.not_eq_true', classifying_eq_true, cap_eq_true, hcap, bne_iff_ne,
      bne_eq_false_iff_eq] at h
    simp only [reduceCtorEq, false_and, false_or, or_false, true_and]
    tauto
  | encLitFlush | encLitCap | encLitCont =>
    simp only [classifyingSelected, encLitFlushSelected, encLitCapSelected, encLitContSelected, q,
      Bool.and_eq_true, Bool.not_eq_true', classifying_eq_true, cap_eq_true, hcap, beq_iff_eq,
      beq_eq_false_iff_ne] at h
    simp only [reduceCtorEq, false_and, false_or, or_false, true_and]
    tauto
  | _ => cases h

/-- The registers with which an operation with a current byte completes, `x` the symbol shifted in. -/
def encAfter (i : Instr) (e : Encoder) (x : Sym) : Encoder :=
  writtenRegisters i e (shiftedBy (frozenRegisters i e) x)

section
variable (i : Instr) (e : Encoder) (x : Sym)

@[simp] theorem encAfter_phase : (encAfter i e x).phase = e.phase := by cases i <;> rfl
@[simp] theorem encAfter_cur : (encAfter i e x).cur = e.next := by cases i <;> rfl
@[simp] theorem encAfter_next : (encAfter i e x).next = e.nn := by cases i <;> rfl
@[simp] theorem encAfter_nn : (encAfter i e x).nn = x := by cases i <;> rfl
@[simp] theorem encAfter_cause : (encAfter i e x).cause = e.cause := by cases i <;> rfl
@[simp] theorem encAfter_subcause : (encAfter i e x).subcause = e.subcause := by cases i <;> rfl
end

/-! ### The encoder's invariant (R31). -/

/-- A count that is not 126 stays below 127 when one is added (R15). -/
theorem len_succ_ne {n : Len} (h : n ≠ 126) : n + 1 ≠ 127 := by bv_omega

/-- The shift keeps the window valid, and the counts and modes of R84 to R89 keep the rest. -/
theorem encAfter_running {i : Instr} {e : Encoder} {x : Sym} (hs : classifyingSelected i e = true)
    (hr : encRunning e) (hx : e.nn = .eoi → x = .eoi) : encRunning (encAfter i e x) := by
  obtain ⟨⟨-, hw⟩, -, -, -⟩ := hr
  have zero : (0 : Len) ≠ 127 := by decide
  rw [encRunning, windowValid, encAfter_cur, encAfter_next, encAfter_nn]
  refine ⟨⟨hw, hx⟩, ?_⟩
  obtain ⟨-, ⟨v, hv⟩, ⟨rfl, hm, -⟩ | ⟨rfl, hm, -⟩ | ⟨rfl, hm, hn, hl⟩ | ⟨rfl, -⟩ | ⟨rfl, -, hq, -⟩ |
    ⟨rfl, -, hq, hl⟩⟩ := classifyingSelected_cases hs
  · refine ⟨zero, fun hm' _ hq => ?_, fun _ => rfl⟩
    simp [encAfter, writtenRegisters, q, hq] at hm'
  · exact ⟨zero, fun hm' => absurd (hm.symm.trans hm') (by decide), fun _ => rfl⟩
  · exact ⟨len_succ_ne hl, fun hm' => absurd (hm.symm.trans hm') (by decide), fun h => by simp_all⟩
  · exact ⟨zero, (nomatch ·), fun _ => rfl⟩
  · exact ⟨zero, fun _ _ => hq, fun _ => rfl⟩
  · exact ⟨len_succ_ne hl, fun _ _ => hq, fun h => absurd (h.trans (hw h).symm) hq⟩

theorem encInv_of_run {e : Encoder} (hp : e.phase = .run) (hr : encRunning e)
    (hc : e.cause = 0 ∧ e.subcause = 0) : encInv e :=
  ⟨fun _ => hr, ⟨fun _ => hc, fun h => by simp [hp] at h⟩, fun h => by simp [hp] at h⟩

theorem encInv_of_done {e : Encoder} (hp : e.phase = .done) (hl : e.len = 0)
    (hc : e.cause = 0 ∧ e.subcause = 0) : encInv e :=
  ⟨fun h => by simp [hp] at h, ⟨fun _ => hc, fun h => by simp [hp] at h⟩, fun _ => hl⟩

theorem encInv_of_idle {e : Encoder} (hp : e.phase = .idle) (hc : e.cause = 0 ∧ e.subcause = 0) :
    encInv e :=
  ⟨fun h => by simp [hp] at h, ⟨fun _ => hc, fun h => by simp [hp] at h⟩, fun h => by simp [hp] at h⟩

/-- A fault of a port or a binding leaves codes that the encoder's faults have (R132, R138). -/
theorem encInv_encRaise {k : FaultKind} (hk : causeCode k ≠ 3) (e : Encoder) : encInv (encRaise k e) := by
  refine ⟨(nomatch ·), ⟨fun h => absurd rfl h, fun _ => ?_⟩, (nomatch ·)⟩
  cases k <;> simp_all [causeCode, subcauseCode]

/-- The registers with which ENC.START begins a run: the window of its reads, the mode, and a count of 0
(R82). -/
def encStarted (e : Encoder) (b : Byte) (n x : Sym) : Encoder :=
  { e with
    phase := .run
    mode := if n = .eoi ∨ Sym.byte b = n then .repeatMode else .literalMode
    cur := .byte b
    next := n
    nn := x
    len := 0 }

/-- ENC.START fills a valid window; in Literal mode its first two bytes differ. -/
theorem encStarted_running (e : Encoder) (b : Byte) {n x : Sym} (hn : n = .eoi → x = .eoi) :
    encRunning (encStarted e b n x) := by
  refine ⟨⟨(nomatch ·), hn⟩, (nomatch ·), fun hm _ hbn => ?_, fun _ => rfl⟩
  exact absurd (hm.symm.trans (if_pos (.inr hbn))) (by decide)

theorem exec_encStart_keepsEncInv {s t : State} (h : encInv s.enc) (hx : exec .encStart s = .next t) :
    encInv t.enc := by
  obtain ⟨-, ⟨hcause, -⟩, -⟩ := id h
  obtain ⟨hp, -, rfl | ⟨k, hk, rfl⟩ | ⟨p', -, rfl⟩ | ⟨b, n, x, p₁, p₂, p', -, -, hn, -, rfl⟩ |
    ⟨p', -, -, -, -, -, rfl⟩⟩ := exec_encStart_cases hx
  · exact h
  · refine encInv_encRaise ?_ _
    obtain ⟨rfl, -⟩ | ⟨rfl, -⟩ := hk <;> decide
  · exact encInv_of_done rfl rfl (hcause (by simp [hp]))
  · exact encInv_of_run rfl (encStarted_running s.enc b fun h => (hn h).1) (hcause (by simp [hp]))
  · exact encInv_encRaise (by decide) _

theorem exec_encoderOp_keepsEncInv {i : Instr} {s t : State} (hi : isEncoderOp i = true)
    (h : encInv s.enc) (hx : exec i s = .next t) : encInv t.enc := by
  obtain ⟨hrun, ⟨hcause, -⟩, -⟩ := id h
  obtain rfl | rfl | ⟨-, -, hc⟩ := isEncoderOp_cases hi
  · exact exec_encStart_keepsEncInv h hx
  · obtain ⟨hp, hcur, rfl⟩ := exec_encHalt_cases hx
    obtain ⟨-, -, -, hlen⟩ := hrun hp
    exact encInv_of_done rfl (hlen hcur) (hcause (by simp [hp]))
  · obtain ⟨hs, -, rfl | ⟨x, p₁, p', -, hn, -, rfl⟩ | ⟨p', -, rfl⟩ | ⟨p₁, p', -, -, -, rfl⟩⟩ :=
      exec_classifying_cases hc hx
    · exact h
    · obtain ⟨hp, -⟩ := classifyingSelected_cases hs
      change encInv (encAfter i s.enc x)
      refine encInv_of_run ((encAfter_phase ..).trans hp) ?_ ?_
      · exact encAfter_running hs (hrun hp) fun h => (hn h).1
      · rw [encAfter_cause, encAfter_subcause]
        exact hcause (by simp [hp])
    · exact encInv_encRaise (by decide) _
    · exact encInv_encRaise (by decide) _

/-! ### The decoder's invariant (R32). -/

theorem decInv_of_boundary {d : Decoder} (hp : d.phase = .idle ∨ d.phase = .fetch ∨ d.phase = .done)
    (hc : d.cause = 0 ∧ d.subcause = 0) : decInv d := by
  obtain hp | hp | hp := hp <;>
    simp [decInv, decInRecord, decCausesFit, hp, hc]

/-- A fault of a port or a binding leaves the codes of one (R132). -/
theorem decInv_decRaise {k : FaultKind} (hk : causeCode k ≠ 3) (d : Decoder) : decInv (decRaise k d) := by
  refine ⟨⟨by simp, by simp, by simp, by simp⟩, fun h => absurd rfl h, fun _ => .inl ?_⟩
  cases k <;> simp_all [causeCode, subcauseCode]

/-- A MalformedStream fault leaves its control byte and count in the registers (R141). -/
theorem decInv_decRaise_malformed {k : FaultKind} {d : Decoder} (hk : causeCode k = 3)
    (h : decMalformedLeft (decRaise k d)) : decInv (decRaise k d) :=
  ⟨⟨by simp, by simp, by simp, by simp⟩, fun h => absurd rfl h, fun _ => .inr ⟨hk, h⟩⟩

theorem decTakeControl_keepsInv {d : Decoder} (hc : d.cause = 0 ∧ d.subcause = 0) (c : Byte) :
    decInv (decTakeControl d c) := by
  obtain ⟨hl, e⟩ | ⟨hl, hm, e⟩ | ⟨hl, hm, e⟩ := decTakeControl_cases d c <;> rw [e]
  · exact decInv_decRaise_malformed rfl (.inr (.inr ⟨rfl, hl, rfl⟩))
  · exact ⟨⟨fun _ => ⟨hl, BitVec.le_refl _⟩, fun _ => hm, (nomatch ·), fun _ => rfl⟩, fun _ => hc,
      (nomatch ·)⟩
  · refine ⟨⟨fun _ => ⟨hl, BitVec.le_refl _⟩, ?_, fun _ => hm, (nomatch ·)⟩, fun _ => hc, (nomatch ·)⟩
    simp

/-- Counting down from at least 1 keeps the count within the record's length, and ends the record at 0
(R16, R114, R115). -/
theorem decCountDown_keepsInv {d : Decoder} (hp : d.phase = .repw ∨ d.phase = .litc) (h : decInv d) :
    decInv (decCountDown d) := by
  obtain ⟨⟨hcnt, hrep, hlit, -⟩, hcause, -⟩ := h
  obtain ⟨hne, hle⟩ := hcnt (.inr hp)
  have hc : d.cause = 0 ∧ d.subcause = 0 := hcause (by rintro h; simp [h] at hp)
  have hle' : d.cnt - 1 ≤ ctlLen d.ctl := by bv_omega
  by_cases h0 : d.cnt - 1 = 0
  · exact decInv_of_boundary (.inr (.inl (if_pos h0))) hc
  · have hph : (decCountDown d).phase = d.phase := if_neg h0
    refine ⟨⟨fun _ => ⟨h0, hle'⟩, fun h => hrep ?_, fun h => hlit ?_, fun h => ?_⟩, fun _ => hc,
      fun h => ?_⟩
    · rwa [hph] at h
    · rwa [hph] at h
    · rw [hph] at h; simp [h] at hp
    · rw [hph] at h; simp [h] at hp

theorem decFetchOp_keepsInv {d d' : Decoder} {p p' : Ports} (hp : d.phase = .fetch) (h : decInv d)
    (hx : decFetchOp d p = some (d', p')) : decInv d' := by
  obtain ⟨-, hcause, -⟩ := h
  have hc := hcause (by simp [hp])
  obtain e | ⟨c, _, -, e⟩ | ⟨_, -, e⟩ | ⟨_, -, e⟩ := decFetchOp_cases d p <;> rw [e] at hx <;> cases hx
  · exact decTakeControl_keepsInv hc c
  · exact decInv_of_boundary (.inr (.inr rfl)) hc
  · exact decInv_decRaise (by decide) d

theorem decRepValOp_keepsInv {d d' : Decoder} {p p' : Ports} (hp : d.phase = .repv) (h : decInv d)
    (hx : decRepValOp d p = some (d', p')) : decInv d' := by
  obtain ⟨⟨hcnt, hrep, -, hall⟩, hcause, -⟩ := h
  have hc := hcause (by simp [hp])
  have hr := hrep (.inl hp)
  obtain e | ⟨v, _, -, e⟩ | ⟨_, -, e⟩ | ⟨_, -, e⟩ := decRepValOp_cases d p <;> rw [e] at hx <;> cases hx
  · exact ⟨⟨fun _ => hcnt (.inl hp), fun _ => hr, (nomatch ·), (nomatch ·)⟩, fun _ => hc, (nomatch ·)⟩
  · exact decInv_decRaise_malformed rfl (.inl ⟨rfl, hr, hall hp, (hcnt (.inl hp)).1⟩)
  · exact decInv_decRaise (by decide) d

theorem decRepOutOp_keepsInv {d d' : Decoder} {p p' : Ports} (hp : d.phase = .repw) (h : decInv d)
    (hx : decRepOutOp d p = some (d', p')) : decInv d' := by
  obtain e | ⟨_, -, e⟩ | ⟨_, -, e⟩ := decRepOutOp_cases d p <;> rw [e] at hx <;> cases hx
  · exact decCountDown_keepsInv (.inl hp) h
  · exact decInv_decRaise (by decide) d

theorem decLitCopyOp_keepsInv {d d' : Decoder} {p p' : Ports} (hp : d.phase = .litc) (h : decInv d)
    (hx : decLitCopyOp d p = some (d', p')) : decInv d' := by
  obtain e | ⟨b, _, _, -, -, e⟩ | ⟨b, _, _, -, -, e⟩ | ⟨_, -, e⟩ | ⟨_, -, e⟩ := decLitCopyOp_cases d p <;>
    rw [e] at hx <;> cases hx
  · exact decCountDown_keepsInv (.inr hp) h
  · exact decInv_decRaise (by decide) d
  · obtain ⟨⟨hcnt, -, hlit, -⟩, -⟩ := h
    obtain ⟨hne, hle⟩ := hcnt (.inr (.inr hp))
    exact decInv_decRaise_malformed rfl (.inr (.inl ⟨rfl, hlit hp, hle, hne⟩))
  · exact decInv_decRaise (by decide) d

theorem decPhaseOp_keepsInv {d d' : Decoder} {p p' : Ports} (h : decInv d)
    (hx : decPhaseOp d p = some (d', p')) : decInv d' := by
  unfold decPhaseOp at hx
  split at hx
  · exact decFetchOp_keepsInv ‹_› h hx
  · exact decRepValOp_keepsInv ‹_› h hx
  · exact decRepOutOp_keepsInv ‹_› h hx
  · exact decLitCopyOp_keepsInv ‹_› h hx
  all_goals cases hx; exact h

theorem decRun_keepsInv (k : Nat) {d : Decoder} (h : decInv d) (p : Ports) : decInv (decRun k d p).1 := by
  induction k generalizing d p with
  | zero => exact h
  | succ k ih =>
    rw [decRun]
    split
    · exact ih (decPhaseOp_keepsInv h ‹_›) _
    · exact h

/-! ### The start command waits only in IDLE (R161), and the invariant of the machine. -/

/-- An operation that happens, begun with no `start` command waiting but the one it takes, ends with none. -/
theorem start_false_of_result {β : Type} {startOp i : Instr} {p p' : Ports} {r : Option (β × Ports)} {b : β}
    (h : ResultKeepsEnds (commandTaken startOp i p) r) (hp : i ≠ startOp → p.start = false)
    (hr : r = some (b, p')) : p'.start = false := by
  rw [(h b p' hr).start, commandTaken]
  split
  · rfl
  · exact hp ‹_›

theorem encoderSelected_run {i : Instr} {e : Encoder} {p : Ports} (hi : isEncoderOp i = true)
    (h : encoderSelected i e p = true) (hn : i ≠ .encStart) : e.phase = .run := by
  rw [encoderSelected, if_neg hn] at h
  obtain rfl | rfl | ⟨-, hh, -⟩ := isEncoderOp_cases hi
  · exact absurd rfl hn
  · simp only [if_true, encHaltSelected, Bool.and_eq_true, beq_iff_eq] at h
    exact h.1
  · rw [if_neg hh] at h
    exact (classifyingSelected_cases h).1

theorem start_false_of_phase {p : Ports} {P : Prop} (h : p.start = true → P) (hn : ¬P) :
    p.start = false := by
  rw [← Bool.not_eq_true]
  exact fun hs => hn (h hs)

theorem exec_encoderOp_keepsInv {i : Instr} {s t : State} (hi : isEncoderOp i = true)
    (h : machineInv s) (hx : exec i s = .next t) : machineInv t := by
  obtain ⟨henc, hdec, hse, hsd⟩ := h
  have henc' := exec_encoderOp_keepsEncInv hi henc hx
  rw [exec_encoderOp hi, whenSelected_next] at hx
  obtain ⟨hsel, -, rfl⟩ := hx
  refine ⟨henc', by rwa [putEncoder_dec], ?_, by rwa [putEncoder_dec, putEncoder_decPorts]⟩
  cases hr : encoderOp i s.enc s.encPorts with
  | none => exact hse
  | some ep =>
    obtain ⟨e, p'⟩ := ep
    have hf := start_false_of_result (encoderOp_keepsEnds i s.enc s.encPorts)
      (fun hn => start_false_of_phase hse (by simp [encoderSelected_run hi hsel hn])) hr
    rw [putEncoder_encPorts, hf]
    exact (nomatch ·)

/-- Writing back a decoder that meets its invariant, with no `start` command waiting. -/
theorem putDecoder_keepsInv {s : State} {r : Option (Decoder × Ports)} (h : machineInv s)
    (hr : ∀ d p, r = some (d, p) → decInv d ∧ p.start = false) : machineInv (putDecoder s r) := by
  cases r with
  | none => exact h
  | some dp =>
    obtain ⟨d, p⟩ := dp
    obtain ⟨hd, hp⟩ := hr d p rfl
    obtain ⟨henc, -, hse, -⟩ := h
    exact ⟨henc, hd, hse, by rw [putDecoder_decPorts, hp]; exact (nomatch ·)⟩

theorem exec_decStart_keepsInv {s t : State} (h : machineInv s) (hx : exec .decStart s = .next t) :
    machineInv t := by
  obtain ⟨henc, ⟨-, hcause, -⟩, hse, -⟩ := h
  obtain ⟨hp, -, ⟨k, hk, rfl⟩ | ⟨-, -, rfl⟩⟩ := exec_decStart_cases hx
  · refine ⟨henc, decInv_decRaise ?_ _, hse, (nomatch ·)⟩
    obtain ⟨rfl, -⟩ | ⟨rfl, -⟩ := hk <;> decide
  · exact ⟨henc, decInv_of_boundary (.inr (.inl rfl)) (hcause (by simp [hp])), hse, (nomatch ·)⟩

/-- From a state of the invariant a turn of the decoder outside IDLE is the operation of its phase. -/
theorem stepBlock_decoder_of_inv {s : State} (h : decInv s.dec) (hi : s.dec.phase ≠ .idle) :
    stepBlock .decoder s = .next (putDecoder s (decPhaseOp s.dec s.decPorts)) := by
  obtain ⟨⟨hcnt, -⟩, -⟩ := h
  exact stepBlock_decoder hi fun hp => (hcnt (.inr hp)).1

theorem stepBlock_decoder_keepsInv {s t : State} (h : machineInv s)
    (hx : stepBlock .decoder s = .next t) : machineInv t := by
  obtain ⟨-, hdec, -, hsd⟩ := id h
  by_cases hp : s.dec.phase = .idle
  · cases hs : select .decoder s with
    | none => rw [stepBlock_of_none hs] at hx; cases hx; exact h
    | some i =>
      obtain rfl : i = .decStart := by
        simp only [select, selectDecoder_phase, hp] at hs
        split at hs <;> cases hs; rfl
      rw [stepBlock_of_selected hs] at hx
      exact exec_decStart_keepsInv h hx
  · rw [stepBlock_decoder_of_inv hdec hp] at hx
    cases hx
    refine putDecoder_keepsInv h fun d p hr => ⟨decPhaseOp_keepsInv hdec hr, ?_⟩
    rw [(decPhaseOp_keepsEnds _ _ d p hr).start]
    exact start_false_of_phase hsd hp

theorem stepBlock_keepsInv {b : Block} {s t : State} (h : machineInv s)
    (hx : stepBlock b s = .next t) : machineInv t := by
  cases b with
  | decoder => exact stepBlock_decoder_keepsInv h hx
  | encoder =>
    cases hs : select .encoder s with
    | none => rw [stepBlock_of_none hs] at hx; cases hx; exact h
    | some i =>
      rw [stepBlock_of_selected hs] at hx
      exact exec_encoderOp_keepsInv (selectEncoder_isEncoderOp hs) h hx

theorem nextRecord_fetch {s : State} {i : Instr} (h : nextRecord s = some i) : s.dec.phase = .fetch := by
  unfold nextRecord at h
  split at h
  · assumption
  all_goals cases h

theorem decode_isRecord {bs rest : List Byte} {i : Instr} (h : decode bs = .ok (i, rest)) :
    i.isRecord = true := by
  cases bs with
  | nil => cases h
  | cons c bs =>
    obtain ⟨-, e⟩ | ⟨-, e⟩ | ⟨-, -, ⟨-, e⟩ | ⟨v, r, -, e⟩⟩ | ⟨-, -, ⟨-, e⟩ | ⟨-, e⟩⟩ := decode_cases c bs <;>
      rw [e] at h <;> cases h <;> rfl

theorem nextRecord_isRecord {s : State} {i : Instr} (h : nextRecord s = some i) : i.isRecord = true := by
  simp only [nextRecord, nextRecord_fetch h] at h
  split at h <;> cases h
  exact decode_isRecord ‹_›

theorem stepRecord_keepsInv {s t : State} (h : machineInv s) (hx : stepRecord s = .next t) :
    machineInv t := by
  cases hr : nextRecord s with
  | none => rw [stepRecord_of_none hr] at hx; exact stepBlock_keepsInv h hx
  | some i =>
    obtain ⟨-, hdec, -, hsd⟩ := id h
    rw [stepRecord_of_record hr, exec_record (nextRecord_isRecord hr), whenSelected_next] at hx
    obtain ⟨-, -, rfl⟩ := hx
    refine putDecoder_keepsInv h ?_
    intro d p he
    obtain ⟨rfl, rfl⟩ := Prod.mk.inj (Option.some.inj he.symm)
    refine ⟨decRun_keepsInv _ hdec _, ?_⟩
    rw [(decRun_keepsEnds _ _ _).start]
    exact start_false_of_phase hsd (by simp [nextRecord_fetch hr])

theorem exec_reset_keepsInv {b : Block} {s t : State} (h : machineInv s)
    (hx : exec (.reset b) s = .next t) : machineInv t := by
  obtain ⟨henc, hdec, hse, hsd⟩ := h
  cases b with
  | encoder => cases hx; exact ⟨encInv_of_idle rfl ⟨rfl, rfl⟩, hdec, (nomatch ·), hsd⟩
  | decoder => cases hx; exact ⟨henc, decInv_of_boundary (.inl rfl) ⟨rfl, rfl⟩, hse, (nomatch ·)⟩

/-- The host's `start` is ignored outside IDLE; in IDLE it is the start operation with the command issued. -/
theorem exec_start_cases (b : Block) (s : State) :
    exec (.start b) s = .next s ∨
    (b = .encoder ∧ s.enc.phase = .idle ∧
      exec (.start b) s = exec .encStart { s with encPorts := startIssued s.encPorts }) ∨
    (b = .decoder ∧ s.dec.phase = .idle ∧
      exec (.start b) s = exec .decStart { s with decPorts := startIssued s.decPorts }) := by
  cases b with
  | encoder =>
    by_cases hp : s.enc.phase = .idle
    · exact .inr (.inl ⟨rfl, hp, if_pos hp⟩)
    · exact .inl (if_neg hp)
  | decoder =>
    by_cases hp : s.dec.phase = .idle
    · exact .inr (.inr ⟨rfl, hp, if_pos hp⟩)
    · exact .inl (if_neg hp)

theorem exec_start_keepsInv {b : Block} {s t : State} (h : machineInv s)
    (hx : exec (.start b) s = .next t) : machineInv t := by
  obtain ⟨henc, hdec, hse, hsd⟩ := id h
  obtain e | ⟨-, hp, e⟩ | ⟨-, hp, e⟩ := exec_start_cases b s <;> rw [e] at hx
  · cases hx; exact h
  · exact exec_encoderOp_keepsInv rfl (by exact ⟨henc, hdec, fun _ => hp, hsd⟩) hx
  · exact exec_decStart_keepsInv (by exact ⟨henc, hdec, hse, fun _ => hp⟩) hx

/-- New ports on which a `start` command waits only if one did before. -/
theorem setPorts_keepsInv {b : Block} {p : Ports} {s : State} (h : machineInv s)
    (hp : p.start = (portsOf b s).start) : machineInv (setPorts b p s) := by
  obtain ⟨henc, hdec, hse, hsd⟩ := h
  cases b with
  | encoder => exact ⟨henc, hdec, fun hs => hse (hp.symm.trans hs), hsd⟩
  | decoder => exact ⟨henc, hdec, hse, fun hs => hsd (hp.symm.trans hs)⟩

theorem rebind_keepsInv {b : Block} {p : Ports} {s t : State} (h : machineInv s)
    (hp : p.start = (portsOf b s).start) (hx : rebind b p s = .next t) : machineInv t := by
  unfold rebind at hx
  split at hx <;> cases hx
  exact setPorts_keepsInv h hp

theorem perform_keepsInv {ev : Event} {s t : State} (h : machineInv s) (hx : perform ev s = .next t) :
    machineInv t := by
  cases ev with
  | reset b => exact exec_reset_keepsInv h hx
  | start b => exact exec_start_keepsInv h hx
  | run b => exact stepBlock_keepsInv h hx
  | record => exact stepRecord_keepsInv h hx
  | bindSource b _ _ | bindSink b _ _ | unbindSource b | unbindSink b =>
    exact rebind_keepsInv h (by rfl) hx
  | supply b _ _ | acceptMore b _ _ => cases hx; exact setPorts_keepsInv h rfl

/-- Settles O45: each event and each turn keeps the invariant of the block it moves, and the other block's. -/
theorem stepKeepsInvariant : Obligations.StepKeepsInvariant := by
  intro s t h hx
  cases ha : s.agenda with
  | nil => rw [step_of_no_event ha] at hx; exact stepBlock_keepsInv (by exact h) hx
  | cons ev rest => rw [step_of_event ha] at hx; exact perform_keepsInv (by exact h) hx

/-- Settles O43: both blocks are in IDLE without a cause, and no `start` command waits. -/
theorem resetMeetsInvariant : Obligations.ResetMeetsInvariant :=
  ⟨encInv_of_idle rfl ⟨rfl, rfl⟩, decInv_of_boundary (.inl rfl) ⟨rfl, rfl⟩, (nomatch ·), (nomatch ·)⟩

/-! ### Turns of the encoder against the loop of `Encode` (R99). -/

theorem len_succ_toNat {n : Len} (h : n ≠ 127) : (n + 1).toNat = n.toNat + 1 := by bv_omega

/-- The buffer after the current byte is appended: the pending bytes and that byte (R51). -/
theorem literalBytes_appendLiteral {e : Encoder} (h : e.len ≠ 127) :
    literalBytes (appendLiteral e) (e.len + 1) = literalBytes e e.len ++ [symData e.cur] := by
  have hlt : e.len.toNat < e.lbuf.toList.length := by
    rw [Vector.length_toList, Config.lbufDepth]; bv_omega
  rw [literalBytes, appendLiteral, Vector.toList_setIfInBounds, len_succ_toNat h, List.take_add_one,
    List.take_set_of_le (Nat.le_refl _), List.getElem?_set_self hlt]
  rfl

/-- Nothing is pending of an empty run, in either mode (R25). -/
theorem pendingLiteral_of_len_zero {e : Encoder} (h : e.len = 0) : pendingLiteral e = [] := by
  rw [pendingLiteral, h]
  cases e.mode <;> rfl

theorem pendingLiteral_of_repeat {e : Encoder} (h : e.mode = .repeatMode) : pendingLiteral e = [] := by
  rw [pendingLiteral, h]

theorem pendingLiteral_of_literal {e : Encoder} (h : e.mode = .literalMode) :
    pendingLiteral e = literalBytes e e.len := by
  rw [pendingLiteral, h]

/-- The loop of R99 on a byte in Repeat mode. -/
theorem encodeFrom_repeat (n : Nat) (buf rest : List Byte) (b : Byte) :
    encodeFrom .repeatMode n buf (b :: rest) =
      if Sym.byte b ≠ headSym rest then
        [0x80 ||| BitVec.ofNat 8 (n + 1), b] ++
          encodeFrom (if headSym rest = headSym rest.tail then .repeatMode else .literalMode) 0 buf rest
      else if n + 1 = 127 then [0xFF, b] ++ encodeFrom .repeatMode 0 buf rest
      else encodeFrom .repeatMode (n + 1) buf rest := rfl

/-- The loop of R99 on a byte in Literal mode. -/
theorem encodeFrom_literal (n : Nat) (buf rest : List Byte) (b : Byte) :
    encodeFrom .literalMode n buf (b :: rest) =
      if headSym rest = headSym rest.tail then
        [BitVec.ofNat 8 (n + 1)] ++ (buf ++ [b]) ++ encodeFrom .repeatMode 0 [] rest
      else if n + 1 = 127 then [0x7F] ++ (buf ++ [b]) ++ encodeFrom .literalMode 0 [] rest
      else encodeFrom .literalMode (n + 1) (buf ++ [b]) rest := rfl

/-- What the loop of R99 still makes of `rest`, begun with the pending run in the registers. -/
def encodeRest (e : Encoder) (rest : List Byte) : List Byte :=
  encodeFrom e.mode e.len.toNat (pendingLiteral e) rest

theorem encodeRest_repeat {e : Encoder} (hm : e.mode = .repeatMode) (rest : List Byte) :
    encodeRest e rest = encodeFrom .repeatMode e.len.toNat [] rest := by
  rw [encodeRest, pendingLiteral_of_repeat hm, hm]

theorem encodeRest_literal {e : Encoder} (hm : e.mode = .literalMode) (rest : List Byte) :
    encodeRest e rest = encodeFrom .literalMode e.len.toNat (literalBytes e e.len) rest := by
  rw [encodeRest, pendingLiteral_of_literal hm, hm]

theorem encodeRest_of_len_zero {e : Encoder} (h : e.len = 0) (rest : List Byte) :
    encodeRest e rest = encodeFrom e.mode 0 [] rest := by
  rw [encodeRest, pendingLiteral_of_len_zero h, h]
  rfl

/-- One turn of the loop of `Encode`, on the current byte and the two symbols after it, is the operation that
is selected: the record it emits and the mode, count and pending bytes it leaves (R84 to R89, R99). -/
theorem encodeRest_classifying {i : Instr} {e : Encoder} {v : Byte} {rest : List Byte} (x : Sym)
    (hs : classifyingSelected i e = true) (hl : e.len ≠ 127) (hv : e.cur = .byte v)
    (hnext : headSym rest = e.next) (hnn : headSym rest.tail = e.nn) :
    encodeRest e (v :: rest) = recordEmitted i e ++ encodeRest (encAfter i e x) rest := by
  have hctl : (e.len + 1).setWidth 8 = BitVec.ofNat 8 (e.len.toNat + 1) := by
    rw [← len_succ_toNat hl, BitVec.ofNat_toNat]
  have hcap : e.len.toNat + 1 = 127 ↔ e.len = 126 := by bv_omega
  have hdata : symData e.cur = v := by rw [hv]; rfl
  have hbytes := hdata ▸ literalBytes_appendLiteral hl
  obtain ⟨-, -, ⟨rfl, hm, hn⟩ | ⟨rfl, hm, hn, hc⟩ | ⟨rfl, hm, hn, hc⟩ | ⟨rfl, hm, hq⟩ | ⟨rfl, hm, hq, hc⟩ |
    ⟨rfl, hm, hq, hc⟩⟩ := classifyingSelected_cases hs
  · have hm' : (encAfter .encRepEnd e x).mode = if e.next = e.nn then .repeatMode else .literalMode := by
      simp [encAfter, writtenRegisters, q]
    rw [hv] at hn
    rw [encodeRest_repeat hm, encodeFrom_repeat, hnext, hnn, if_pos hn, encodeRest_of_len_zero rfl, hm',
      recordEmitted, repeatRecord, packCtl_repeat, hctl, hdata]
  · rw [hv] at hn
    rw [encodeRest_repeat hm, encodeFrom_repeat, hnext, if_neg (not_not.mpr hn), if_pos (hcap.mpr hc),
      encodeRest_of_len_zero rfl, recordEmitted, hdata, ← hm]
    rfl
  · rw [hv] at hn
    rw [encodeRest_repeat hm, encodeFrom_repeat, hnext, if_neg (not_not.mpr hn), if_neg (mt hcap.mp hc),
      encodeRest_repeat (e := encAfter .encRepCont e x) hm, recordEmitted, ← len_succ_toNat hl]
    rfl
  · rw [encodeRest_literal hm, encodeFrom_literal, hnext, hnn, if_pos hq, encodeRest_of_len_zero rfl,
      recordEmitted, literalRecord, packCtl_literal, hctl, hbytes]
    rfl
  · have h126 : (126 : Len) + 1 = 127 := rfl
    rw [hc, h126] at hbytes
    rw [encodeRest_literal hm, encodeFrom_literal, hnext, hnn, if_neg hq, if_pos (hcap.mpr hc),
      encodeRest_of_len_zero rfl, recordEmitted, hbytes, hc, ← hm]
    rfl
  · rw [encodeRest_literal hm, encodeFrom_literal, hnext, hnn, if_neg hq, if_neg (mt hcap.mp hc),
      encodeRest_literal (e := encAfter .encLitCont e x) hm, ← hbytes, ← len_succ_toNat hl]
    rfl

/-- A read that succeeds hands over the first byte still to come; at the marker none is (R42). -/
theorem upcoming_of_srcRead {p p' : Ports} {x : Sym} (h : srcRead p = .done x p') :
    upcoming p.source = [x].filterMap symByte ++ if x = .eoi then [] else upcoming p'.source := by
  obtain ⟨b, r, ha, e⟩ | ⟨r, ha, e⟩ | ⟨ha, -, e⟩ | ⟨-, -, e⟩ := srcRead_cases p <;> rw [e] at h <;> cases h
  · simp [upcoming, ha, answerByte, symByte]
  · simp [upcoming, ha, symByte]

/-- The input of a valid window begins with the window's own symbols. -/
theorem headSym_encInput {e : Encoder} (h : windowValid e) (p : Ports) :
    headSym (encInput e p) = e.cur ∧ headSym (encInput e p).tail = e.next := by
  obtain ⟨h₁, h₂⟩ := h
  cases hc : e.cur <;> cases hn : e.next <;> cases hx : e.nn <;>
    simp_all [encInput, windowBytes, symByte, headSym, List.filterMap_cons]

/-- The shift takes the current byte off the input still to be classified (R26, R83). -/
theorem encInput_encAfter {e : Encoder} {p p' : Ports} {x : Sym} {v : Byte} (i : Instr)
    (hv : e.cur = .byte v) (hn : e.nn = .eoi → x = .eoi) (hr : e.nn ≠ .eoi → srcRead p = .done x p') :
    encInput e p = v :: encInput (encAfter i e x) p' := by
  rw [encInput, encInput, windowBytes, windowBytes, encAfter_cur, encAfter_next, encAfter_nn, hv]
  cases hnn : e.nn with
  | eoi => simp [hn hnn, symByte, List.filterMap_cons]
  | byte c =>
    rw [if_neg (by simp), upcoming_of_srcRead (hr (by simp [hnn]))]
    have hsplit : [e.next, .byte c, x] = [e.next, .byte c] ++ [x] := rfl
    rw [hsplit, List.filterMap_append, List.append_assoc]
    rfl

theorem encFinal_idle {e : Encoder} {p : Ports} (h : e.phase = .idle) :
    encFinal e p = p.sink.out ++ encodeList (upcoming p.source) := by
  rw [encFinal, h]

theorem encFinal_run {e : Encoder} {p : Ports} (h : e.phase = .run) :
    encFinal e p = p.sink.out ++ encodeRest e (encInput e p) := by
  rw [encFinal, h]
  rfl

/-- A read leaves the sink alone. -/
theorem srcRead_done_sink {p p' : Ports} {x : Sym} (h : srcRead p = .done x p') : p'.sink = p.sink := by
  obtain ⟨hk, -⟩ := srcRead_done_frame h
  exact hk

theorem srcRead_raised_sink {p p' : Ports} {k : FaultKind} (h : srcRead p = .raised k p') :
    p'.sink = p.sink := by
  obtain ⟨-, hk, -⟩ := srcRead_raised_frame h
  exact hk

/-- A read that succeeds, or none once the marker has been received, leaves the sink alone (R43). -/
theorem sink_of_srcReadAfter {y x : Sym} {p p' : Ports} (hn : y = .eoi → x = .eoi ∧ p' = p)
    (hr : y ≠ .eoi → srcRead p = .done x p') : p'.sink = p.sink := by
  by_cases h : y = .eoi
  · rw [(hn h).2]
  · exact srcRead_done_sink (hr h)

/-- An operation with a current byte moves one turn of the loop from what is to come into the sink. -/
theorem exec_classifying_keepsFinal {i : Instr} {s t : State} (hi : isClassifyingOp i = true)
    (h : encInv s.enc) (hx : exec i s = .next t) (ht : t.enc.phase ≠ .fault) :
    encFinal t.enc t.encPorts = encFinal s.enc s.encPorts := by
  obtain ⟨hs, -, rfl | ⟨x, p₁, p', hw, hn, hr, rfl⟩ | ⟨p', -, rfl⟩ | ⟨p₁, p', -, -, -, rfl⟩⟩ :=
    exec_classifying_cases hi hx
  · rfl
  · obtain ⟨hp, ⟨v, hv⟩, -⟩ := classifyingSelected_cases hs
    obtain ⟨hrun, -, -⟩ := h
    obtain ⟨-, hl, -, -⟩ := hrun hp
    have hx : s.enc.nn = .eoi → x = .eoi := fun h => (hn h).1
    obtain ⟨hwin, -⟩ := encAfter_running hs (hrun hp) hx
    obtain ⟨hcur, hnext⟩ := headSym_encInput hwin p'
    rw [encAfter_cur] at hcur
    rw [encAfter_next] at hnext
    obtain ⟨hsrc, -, -, hout⟩ := snkWriteMany_done_frame hw
    calc encFinal (encAfter i s.enc x) p'
      _ = p'.sink.out ++ encodeRest (encAfter i s.enc x) (encInput (encAfter i s.enc x) p') :=
        encFinal_run ((encAfter_phase ..).trans hp)
      _ = s.encPorts.sink.out ++
            (recordEmitted i s.enc ++ encodeRest (encAfter i s.enc x) (encInput (encAfter i s.enc x) p')) := by
        rw [sink_of_srcReadAfter hn hr, hout, List.append_assoc]
      _ = s.encPorts.sink.out ++ encodeRest s.enc (encInput s.enc p₁) := by
        rw [encInput_encAfter i hv hx hr, encodeRest_classifying x hs hl hv hcur hnext]
      _ = encFinal s.enc s.encPorts := by
        rw [encFinal_run hp, encInput, encInput, hsrc]
  · exact absurd rfl ht
  · exact absurd rfl ht

theorem encInput_of_eoi {e : Encoder} (h : windowValid e) (hc : e.cur = .eoi) (p : Ports) :
    encInput e p = [] := by
  obtain ⟨h₁, h₂⟩ := h
  simp [encInput, windowBytes, hc, h₁ hc, h₂ (h₁ hc), symByte, List.filterMap_cons]

theorem encodeRest_nil (e : Encoder) : encodeRest e [] = [] := by
  rw [encodeRest, encodeFrom]

theorem startMode_cons (b : Byte) (rest : List Byte) :
    startMode (b :: rest) =
      if headSym rest = .eoi ∨ Sym.byte b = headSym rest then .repeatMode else .literalMode := by
  cases rest <;> simp [startMode, headSym]

/-- The window that ENC.START reads is the front of the input (R82). -/
theorem encInput_encStarted {e : Encoder} {p p₁ p₂ p' : Ports} {b : Byte} {n x : Sym}
    (hr₁ : srcRead p = .done (.byte b) p₁) (hr₂ : srcRead p₁ = .done n p₂) (hn : n = .eoi → x = .eoi)
    (hr₃ : n ≠ .eoi → srcRead p₂ = .done x p') :
    encInput (encStarted e b n x) p' = upcoming p.source := by
  rw [upcoming_of_srcRead hr₁, if_neg (by simp), upcoming_of_srcRead hr₂]
  cases n with
  | eoi => rw [hn rfl]; rfl
  | byte c =>
    rw [if_neg (by simp), upcoming_of_srcRead (hr₃ (by simp))]
    have hsplit : [Sym.byte b, .byte c, x] = [Sym.byte b, .byte c] ++ [x] := rfl
    rw [encInput, windowBytes, encStarted, hsplit, List.filterMap_append, List.append_assoc]
    rfl

/-- From the registers of ENC.START the loop is `Encode` of the whole input (R82, R99). -/
theorem encodeRest_encStarted {e : Encoder} {b : Byte} {n x : Sym} (hn : n = .eoi → x = .eoi) (p : Ports) :
    encodeRest (encStarted e b n x) (encInput (encStarted e b n x) p) =
      encodeList (encInput (encStarted e b n x) p) := by
  obtain ⟨hwin, -⟩ := encStarted_running e b hn
  obtain ⟨-, hnext⟩ := headSym_encInput hwin p
  rw [encodeRest_of_len_zero rfl, encodeList]
  congr 1
  have front : encInput (encStarted e b n x) p = b :: (encInput (encStarted e b n x) p).tail := rfl
  rw [front, startMode_cons, hnext]
  rfl

/-- ENC.START moves the front of the input into the window. -/
theorem exec_encStart_keepsFinal {s t : State} (hx : exec .encStart s = .next t)
    (ht : t.enc.phase ≠ .fault) : encFinal t.enc t.encPorts = encFinal s.enc s.encPorts := by
  obtain ⟨hp, -, rfl | ⟨k, hk, rfl⟩ | ⟨p', hr, rfl⟩ | ⟨b, n, x, p₁, p₂, p', hr₁, hr₂, hn, hr₃, rfl⟩ |
    ⟨p', -, -, -, -, -, rfl⟩⟩ := exec_encStart_cases hx
  · rfl
  · exact absurd rfl ht
  · have hin : upcoming s.encPorts.source = [] := upcoming_of_srcRead hr
    rw [encFinal_idle hp, hin, ← startTaken_sink, ← srcRead_done_sink hr]
    exact (List.append_nil _).symm
  · have hx : n = .eoi → x = .eoi := fun h => (hn h).1
    have hin : encInput (encStarted s.enc b n x) p' = upcoming s.encPorts.source :=
      encInput_encStarted (p := startTaken s.encPorts) hr₁ hr₂ hx hr₃
    change encFinal (encStarted s.enc b n x) p' = _
    rw [encFinal_run rfl, encodeRest_encStarted hx, hin, encFinal_idle hp,
      sink_of_srcReadAfter hn hr₃, srcRead_done_sink hr₂, srcRead_done_sink hr₁, startTaken_sink]
  · exact absurd rfl ht

/-- Settles O53: the bytes an operation emits are those the loop of `Encode` emits for the current byte, and the
registers it leaves are the loop's mode, count and pending bytes for the rest. -/
theorem encoderStepComputesEncode : Obligations.EncoderStepComputesEncode := by
  intro s t h _ hx _ ht
  cases hsel : select .encoder s with
  | none => rw [stepBlock_of_none hsel] at hx; cases hx; rfl
  | some i =>
    rw [stepBlock_of_selected hsel] at hx
    obtain rfl | rfl | ⟨-, -, hc⟩ := isEncoderOp_cases (selectEncoder_isEncoderOp hsel)
    · exact exec_encStart_keepsFinal hx ht
    · obtain ⟨hp, hcur, rfl⟩ := exec_encHalt_cases hx
      obtain ⟨hrun, -⟩ := h
      obtain ⟨hw, -⟩ := hrun hp
      rw [encFinal_run hp, encInput_of_eoi hw hcur, encodeRest_nil, List.append_nil]
      rfl
    · exact exec_classifying_keepsFinal hc h hx ht

/-! ### No step stops in a state of the invariant, and the end of input drains the pending run. -/

theorem stepBlock_decoder_next {s : State} (h : decInv s.dec) : ∃ t, stepBlock .decoder s = .next t := by
  by_cases hp : s.dec.phase = .idle
  · cases hst : s.decPorts.start with
    | true =>
      have hsel : select .decoder s = some .decStart := by
        simp [select, selectDecoder_phase, hp, hst]
      refine ⟨_, (stepBlock_of_selected hsel).trans (whenSelected_next.mpr ⟨?_, rfl, rfl⟩)⟩
      simp [decStartSelected, hp, hst]
    | false => exact ⟨s, stepBlock_of_none (by simp [select, selectDecoder_phase, hp, hst])⟩
  · exact ⟨_, stepBlock_decoder_of_inv h hp⟩

/-- The operation the encoder selects meets its line "Selected when". -/
theorem selectEncoder_encoderSelected {s : State} {i : Instr} (h : selectEncoder s = some i) :
    encoderSelected i s.enc s.encPorts = true := by
  obtain ⟨rfl, hs⟩ | ⟨rfl, hs⟩ | ⟨rfl, hs⟩ | ⟨rfl, hs⟩ | ⟨rfl, hs⟩ | ⟨rfl, hs⟩ | ⟨rfl, hs⟩ | ⟨rfl, hs⟩ :=
    selectEncoder_selected h <;> exact hs

theorem classifyingFits_of_lenFits (i : Instr) {e : Encoder} (h : lenFits e = true) :
    classifyingFits i e = true := by
  cases i <;> first | rfl | exact h

theorem stepBlock_encoder_next {s : State} (h : encInv s.enc) : ∃ t, stepBlock .encoder s = .next t := by
  cases hsel : select .encoder s with
  | none => exact ⟨s, stepBlock_of_none hsel⟩
  | some i =>
    have hi := selectEncoder_isEncoderOp hsel
    have hs := selectEncoder_encoderSelected hsel
    have hfit : classifyingFits i s.enc = true := by
      by_cases hn : i = .encStart
      · rw [hn]; rfl
      · obtain ⟨hrun, -⟩ := h
        obtain ⟨-, hl, -⟩ := hrun (encoderSelected_run hi hs hn)
        exact classifyingFits_of_lenFits i (lenFits_of_ne hl)
    exact ⟨_, (stepBlock_of_selected hsel).trans ((exec_encoderOp hi s).trans
      (whenSelected_next.mpr ⟨hs, hfit, rfl⟩))⟩

theorem stepBlock_next {s : State} (h : machineInv s) (b : Block) : ∃ t, stepBlock b s = .next t := by
  obtain ⟨henc, hdec, -⟩ := h
  cases b with
  | encoder => exact stepBlock_encoder_next henc
  | decoder => exact stepBlock_decoder_next hdec

theorem stepRecord_next {s : State} (h : machineInv s) : ∃ t, stepRecord s = .next t := by
  cases hr : nextRecord s with
  | none => rw [stepRecord_of_none hr]; exact stepBlock_next h .decoder
  | some i =>
    rw [stepRecord_of_record hr, exec_record (nextRecord_isRecord hr)]
    exact ⟨_, whenSelected_next.mpr ⟨by simp [hr], rfl, rfl⟩⟩

theorem exec_start_next (b : Block) (s : State) : ∃ t, exec (.start b) s = .next t := by
  obtain e | ⟨-, hp, e⟩ | ⟨-, hp, e⟩ := exec_start_cases b s <;> rw [e]
  · exact ⟨s, rfl⟩
  · exact ⟨_, whenSelected_next.mpr ⟨by simp [encStartSelected, hp], rfl, rfl⟩⟩
  · exact ⟨_, whenSelected_next.mpr ⟨by simp [decStartSelected, hp], rfl, rfl⟩⟩

theorem exec_reset_next (b : Block) (s : State) : ∃ t, exec (.reset b) s = .next t := by
  cases b <;> exact ⟨_, rfl⟩

theorem rebind_next {b : Block} {s : State} (h : portsInUse b s = false) (p : Ports) :
    rebind b p s = .next (setPorts b p s) := by
  rw [rebind, h]
  rfl

/-- Settles O46: the counters fit by the invariant, a selected operation is never refused, and the premise
excludes the one refusal of an event. -/
theorem stepNeverStops : Obligations.StepNeverStops := by
  intro s h hu
  cases ha : s.agenda with
  | nil => rw [step_of_no_event ha]; exact stepBlock_next (by exact h) s.turn
  | cons ev rest =>
    rw [step_of_event ha]
    rw [nextRebindsInUse, ha] at hu
    cases ev with
    | reset b => exact exec_reset_next b _
    | start b => exact exec_start_next b _
    | run b => exact stepBlock_next (by exact h) b
    | record => exact stepRecord_next (by exact h)
    | bindSource b _ _ | bindSink b _ _ | unbindSource b | unbindSink b => 
      exact ⟨_, rebind_next (by exact hu) _⟩
    | supply b _ _ | acceptMore b _ _ => exact ⟨_, rfl⟩

/-- Settles O50: at the marker the invariant has nothing pending; before it the marker ends a Repeat run, and two
equal symbols, markers both, flush a Literal one. -/
theorem endOfInputDrains : Obligations.EndOfInputDrains := by
  intro s h hp
  obtain ⟨hrun, -⟩ := h
  obtain ⟨⟨-, hwin⟩, -, -, hlen⟩ := hrun hp
  refine ⟨fun hc => ⟨hlen hc, ?_⟩, fun v hc hn => ?_⟩
  · rw [selectEncoder_run hp, hc]
    rfl
  · have hne : ne s.enc = true := by simp [ne, hc, hn]
    have hq : q s.enc = true := by simp [q, hn, hwin hn]
    rw [selectEncoder_run hp, hc, hne, hq]
    cases s.enc.mode with
    | repeatMode => exact .inl rfl
    | literalMode => exact .inr rfl

/-! ### Frames of the registers (R10, R140). -/

section
variable (i : Instr) (e : Encoder)

@[simp] theorem frozenRegisters_mode : (frozenRegisters i e).mode = e.mode := by
  unfold frozenRegisters; split <;> rfl
@[simp] theorem frozenRegisters_cur : (frozenRegisters i e).cur = e.cur := by
  unfold frozenRegisters; split <;> rfl
@[simp] theorem frozenRegisters_next : (frozenRegisters i e).next = e.next := by
  unfold frozenRegisters; split <;> rfl
@[simp] theorem frozenRegisters_nn : (frozenRegisters i e).nn = e.nn := by
  unfold frozenRegisters; split <;> rfl
@[simp] theorem frozenRegisters_len : (frozenRegisters i e).len = e.len := by
  unfold frozenRegisters; split <;> rfl

/-- The Literal-mode operations write the buffer, before any port action (R140). -/
theorem frozenRegisters_lbuf (h : i ∉ [Instr.encLitCont, .encLitFlush, .encLitCap]) :
    (frozenRegisters i e).lbuf = e.lbuf := by
  rw [frozenRegisters, if_neg (by simp_all)]

/-- The buffer's one write is at element `E.len` (R51). -/
theorem frozenRegisters_lbuf_other {j : Nat} (h : j ≠ e.len.toNat) :
    (frozenRegisters i e).lbuf.toList[j]? = e.lbuf.toList[j]? := by
  unfold frozenRegisters
  split
  · rw [appendLiteral, Vector.toList_setIfInBounds, List.getElem?_set_ne h.symm]
  · rfl

/-- The writes after the shift are none of the buffer. -/
theorem encAfter_lbuf (x : Sym) : (encAfter i e x).lbuf = (frozenRegisters i e).lbuf := by
  cases i <;> rfl

theorem encAfter_mode (x : Sym) (h : i ∉ [Instr.encStart, .encRepEnd, .encLitFlush]) :
    (encAfter i e x).mode = e.mode := by
  cases i with
  | encRepEnd | encLitFlush => simp at h
  | _ => rfl
end

/-- Which registers an operation with a current byte leaves alone, whether it completes, waits or faults
(R10, R84 to R89, R140). -/
def keepsEncRegisters (i : Instr) (e e' : Encoder) : Prop :=
  (i ∉ [Instr.encStart, .encRepEnd, .encLitFlush] → e'.mode = e.mode) ∧
    (i ∉ [Instr.encLitCont, .encLitFlush, .encLitCap] → e'.lbuf = e.lbuf) ∧
    (∀ j, j ≠ e.len.toNat → e'.lbuf.toList[j]? = e.lbuf.toList[j]?) ∧
    (e'.phase ≠ .fault → e'.cause = e.cause ∧ e'.subcause = e.subcause) ∧
    (e'.phase = .run ∨ e'.phase = .fault) ∧
    (e'.phase = .fault →
      e'.mode = e.mode ∧ e'.cur = e.cur ∧ e'.next = e.next ∧ e'.nn = e.nn ∧ e'.len = e.len)

theorem keepsEncRegisters_encRaise (i : Instr) (k : FaultKind) (e : Encoder) :
    keepsEncRegisters i e (encRaise k (frozenRegisters i e)) :=
  ⟨fun _ => by simp, frozenRegisters_lbuf i e, fun _ => frozenRegisters_lbuf_other i e, by simp, by simp,
    by simp⟩

theorem keepsEncRegisters_encAfter (i : Instr) {e : Encoder} (x : Sym) (hp : e.phase = .run) :
    keepsEncRegisters i e (encAfter i e x) := by
  refine ⟨encAfter_mode i e x, ?_, ?_, by simp, by simp [hp], by simp [hp]⟩ <;> rw [encAfter_lbuf]
  · exact frozenRegisters_lbuf i e
  · exact fun _ => frozenRegisters_lbuf_other i e

theorem exec_classifying_keepsEncRegisters {i : Instr} {s t : State} (hi : isClassifyingOp i = true)
    (hx : exec i s = .next t) : keepsEncRegisters i s.enc t.enc := by
  obtain ⟨hs, -, h⟩ := exec_classifying_cases hi hx
  obtain ⟨hp, -⟩ := classifyingSelected_cases hs
  obtain rfl | ⟨x, p₁, p', -, -, -, rfl⟩ | ⟨p', -, rfl⟩ | ⟨p₁, p', -, -, -, rfl⟩ := h
  · simp [keepsEncRegisters, hp]
  · exact keepsEncRegisters_encAfter i x hp
  · exact keepsEncRegisters_encRaise i _ s.enc
  · exact keepsEncRegisters_encRaise i _ s.enc

/-- Settles O21: ENC.START and ENC.HALT by their effects, the operations with a current byte by what they write
before their port actions and after the shift. -/
theorem encoderRegistersFrame : Obligations.EncoderRegistersFrame := by
  intro i s t hi hx
  obtain rfl | rfl | ⟨-, hh, hc⟩ := isEncoderOp_cases hi
  · obtain ⟨hp, -, rfl | ⟨k, -, rfl⟩ | ⟨p', -, rfl⟩ | ⟨b, n, x, p₁, p₂, p', -, -, -, -, rfl⟩ |
      ⟨p', -, -, -, -, -, rfl⟩⟩ := exec_encStart_cases hx <;> simp [isClassifyingOp]
  · obtain ⟨hp, -, rfl⟩ := exec_encHalt_cases hx
    simp [isClassifyingOp]
  · obtain ⟨hmode, hbuf, helem, hcause, hphase, hfault⟩ := exec_classifying_keepsEncRegisters hc hx
    exact ⟨hmode, fun h => absurd h hh, hbuf, helem, hcause, fun _ => hphase, hfault⟩

theorem nextSym_of_srcRead {p p' : Ports} {b : Byte} (h : srcRead p = .done (.byte b) p') :
    nextSym p.source = .byte b := by
  obtain ⟨c, r, ha, e⟩ | ⟨r, -, e⟩ | ⟨-, -, e⟩ | ⟨-, -, e⟩ := srcRead_cases p <;> rw [e] at h <;> cases h
  rw [nextSym, ha]

/-- The registers of a decoder after an operation that writes those named, or ends in a fault (R10, R140). -/
def keepsDecRegisters (i : Instr) (d d' : Decoder) : Prop :=
  (i ≠ .decFetch → d'.ctl = d.ctl) ∧ (i ≠ .decRepVal → d'.val = d.val) ∧
    (i ∉ [Instr.decFetch, .decRepOut, .decLitCopy] → d'.cnt = d.cnt) ∧
    (d'.phase ≠ .fault → d'.cause = d.cause ∧ d'.subcause = d.subcause) ∧
    (d'.phase = .fault → d'.cause ≠ 3 → d'.ctl = d.ctl ∧ d'.cnt = d.cnt ∧ d'.val = d.val)

theorem keepsDecRegisters_self (i : Instr) (d : Decoder) : keepsDecRegisters i d d := by
  simp [keepsDecRegisters]

theorem keepsDecRegisters_decRaise (i : Instr) (k : FaultKind) (d : Decoder) :
    keepsDecRegisters i d (decRaise k d) := by
  simp [keepsDecRegisters]

theorem keepsDecRegisters_decCountDown {i : Instr} {d : Decoder} (hi : i = .decRepOut ∨ i = .decLitCopy)
    (hp : d.phase ≠ .fault) : keepsDecRegisters i d (decCountDown d) := by
  have hph : (decCountDown d).phase ≠ .fault := by
    rw [decCountDown]
    dsimp only
    split
    · decide
    · exact hp
  obtain rfl | rfl := hi <;> simp [keepsDecRegisters, hph]

theorem keepsDecRegisters_decTakeControl (d : Decoder) (c : Byte) :
    keepsDecRegisters .decFetch d (decTakeControl d c) := by
  obtain ⟨-, e⟩ | ⟨-, -, e⟩ | ⟨-, -, e⟩ := decTakeControl_cases d c <;> rw [e] <;>
    simp [keepsDecRegisters, causeCode]

/-- The ports of a decoder after an operation that touches those named, and what it appends (R10). -/
def keepsDecPorts (i : Instr) (d : Decoder) (p p' : Ports) : Prop :=
  (i ∉ [Instr.decRepOut, .decLitCopy] → p'.sink = p.sink) ∧
    (i ∉ [Instr.decFetch, .decRepVal, .decLitCopy] → p'.source = p.source) ∧
    (i = .decRepOut → p'.sink.out = p.sink.out ∨ p'.sink.out = p.sink.out ++ [d.val]) ∧
    (i = .decLitCopy → p'.sink.out = p.sink.out ∨
      ∃ b, nextSym p.source = .byte b ∧ p'.sink.out = p.sink.out ++ [b])

theorem keepsDecPorts_self (i : Instr) (d : Decoder) (p : Ports) : keepsDecPorts i d p p := by
  simp [keepsDecPorts]

/-- An operation that reads, and does not write. -/
theorem keepsDecPorts_of_read {i : Instr} {d : Decoder} {p p' : Ports}
    (hi : i ∈ [Instr.decFetch, .decRepVal, .decLitCopy]) (hk : p'.sink = p.sink) :
    keepsDecPorts i d p p' := by
  refine ⟨fun _ => hk, fun h => absurd hi h, fun h => ?_, fun _ => .inl (by rw [hk])⟩
  simp [h] at hi

theorem decFetchOp_frame {d d' : Decoder} {p p' : Ports} (h : decFetchOp d p = some (d', p')) :
    keepsDecRegisters .decFetch d d' ∧ keepsDecPorts .decFetch d p p' := by
  obtain e | ⟨c, _, hr, e⟩ | ⟨_, hr, e⟩ | ⟨_, hr, e⟩ := decFetchOp_cases d p <;> rw [e] at h <;> cases h
  · exact ⟨keepsDecRegisters_decTakeControl d c, keepsDecPorts_of_read (by simp) (srcRead_done_sink hr)⟩
  · exact ⟨by simp [keepsDecRegisters], keepsDecPorts_of_read (by simp) (srcRead_done_sink hr)⟩
  · exact ⟨keepsDecRegisters_decRaise _ _ d, keepsDecPorts_of_read (by simp) (srcRead_raised_sink hr)⟩

theorem decRepValOp_frame {d d' : Decoder} {p p' : Ports} (h : decRepValOp d p = some (d', p')) :
    keepsDecRegisters .decRepVal d d' ∧ keepsDecPorts .decRepVal d p p' := by
  obtain e | ⟨v, _, hr, e⟩ | ⟨_, hr, e⟩ | ⟨_, hr, e⟩ := decRepValOp_cases d p <;> rw [e] at h <;> cases h
  · exact ⟨by simp [keepsDecRegisters], keepsDecPorts_of_read (by simp) (srcRead_done_sink hr)⟩
  · exact ⟨keepsDecRegisters_decRaise _ _ d, keepsDecPorts_of_read (by simp) (srcRead_done_sink hr)⟩
  · exact ⟨keepsDecRegisters_decRaise _ _ d, keepsDecPorts_of_read (by simp) (srcRead_raised_sink hr)⟩

theorem decRepOutOp_frame {d d' : Decoder} {p p' : Ports} (hp : d.phase = .repw)
    (h : decRepOutOp d p = some (d', p')) :
    keepsDecRegisters .decRepOut d d' ∧ keepsDecPorts .decRepOut d p p' := by
  obtain e | ⟨_, hw, e⟩ | ⟨_, hw, e⟩ := decRepOutOp_cases d p <;> rw [e] at h <;> cases h
  · obtain ⟨hsrc, -, -, -, hout⟩ := snkWrite_done_frame hw
    exact ⟨keepsDecRegisters_decCountDown (.inl rfl) (by simp [hp]), by simp [keepsDecPorts, hsrc, hout]⟩
  · obtain ⟨-, hsrc, -, -, -, hout⟩ := snkWrite_raised_frame hw
    exact ⟨keepsDecRegisters_decRaise _ _ d, by simp [keepsDecPorts, hsrc, hout]⟩

theorem decLitCopyOp_frame {d d' : Decoder} {p p' : Ports} (hp : d.phase = .litc)
    (h : decLitCopyOp d p = some (d', p')) :
    keepsDecRegisters .decLitCopy d d' ∧ keepsDecPorts .decLitCopy d p p' := by
  obtain e | ⟨b, _, _, hr, hw, e⟩ | ⟨b, _, _, hr, hw, e⟩ | ⟨_, hr, e⟩ | ⟨_, hr, e⟩ :=
    decLitCopyOp_cases d p <;> rw [e] at h <;> cases h
  · obtain ⟨-, -, -, -, hout⟩ := snkWrite_done_frame hw
    rw [srcRead_done_sink hr] at hout
    exact ⟨keepsDecRegisters_decCountDown (.inr rfl) (by simp [hp]),
      by simp [keepsDecPorts, nextSym_of_srcRead hr, hout]⟩
  · obtain ⟨-, -, -, -, -, hout⟩ := snkWrite_raised_frame hw
    rw [srcRead_done_sink hr] at hout
    exact ⟨keepsDecRegisters_decRaise _ _ d, by simp [keepsDecPorts, hout]⟩
  · exact ⟨keepsDecRegisters_decRaise _ _ d, keepsDecPorts_of_read (by simp) (srcRead_done_sink hr)⟩
  · exact ⟨keepsDecRegisters_decRaise _ _ d, keepsDecPorts_of_read (by simp) (srcRead_raised_sink hr)⟩

theorem decoderOp_frame {i : Instr} {d d' : Decoder} {p p' : Ports} (hs : decoderSelected i d p = true)
    (hn : i ≠ .decStart) (h : decoderOp i d p = some (d', p')) :
    keepsDecRegisters i d d' ∧ keepsDecPorts i d p p' := by
  cases i with
  | decStart => exact absurd rfl hn
  | decFetch => exact decFetchOp_frame h
  | decRepVal => exact decRepValOp_frame h
  | decRepOut => exact decRepOutOp_frame (beq_iff_eq.mp hs) h
  | decLitCopy => exact decLitCopyOp_frame (beq_iff_eq.mp hs) h
  | _ => cases h

theorem exec_decoderOp_frame {i : Instr} {s t : State} (hi : isDecoderOp i = true)
    (hx : exec i s = .next t) :
    keepsDecRegisters i s.dec t.dec ∧ keepsDecPorts i s.dec s.decPorts t.decPorts := by
  by_cases hn : i = .decStart
  · subst hn
    obtain ⟨-, -, ⟨k, -, rfl⟩ | ⟨-, -, rfl⟩⟩ := exec_decStart_cases hx
    · exact ⟨keepsDecRegisters_decRaise _ k s.dec, by simp [keepsDecPorts]⟩
    · exact ⟨by simp [keepsDecRegisters], by simp [keepsDecPorts]⟩
  · rw [exec_decoderOp hi, whenSelected_next] at hx
    obtain ⟨hs, -, rfl⟩ := hx
    cases h : decoderOp i s.dec s.decPorts with
    | none => exact ⟨keepsDecRegisters_self i s.dec, keepsDecPorts_self i s.dec s.decPorts⟩
    | some dp => exact decoderOp_frame hs hn h

/-- Settles O34: each operation keeps the registers and the ports it does not write. -/
theorem decoderRegistersFrame : Obligations.DecoderRegistersFrame := by
  intro i s t hi hx
  obtain ⟨⟨hctl, hval, hcnt, hcause, hfault⟩, hports⟩ := exec_decoderOp_frame hi hx
  exact ⟨hctl, hval, hcnt, hcause, hfault, hports⟩

/-! ### Counters out of range, STATUS, and the values after reset. -/

theorem whenSelected_stop {selected fits : Bool} {stop : Fault} {t : State} (hs : selected = true)
    (hf : fits = false) : whenSelected selected fits stop t = .fault stop := by
  rw [hs, hf]
  rfl

/-- Settles O35: the operation is selected and its counter does not fit. -/
theorem countersOutOfRangeStop : Obligations.CountersOutOfRangeStop := by
  intro s
  refine ⟨fun hl => ?_, fun hc => ?_⟩
  · have hfit : lenFits s.enc = false := by simp [lenFits, hl]
    exact ⟨fun hs => whenSelected_stop hs hfit, fun hs => whenSelected_stop hs hfit,
      fun hs => whenSelected_stop hs hfit, fun hs => whenSelected_stop hs hfit⟩
  · have howed : cntOwed s.dec = false := by simp [cntOwed, hc]
    exact ⟨fun hp => whenSelected_stop (by simp [decRepOutSelected, hp]) howed,
      fun hp => whenSelected_stop (by simp [decLitCopySelected, hp]) howed⟩

/-- The three fields of a word that is their concatenation (R22). -/
theorem status_fields {w : Nat} (s c : BitVec 2) (p : BitVec w) :
    (s ++ c ++ p).extractLsb' 0 w = p ∧ (s ++ c ++ p).extractLsb' w 2 = c ∧
      (s ++ c ++ p).extractLsb' (w + 2) 2 = s := by
  refine ⟨BitVec.extractLsb'_append_eq_right, ?_, ?_⟩
  · rw [BitVec.extractLsb'_append_eq_of_le (Nat.le_refl w), Nat.sub_self,
      BitVec.extractLsb'_append_eq_right]
  · rw [BitVec.extractLsb'_append_eq_of_le (Nat.le_add_right w 2), Nat.add_sub_cancel_left,
      BitVec.extractLsb'_append_eq_left]

/-- Settles O39: the fields of STATUS are the registers, and the phase's code is read off the phase. -/
theorem statusLayout : Obligations.StatusLayout := by
  refine ⟨fun e => ?_, fun d => ?_⟩
  · obtain ⟨hp, hc, hs⟩ := status_fields e.subcause e.cause (encPhaseCode e.phase)
    rw [encStatus]
    refine ⟨?_, ?_, ?_, ?_, hp, hc, hs⟩ <;> intro h <;> rw [hp, h] <;> rfl
  · obtain ⟨hp, hc, hs⟩ := status_fields d.subcause d.cause (decPhaseCode d.phase)
    rw [decStatus]
    refine ⟨?_, ?_, ?_, ?_, ?_, ?_, ?_, hp, hc, hs⟩ <;> intro h <;> rw [hp, h] <;> rfl

theorem encStatus_eq_zero {e : Encoder} (hp : e.phase = .idle) (hc : e.cause = 0) (hs : e.subcause = 0) :
    encStatus e = 0 := by
  rw [encStatus, hp, hc, hs]
  decide

theorem decStatus_eq_zero {d : Decoder} (hp : d.phase = .idle) (hc : d.cause = 0) (hs : d.subcause = 0) :
    decStatus d = 0 := by
  rw [decStatus, hp, hc, hs]
  decide

/-- Settles O44: STATUS is the phase, the cause and the subcause, and reset gives all three. -/
theorem resetValues : Obligations.ResetValues := by
  refine ⟨fun s => ⟨⟨_, rfl, rfl, ?_⟩, ⟨_, rfl, rfl, ?_⟩⟩, rfl, rfl, rfl, rfl, rfl, rfl, ?_, ?_⟩
  · exact encStatus_eq_zero rfl rfl rfl
  · exact decStatus_eq_zero rfl rfl rfl
  · exact encStatus_eq_zero rfl rfl rfl
  · exact decStatus_eq_zero rfl rfl rfl

end Sys2Proof.Machine

/-! PROOFS, family 20_memory: what the encoder stores and reads, the growth of the streams over a step, and
what the host's events make of a block's ports. -/

namespace Sys2Proof.Machine

/-! ### What an operation of the encoder stores (R45, R46, R85 to R89). -/

theorem exec_encStart_sink {s t : State} (hx : exec .encStart s = .next t) :
    t.encPorts.sink = s.encPorts.sink := by
  obtain ⟨-, -, rfl | ⟨k, -, rfl⟩ | ⟨p', hr, rfl⟩ | ⟨b, n, x, p₁, p₂, p', hr₁, hr₂, hn, hr₃, rfl⟩ |
    ⟨p', hk, -, -, -, -, rfl⟩⟩ := exec_encStart_cases hx
  · rfl
  · rfl
  · rw [srcRead_done_sink hr, startTaken_sink]
  · calc p'.sink
      _ = p₂.sink := sink_of_srcReadAfter hn hr₃
      _ = p₁.sink := srcRead_done_sink hr₂
      _ = (startTaken s.encPorts).sink := srcRead_done_sink hr₁
      _ = s.encPorts.sink := startTaken_sink _
  · exact hk

theorem exec_encHalt_ports {s t : State} (hx : exec .encHalt s = .next t) : t.encPorts = s.encPorts := by
  obtain ⟨-, -, rfl⟩ := exec_encHalt_cases hx
  rfl

/-- An operation with a current byte that emits no record leaves the sink as it is. -/
theorem exec_classifying_sink_of_no_record {i : Instr} {s t : State} (hi : isClassifyingOp i = true)
    (hrec : recordEmitted i s.enc = []) (hx : exec i s = .next t) :
    t.encPorts.sink = s.encPorts.sink := by
  obtain ⟨-, -, h⟩ := exec_classifying_cases hi hx
  rw [hrec, snkWriteMany] at h
  obtain rfl | ⟨x, p₁, p', hw, hn, hr, rfl⟩ | ⟨p', hw, -⟩ | ⟨p₁, p', hw, -, hr, rfl⟩ := h
  · rfl
  · cases hw
    exact sink_of_srcReadAfter hn hr
  · cases hw
  · cases hw
    exact srcRead_raised_sink hr

/-- An operation with a current byte appends its record, or the front of it where it waits or faults (R46). -/
theorem exec_classifying_appends {i : Instr} {s t : State} (hi : isClassifyingOp i = true)
    (hx : exec i s = .next t) :
    t.encPorts.sink.out = s.encPorts.sink.out ++ recordEmitted i s.enc ∨
      (t = s ∨ t.enc.phase = .fault) ∧
        ∃ j, t.encPorts.sink.out = s.encPorts.sink.out ++ (recordEmitted i s.enc).take j := by
  obtain ⟨-, -, rfl | ⟨x, p₁, p', hw, hn, hr, rfl⟩ | ⟨p', hw, rfl⟩ | ⟨p₁, p', hw, -, hr, rfl⟩⟩ :=
    exec_classifying_cases hi hx
  · exact .inr ⟨.inl rfl, 0, by simp⟩
  · obtain ⟨-, -, -, hout⟩ := snkWriteMany_done_frame hw
    exact .inl (by rw [sink_of_srcReadAfter hn hr, hout])
  · obtain ⟨-, -, -, -, j, -, hout⟩ := snkWriteMany_raised_frame hw
    exact .inr ⟨.inr rfl, j, hout⟩
  · obtain ⟨-, -, -, hout⟩ := snkWriteMany_done_frame hw
    exact .inl (by rw [srcRead_raised_sink hr, hout])

theorem recordEmitted_eq_nil {i : Instr} (h : i ∈ [Instr.encStart, .encHalt, .encRepCont, .encLitCont])
    (e : Encoder) : recordEmitted i e = [] := by
  simp only [List.mem_cons, List.not_mem_nil, or_false] at h
  obtain rfl | rfl | rfl | rfl := h <;> rfl

/-- The four operations that emit no record leave the sink as it is. -/
theorem exec_encoderOp_sink_of_no_record {i : Instr} {s t : State}
    (h : i ∈ [Instr.encStart, .encHalt, .encRepCont, .encLitCont]) (hi : isEncoderOp i = true)
    (hx : exec i s = .next t) : t.encPorts.sink = s.encPorts.sink := by
  obtain rfl | rfl | ⟨-, -, hc⟩ := isEncoderOp_cases hi
  · exact exec_encStart_sink hx
  · rw [exec_encHalt_ports hx]
  · exact exec_classifying_sink_of_no_record hc (recordEmitted_eq_nil h s.enc) hx

/-- Settles O22: an operation that emits no record leaves the sink alone, the others append theirs. -/
theorem encoderWritesItsRecord : Obligations.EncoderWritesItsRecord := by
  intro i s t hi hx
  by_cases h : i ∈ [Instr.encStart, .encHalt, .encRepCont, .encLitCont]
  · have hsink := exec_encoderOp_sink_of_no_record h hi hx
    rw [recordEmitted_eq_nil h, hsink]
    exact ⟨⟨0, by simp⟩, fun _ _ => by simp, fun _ => rfl⟩
  · have hc : isClassifyingOp i = true := by
      obtain rfl | rfl | ⟨-, -, hc⟩ := isEncoderOp_cases hi
      · simp at h
      · simp at h
      · exact hc
    obtain hout | ⟨hend, j, hout⟩ := exec_classifying_appends hc hx
    · exact ⟨⟨_, by rw [List.take_length, hout]⟩, fun _ _ => hout, fun h' => absurd h' h⟩
    · refine ⟨⟨j, hout⟩, fun hf hs => ?_, fun h' => absurd h' h⟩
      exact (hend.elim hs hf).elim

/-- Settles O23: after the marker the shift reads nothing, and writes leave the source alone. -/
theorem noReadAfterMarker : Obligations.NoReadAfterMarker := by
  intro i s t hi hnn hx
  obtain ⟨-, -, rfl | ⟨x, p₁, p', hw, hn, -, rfl⟩ | ⟨p', hw, rfl⟩ | ⟨p₁, p', -, hne, -⟩⟩ :=
    exec_classifying_cases hi hx
  · rfl
  · obtain ⟨-, rfl⟩ := hn hnn
    obtain ⟨hsrc, -⟩ := snkWriteMany_done_frame hw
    exact hsrc
  · obtain ⟨-, hsrc, -⟩ := snkWriteMany_raised_frame hw
    exact hsrc
  · exact absurd hnn hne

/-! ### Streams only grow (R41, R45, R52). -/

/-- What a sink has accepted and what a source has handed over stay in front. -/
structure StreamsGrow (p p' : Ports) : Prop where
  sink : p.sink.out <+: p'.sink.out
  source : p.source.taken <+: p'.source.taken

theorem StreamsGrow.of_eq {p p' : Ports} (hk : p'.sink.out = p.sink.out)
    (hs : p'.source.taken = p.source.taken) : StreamsGrow p p' :=
  ⟨hk ▸ List.prefix_refl _, hs ▸ List.prefix_refl _⟩

theorem StreamsGrow.refl (p : Ports) : StreamsGrow p p := .of_eq rfl rfl

theorem StreamsGrow.trans {p₁ p₂ p₃ : Ports} (h : StreamsGrow p₁ p₂) (h' : StreamsGrow p₂ p₃) :
    StreamsGrow p₁ p₃ :=
  ⟨h.sink.trans h'.sink, h.source.trans h'.source⟩

theorem startTaken_grows (p : Ports) : StreamsGrow p (startTaken p) := .of_eq rfl rfl

theorem startIssued_grows (p : Ports) : StreamsGrow p (startIssued p) := .of_eq rfl rfl

theorem srcRead_done_grows {p p' : Ports} {x : Sym} (h : srcRead p = .done x p') : StreamsGrow p p' := by
  obtain ⟨hk, -, -, ht⟩ := srcRead_done_frame h
  exact ⟨by rw [hk], ht ▸ List.prefix_append _ _⟩

theorem srcRead_raised_grows {p p' : Ports} {k : FaultKind} (h : srcRead p = .raised k p') :
    StreamsGrow p p' := by
  obtain ⟨-, hk, -, -, ht⟩ := srcRead_raised_frame h
  exact .of_eq (by rw [hk]) ht

/-- A read that succeeds, or none once the marker has been received (R43). -/
theorem srcReadAfter_grows {y x : Sym} {p p' : Ports} (hn : y = .eoi → x = .eoi ∧ p' = p)
    (hr : y ≠ .eoi → srcRead p = .done x p') : StreamsGrow p p' := by
  by_cases h : y = .eoi
  · rw [(hn h).2]; exact .refl p
  · exact srcRead_done_grows (hr h)

theorem snkWrite_done_grows {b : Byte} {p p' : Ports} (h : snkWrite b p = .done () p') :
    StreamsGrow p p' := by
  obtain ⟨hs, -, -, -, hout⟩ := snkWrite_done_frame h
  exact ⟨hout ▸ List.prefix_append _ _, by rw [hs]⟩

theorem snkWrite_raised_grows {b : Byte} {p p' : Ports} {k : FaultKind} (h : snkWrite b p = .raised k p') :
    StreamsGrow p p' := by
  obtain ⟨-, hs, -, -, -, hout⟩ := snkWrite_raised_frame h
  exact .of_eq hout (by rw [hs])

theorem snkWriteMany_done_grows {bs : List Byte} {p p' : Ports} (h : snkWriteMany bs p = .done () p') :
    StreamsGrow p p' := by
  obtain ⟨hs, -, -, hout⟩ := snkWriteMany_done_frame h
  exact ⟨hout ▸ List.prefix_append _ _, by rw [hs]⟩

theorem snkWriteMany_raised_grows {bs : List Byte} {p p' : Ports} {k : FaultKind}
    (h : snkWriteMany bs p = .raised k p') : StreamsGrow p p' := by
  obtain ⟨-, hs, -, -, j, -, hout⟩ := snkWriteMany_raised_frame h
  exact ⟨hout ▸ List.prefix_append _ _, by rw [hs]⟩

/-! The encoder's operations. -/

theorem exec_encStart_grows {s t : State} (hx : exec .encStart s = .next t) :
    StreamsGrow s.encPorts t.encPorts := by
  obtain ⟨-, -, rfl | ⟨k, -, rfl⟩ | ⟨p', hr, rfl⟩ | ⟨b, n, x, p₁, p₂, p', hr₁, hr₂, hn, hr₃, rfl⟩ |
    ⟨p', hk, -, -, -, ht, rfl⟩⟩ := exec_encStart_cases hx
  · exact .refl _
  · exact startTaken_grows _
  · exact (startTaken_grows _).trans (srcRead_done_grows hr)
  · have first := (startTaken_grows s.encPorts).trans (srcRead_done_grows hr₁)
    exact (first.trans (srcRead_done_grows hr₂)).trans (srcReadAfter_grows hn hr₃)
  · exact ⟨by rw [hk], ht⟩

theorem exec_classifying_grows {i : Instr} {s t : State} (hi : isClassifyingOp i = true)
    (hx : exec i s = .next t) : StreamsGrow s.encPorts t.encPorts := by
  obtain ⟨-, -, rfl | ⟨x, p₁, p', hw, hn, hr, rfl⟩ | ⟨p', hw, rfl⟩ | ⟨p₁, p', hw, -, hr, rfl⟩⟩ :=
    exec_classifying_cases hi hx
  · exact .refl _
  · exact (snkWriteMany_done_grows hw).trans (srcReadAfter_grows hn hr)
  · exact snkWriteMany_raised_grows hw
  · exact (snkWriteMany_done_grows hw).trans (srcRead_raised_grows hr)

theorem exec_encoderOp_grows {i : Instr} {s t : State} (hi : isEncoderOp i = true)
    (hx : exec i s = .next t) : StreamsGrow s.encPorts t.encPorts := by
  obtain rfl | rfl | ⟨-, -, hc⟩ := isEncoderOp_cases hi
  · exact exec_encStart_grows hx
  · rw [exec_encHalt_ports hx]; exact .refl _
  · exact exec_classifying_grows hc hx

/-! The decoder's operations and the records. -/

theorem decFetchOp_grows (d : Decoder) (p : Ports) : StreamsGrow p (portsAfter p (decFetchOp d p)) := by
  obtain e | ⟨c, _, h, e⟩ | ⟨_, h, e⟩ | ⟨_, h, e⟩ := decFetchOp_cases d p <;> rw [e]
  · exact .refl p
  · exact srcRead_done_grows h
  · exact srcRead_done_grows h
  · exact srcRead_raised_grows h

theorem decRepValOp_grows (d : Decoder) (p : Ports) : StreamsGrow p (portsAfter p (decRepValOp d p)) := by
  obtain e | ⟨v, _, h, e⟩ | ⟨_, h, e⟩ | ⟨_, h, e⟩ := decRepValOp_cases d p <;> rw [e]
  · exact .refl p
  · exact srcRead_done_grows h
  · exact srcRead_done_grows h
  · exact srcRead_raised_grows h

theorem decRepOutOp_grows (d : Decoder) (p : Ports) : StreamsGrow p (portsAfter p (decRepOutOp d p)) := by
  obtain e | ⟨_, h, e⟩ | ⟨_, h, e⟩ := decRepOutOp_cases d p <;> rw [e]
  · exact .refl p
  · exact snkWrite_done_grows h
  · exact snkWrite_raised_grows h

theorem decLitCopyOp_grows (d : Decoder) (p : Ports) : StreamsGrow p (portsAfter p (decLitCopyOp d p)) := by
  obtain e | ⟨b, _, _, hr, hw, e⟩ | ⟨b, _, _, hr, hw, e⟩ | ⟨_, h, e⟩ | ⟨_, h, e⟩ :=
    decLitCopyOp_cases d p <;> rw [e]
  · exact .refl p
  · exact (srcRead_done_grows hr).trans (snkWrite_done_grows hw)
  · exact (srcRead_done_grows hr).trans (snkWrite_raised_grows hw)
  · exact srcRead_done_grows h
  · exact srcRead_raised_grows h

theorem decPhaseOp_grows (d : Decoder) (p : Ports) : StreamsGrow p (portsAfter p (decPhaseOp d p)) := by
  unfold decPhaseOp
  split
  · exact decFetchOp_grows d p
  · exact decRepValOp_grows d p
  · exact decRepOutOp_grows d p
  · exact decLitCopyOp_grows d p
  all_goals exact .refl p

theorem decRun_grows (k : Nat) (d : Decoder) (p : Ports) : StreamsGrow p (decRun k d p).2 := by
  induction k generalizing d p with
  | zero => exact .refl p
  | succ k ih =>
    rw [decRun]
    split
    · rename_i d' p' h
      have first := decPhaseOp_grows d p
      rw [h] at first
      exact first.trans (ih d' p')
    · exact .refl p

theorem exec_decStart_grows {s t : State} (hx : exec .decStart s = .next t) :
    StreamsGrow s.decPorts t.decPorts := by
  obtain ⟨-, -, ⟨k, -, rfl⟩ | ⟨-, -, rfl⟩⟩ := exec_decStart_cases hx <;> exact startTaken_grows _

theorem exec_decoderOp_grows {i : Instr} {s t : State} (hi : isDecoderOp i = true)
    (hx : exec i s = .next t) : StreamsGrow s.decPorts t.decPorts := by
  by_cases hn : i = .decStart
  · subst hn
    exact exec_decStart_grows hx
  · rw [exec_decoderOp hi, whenSelected_next] at hx
    obtain ⟨-, -, rfl⟩ := hx
    rw [putDecoder_portsAfter]
    cases i with
    | decStart => exact absurd rfl hn
    | decFetch => exact decFetchOp_grows _ _
    | decRepVal => exact decRepValOp_grows _ _
    | decRepOut => exact decRepOutOp_grows _ _
    | decLitCopy => exact decLitCopyOp_grows _ _
    | _ => cases hi

theorem exec_record_grows {i : Instr} {s t : State} (hi : i.isRecord = true) (hx : exec i s = .next t) :
    StreamsGrow s.decPorts t.decPorts := by
  rw [exec_record hi, whenSelected_next] at hx
  obtain ⟨-, -, rfl⟩ := hx
  exact decRun_grows _ _ _

/-! The step: the streams of both blocks, of which an operation moves one. -/

theorem exec_encoderOp_streamsGrow {i : Instr} {s t : State} (hi : isEncoderOp i = true)
    (hx : exec i s = .next t) (c : Block) : StreamsGrow (portsOf c s) (portsOf c t) := by
  obtain ⟨-, hother, -⟩ := encoderOperationsFrame i s t hi hx
  cases c with
  | encoder => exact exec_encoderOp_grows hi hx
  | decoder => exact .of_eq (by rw [portsOf, portsOf, hother]) (by rw [portsOf, portsOf, hother])

theorem exec_decoderInstr_streamsGrow {i : Instr} {s t : State} (hi : isDecoderInstr i = true)
    (hx : exec i s = .next t) (c : Block) : StreamsGrow (portsOf c s) (portsOf c t) := by
  obtain ⟨-, hother, -⟩ := decoderInstructionsFrame i s t hi hx
  cases c with
  | encoder => exact .of_eq (by rw [portsOf, portsOf, hother]) (by rw [portsOf, portsOf, hother])
  | decoder =>
    exact (Bool.or_eq_true_iff.mp hi).elim (exec_decoderOp_grows · hx) (exec_record_grows · hx)

theorem stepBlock_streamsGrow {b : Block} {s t : State} (hx : stepBlock b s = .next t) (c : Block) :
    StreamsGrow (portsOf c s) (portsOf c t) := by
  cases hs : select b s with
  | none => rw [stepBlock_of_none hs] at hx; cases hx; exact .refl _
  | some i =>
    rw [stepBlock_of_selected hs] at hx
    cases b with
    | encoder => exact exec_encoderOp_streamsGrow (selectEncoder_isEncoderOp hs) hx c
    | decoder =>
      have hi := selectDecoder_isDecoderOp hs
      exact exec_decoderInstr_streamsGrow (by rw [isDecoderInstr, hi, Bool.true_or]) hx c

theorem stepRecord_streamsGrow {s t : State} (hx : stepRecord s = .next t) (c : Block) :
    StreamsGrow (portsOf c s) (portsOf c t) := by
  cases hr : nextRecord s with
  | none => rw [stepRecord_of_none hr] at hx; exact stepBlock_streamsGrow hx c
  | some i =>
    rw [stepRecord_of_record hr] at hx
    have hi := nextRecord_isRecord hr
    exact exec_decoderInstr_streamsGrow (by rw [isDecoderInstr, hi, Bool.or_true]) hx c

theorem exec_reset_streamsGrow {b : Block} {s t : State} (hx : exec (.reset b) s = .next t) (c : Block) :
    StreamsGrow (portsOf c s) (portsOf c t) := by
  cases b <;> cases hx <;> cases c <;> exact .of_eq rfl rfl

/-- Issuing the `start` command is no port action. -/
theorem portsOf_startIssued_streamsGrow (s : State) (c : Block) :
    StreamsGrow (portsOf c s) (portsOf c { s with encPorts := startIssued s.encPorts }) ∧
      StreamsGrow (portsOf c s) (portsOf c { s with decPorts := startIssued s.decPorts }) := by
  cases c with
  | encoder => exact ⟨startIssued_grows _, .refl _⟩
  | decoder => exact ⟨.refl _, startIssued_grows _⟩

theorem exec_start_streamsGrow {b : Block} {s t : State} (hx : exec (.start b) s = .next t) (c : Block) :
    StreamsGrow (portsOf c s) (portsOf c t) := by
  obtain ⟨henc, hdec⟩ := portsOf_startIssued_streamsGrow s c
  obtain e | ⟨-, -, e⟩ | ⟨-, -, e⟩ := exec_start_cases b s <;> rw [e] at hx
  · cases hx; exact .refl _
  · exact henc.trans (exec_encoderOp_streamsGrow rfl hx c)
  · exact hdec.trans (exec_decoderInstr_streamsGrow rfl hx c)

/-! ### The host's events on a block's ports (R47, R131, R163). -/

theorem setPorts_self (b : Block) (s : State) : setPorts b (portsOf b s) s = s := by cases b <;> rfl

/-- New ports are those of their own block. -/
theorem portsOf_setPorts_cases (b c : Block) (p : Ports) (s : State) :
    portsOf c (setPorts b p s) = portsOf c s ∨ c = b ∧ portsOf c (setPorts b p s) = p := by
  cases b <;> cases c <;> simp [portsOf, setPorts]

theorem setPorts_streamsGrow {b : Block} {p : Ports} {s : State} (h : StreamsGrow (portsOf b s) p)
    (c : Block) : StreamsGrow (portsOf c s) (portsOf c (setPorts b p s)) := by
  obtain e | ⟨rfl, e⟩ := portsOf_setPorts_cases b c p s <;> rw [e]
  · exact .refl _
  · exact h

theorem rebind_eq_next {b : Block} {p : Ports} {s t : State} (hx : rebind b p s = .next t) :
    t = setPorts b p s := by
  unfold rebind at hx
  split at hx <;> cases hx
  rfl

theorem rebind_refused {b : Block} {s : State} (h : portsInUse b s = true) (p : Ports) :
    rebind b p s = .refused .portInUse := by
  rw [rebind, h]
  rfl

theorem supplySource_silent {src : Source} (h : src.tail = .silent) (a : List SrcAnswer) (tl : SrcTail) :
    supplySource a tl src = { src with answers := src.answers ++ a, tail := tl } := by
  rw [supplySource, h]

theorem supplySource_ended {src : Source} (h : src.tail = .ended) (a : List SrcAnswer) (tl : SrcTail) :
    supplySource a tl src = src := by
  rw [supplySource, h]

theorem supplySink_silent {snk : Sink} (h : snk.tail = .silent) (a : List SnkAnswer) (tl : SnkTail) :
    supplySink a tl snk = { snk with answers := snk.answers ++ a, tail := tl } := by
  rw [supplySink, h]

theorem supplySink_accepting {snk : Sink} (h : snk.tail = .accepting) (a : List SnkAnswer)
    (tl : SnkTail) : supplySink a tl snk = snk := by
  rw [supplySink, h]

/-- Further answers hand nothing over by themselves. -/
@[simp] theorem supplySource_taken (a : List SrcAnswer) (tl : SrcTail) (src : Source) :
    (supplySource a tl src).taken = src.taken := by
  unfold supplySource; split <;> rfl

/-- Further acceptances take nothing by themselves. -/
@[simp] theorem supplySink_out (a : List SnkAnswer) (tl : SnkTail) (snk : Sink) :
    (supplySink a tl snk).out = snk.out := by
  unfold supplySink; split <;> rfl

/-- Every event but the two that bind a new stream. -/
theorem perform_streamsGrow {ev : Event} {s t : State} (hx : perform ev s = .next t)
    (hsnk : ∀ b a tl, ev ≠ .bindSink b a tl) (hsrc : ∀ b a tl, ev ≠ .bindSource b a tl) (c : Block) :
    StreamsGrow (portsOf c s) (portsOf c t) := by
  cases ev with
  | reset b => exact exec_reset_streamsGrow hx c
  | start b => exact exec_start_streamsGrow hx c
  | run b => exact stepBlock_streamsGrow hx c
  | record => exact stepRecord_streamsGrow hx c
  | bindSource b a tl => exact absurd rfl (hsrc b a tl)
  | bindSink b a tl => exact absurd rfl (hsnk b a tl)
  | unbindSource b | unbindSink b =>
    rw [rebind_eq_next hx]
    refine setPorts_streamsGrow ?_ c
    exact .of_eq rfl rfl
  | supply b a tl =>
    cases hx
    refine setPorts_streamsGrow ?_ c
    exact .of_eq rfl (supplySource_taken ..)
  | acceptMore b a tl =>
    cases hx
    refine setPorts_streamsGrow ?_ c
    exact .of_eq (supplySink_out ..) rfl

/-- Binding a new sink begins a new output, of that block alone, and leaves the sources. -/
theorem perform_bindSink_grows {b : Block} {a : List SnkAnswer} {tl : SnkTail} {s t : State}
    (hx : perform (.bindSink b a tl) s = .next t) (c : Block) :
    (c ≠ b → (portsOf c s).sink.out <+: (portsOf c t).sink.out) ∧
      (portsOf c s).source.taken <+: (portsOf c t).source.taken := by
  rw [rebind_eq_next hx]
  obtain e | ⟨rfl, e⟩ := portsOf_setPorts_cases b c _ s <;> rw [e]
  · exact ⟨fun _ => List.prefix_refl _, List.prefix_refl _⟩
  · exact ⟨fun h => absurd rfl h, List.prefix_refl _⟩

/-- Binding a new source begins a new input, of that block alone, and leaves the sinks. -/
theorem perform_bindSource_grows {b : Block} {a : List SrcAnswer} {tl : SrcTail} {s t : State}
    (hx : perform (.bindSource b a tl) s = .next t) (c : Block) :
    (portsOf c s).sink.out <+: (portsOf c t).sink.out ∧
      (c ≠ b → (portsOf c s).source.taken <+: (portsOf c t).source.taken) := by
  rw [rebind_eq_next hx]
  obtain e | ⟨rfl, e⟩ := portsOf_setPorts_cases b c _ s <;> rw [e]
  · exact ⟨List.prefix_refl _, fun _ => List.prefix_refl _⟩
  · exact ⟨List.prefix_refl _, fun h => absurd rfl h⟩

/-- The ports do not depend on the agenda and the turn. -/
theorem portsOf_schedule (c : Block) (s : State) (a : List Event) (b : Block) :
    portsOf c { s with agenda := a, turn := b } = portsOf c s := by
  cases c <;> rfl

/-- Settles O48: turns and the other events let both streams grow; a binding event moves the stream of its own
port alone. -/
theorem streamsOnlyGrow : Obligations.StreamsOnlyGrow := by
  intro s t c hx
  cases ha : s.agenda with
  | nil =>
    rw [step_of_no_event ha] at hx
    have h := stepBlock_streamsGrow hx c
    rw [portsOf_schedule] at h
    exact ⟨fun _ => h.sink, fun _ => h.source⟩
  | cons ev rest =>
    rw [step_of_event ha] at hx
    rw [← portsOf_schedule c s rest s.turn]
    cases ev with
    | bindSink b a tl =>
      obtain ⟨hsnk, hsrc⟩ := perform_bindSink_grows hx c
      exact ⟨fun h => hsnk fun hc => h a tl rest (by rw [hc]), fun _ => hsrc⟩
    | bindSource b a tl =>
      obtain ⟨hsnk, hsrc⟩ := perform_bindSource_grows hx c
      exact ⟨fun _ => hsnk, fun h => hsrc fun hc => h a tl rest (by rw [hc])⟩
    | _ =>
      have h := perform_streamsGrow hx (by simp) (by simp) c
      exact ⟨fun _ => h.sink, fun _ => h.source⟩

/-- A binding event in use is refused (log entry 6). -/
theorem step_rebindsInUse {s : State} (h : nextRebindsInUse s = true) : step s = .refused .portInUse := by
  cases ha : s.agenda with
  | nil => simp [nextRebindsInUse, ha] at h
  | cons ev rest =>
    rw [nextRebindsInUse, ha] at h
    rw [step_of_event ha]
    cases ev with
    | bindSource b _ _ | bindSink b _ _ | unbindSource b | unbindSink b =>
      exact rebind_refused (by exact h) _
    | _ => cases h

theorem perform_supply_silent {b : Block} {s : State} (h : (portsOf b s).source.tail = .silent)
    (a : List SrcAnswer) (tl : SrcTail) :
    perform (.supply b a tl) s =
      .next (setPorts b { portsOf b s with
        source := { (portsOf b s).source with
          answers := (portsOf b s).source.answers ++ a, tail := tl } } s) := by
  rw [perform, supplySource_silent h]

theorem perform_supply_ended {b : Block} {s : State} (h : (portsOf b s).source.tail = .ended)
    (a : List SrcAnswer) (tl : SrcTail) : perform (.supply b a tl) s = .next s := by
  rw [perform, supplySource_ended h, setPorts_self]

theorem perform_acceptMore_silent {b : Block} {s : State} (h : (portsOf b s).sink.tail = .silent)
    (a : List SnkAnswer) (tl : SnkTail) :
    perform (.acceptMore b a tl) s =
      .next (setPorts b { portsOf b s with
        sink := { (portsOf b s).sink with answers := (portsOf b s).sink.answers ++ a, tail := tl } } s) := by
  rw [perform, supplySink_silent h]

theorem perform_acceptMore_accepting {b : Block} {s : State} (h : (portsOf b s).sink.tail = .accepting)
    (a : List SnkAnswer) (tl : SnkTail) : perform (.acceptMore b a tl) s = .next s := by
  rw [perform, supplySink_accepting h, setPorts_self]

/-! ### A hold of the decoder and its end (R47; log entry 3). -/

/-- A turn of the decoder on the agenda, in a phase of a run. -/
theorem step_run_decoder {s : State} {rest : List Event} (ha : s.agenda = .run .decoder :: rest)
    {r : Option (Decoder × Ports)} (hi : s.dec.phase ≠ .idle)
    (hc : s.dec.phase = .repw ∨ s.dec.phase = .litc → s.dec.cnt ≠ 0)
    (hr : decPhaseOp s.dec s.decPorts = r) : step s = .next (putDecoder { s with agenda := rest } r) := by
  rw [step_of_event ha, ← hr]
  exact stepBlock_decoder hi hc

theorem decTakeControl_ctl (d : Decoder) (c : Byte) : (decTakeControl d c).ctl = c := by
  obtain ⟨-, e⟩ | ⟨-, -, e⟩ | ⟨-, -, e⟩ := decTakeControl_cases d c <;> exact e ▸ rfl

theorem decPhaseOp_fetch_silent {d : Decoder} {p : Ports} (hp : d.phase = .fetch)
    (ha : p.source.answers = []) (ht : p.source.tail = .silent) : decPhaseOp d p = none := by
  rw [decPhaseOp, hp]
  simp only [decFetchOp, decFetchAct, srcRead_silent ha ht, andThen_pending, finish_pending]

theorem decPhaseOp_fetch_byte {d : Decoder} {p : Ports} {c : Byte} {rest : List SrcAnswer}
    (hp : d.phase = .fetch) (ha : p.source.answers = .byte c :: rest) :
    ∃ p', decPhaseOp d p = some (decTakeControl d c, p') ∧
      p'.source.taken = p.source.taken ++ [.byte c] := by
  rw [decPhaseOp, hp]
  simp only [decFetchOp, decFetchAct, srcRead_byte ha, andThen_done, finish_done]
  exact ⟨_, rfl, rfl⟩

theorem decPhaseOp_repw_silent {d : Decoder} {p : Ports} (hp : d.phase = .repw)
    (ha : p.sink.answers = []) (ht : p.sink.tail = .silent) : decPhaseOp d p = none := by
  rw [decPhaseOp, hp]
  simp only [decRepOutOp, snkWrite_silent ha ht, andThen_pending, finish_pending]

theorem decPhaseOp_repw_accept {d : Decoder} {p : Ports} {rest : List SnkAnswer}
    (hp : d.phase = .repw) (ha : p.sink.answers = .accept :: rest) :
    ∃ p', decPhaseOp d p = some (decCountDown d, p') ∧ p'.sink.out = p.sink.out ++ [d.val] := by
  have hready : sinkReady 1 p.sink := ⟨by simp [ha], by simp [ha]⟩
  rw [decPhaseOp, hp]
  simp only [decRepOutOp, snkWrite_ready hready, andThen_done, finish_done]
  exact ⟨_, rfl, rfl⟩

/-- A turn that waits, an event that gives the decoder the ports `p`, and a turn that goes on with them. -/
theorem hold_lifted {s : State} {ev : Event} {rest : List Event} {p p' : Ports} {d' : Decoder}
    (ha : s.agenda = .run .decoder :: ev :: .run .decoder :: rest) (hi : s.dec.phase ≠ .idle)
    (hc : s.dec.phase = .repw ∨ s.dec.phase = .litc → s.dec.cnt ≠ 0)
    (hwait : decPhaseOp s.dec s.decPorts = none)
    (hev : ∀ r, perform ev { s with agenda := r } = .next (setPorts .decoder p { s with agenda := r }))
    (hgo : decPhaseOp s.dec p = some (d', p')) :
    ∃ t u, step s = .next { s with agenda := s.agenda.tail } ∧
      step { s with agenda := s.agenda.tail } = .next t ∧ t.dec = s.dec ∧
      step t = .next u ∧ u.dec = d' ∧ u.decPorts = p' := by
  have waits : step s = .next { s with agenda := s.agenda.tail } := by
    rw [step_run_decoder ha hi hc hwait, ha]
    rfl
  have supplied : step { s with agenda := s.agenda.tail } =
      .next (setPorts .decoder p { s with agenda := .run .decoder :: rest }) := by
    rw [ha]
    exact (step_of_event rfl).trans (hev _)
  have goesOn := step_run_decoder (s := setPorts .decoder p { s with agenda := .run .decoder :: rest })
    rfl hi hc hgo
  exact ⟨_, _, waits, supplied, rfl, goesOn, rfl, rfl⟩

/-- A decoder in FETCH at a silent source takes the supplied control byte at its next turn. -/
theorem fetch_hold_lifted {s : State} {c : Byte} {a : List SrcAnswer} {tl : SrcTail} {rest : List Event}
    (hp : s.dec.phase = .fetch) (hans : s.decPorts.source.answers = [])
    (htl : s.decPorts.source.tail = .silent)
    (ha : s.agenda = .run .decoder :: .supply .decoder (.byte c :: a) tl :: .run .decoder :: rest) :
    ∃ t u, step s = .next { s with agenda := s.agenda.tail } ∧
      step { s with agenda := s.agenda.tail } = .next t ∧ t.dec = s.dec ∧
      step t = .next u ∧ u.dec.ctl = c ∧
      u.decPorts.source.taken = s.decPorts.source.taken ++ [.byte c] := by
  have supplied : (supplySource (.byte c :: a) tl s.decPorts.source).answers = .byte c :: a := by
    simp only [supplySource_silent htl, hans, List.nil_append]
  obtain ⟨p', hgo, htaken⟩ := decPhaseOp_fetch_byte
    (p := { s.decPorts with source := supplySource (.byte c :: a) tl s.decPorts.source }) hp supplied
  obtain ⟨t, u, waits, event, same, goesOn, hd, hports⟩ :=
    hold_lifted ha (by simp [hp]) (by simp [hp]) (decPhaseOp_fetch_silent hp hans htl) (fun _ => rfl) hgo
  exact ⟨t, u, waits, event, same, goesOn, by rw [hd, decTakeControl_ctl],
    by rw [hports, htaken, supplySource_taken]⟩

/-- A decoder in REPW at a silent sink writes its value byte at its next turn. -/
theorem repw_hold_lifted {s : State} {a : List SnkAnswer} {tl : SnkTail} {rest : List Event}
    (hp : s.dec.phase = .repw) (hc : s.dec.cnt ≠ 0) (hans : s.decPorts.sink.answers = [])
    (htl : s.decPorts.sink.tail = .silent)
    (ha : s.agenda = .run .decoder :: .acceptMore .decoder (.accept :: a) tl :: .run .decoder :: rest) :
    ∃ t u, step s = .next { s with agenda := s.agenda.tail } ∧
      step { s with agenda := s.agenda.tail } = .next t ∧ t.dec = s.dec ∧
      step t = .next u ∧ u.dec.cnt = s.dec.cnt - 1 ∧
      u.decPorts.sink.out = s.decPorts.sink.out ++ [s.dec.val] := by
  have supplied : (supplySink (.accept :: a) tl s.decPorts.sink).answers = .accept :: a := by
    simp only [supplySink_silent htl, hans, List.nil_append]
  obtain ⟨p', hgo, hout⟩ := decPhaseOp_repw_accept
    (p := { s.decPorts with sink := supplySink (.accept :: a) tl s.decPorts.sink }) hp supplied
  obtain ⟨t, u, waits, event, same, goesOn, hd, hports⟩ :=
    hold_lifted ha (by simp [hp]) (fun _ => hc) (decPhaseOp_repw_silent hp hans htl) (fun _ => rfl) hgo
  exact ⟨t, u, waits, event, same, goesOn, by rw [hd, decCountDown_cnt], by rw [hports, hout, supplySink_out]⟩

/-- Settles O47: each event by its own equation, and the two holds by the turn before and after the event. -/
theorem rebindInUseRefused : Obligations.RebindInUseRefused := by
  refine ⟨fun s h => step_rebindsInUse h,
    fun s b rest => ⟨fun hu => ?_, fun a tl ha => ?_, fun a tl ha => ?_⟩,
    fun s c a tl rest hp hans htl ha => fetch_hold_lifted hp hans htl ha,
    fun s a tl rest hp hc hans htl ha => repw_hold_lifted hp hc hans htl ha⟩
  · have bound (p : Ports) : rebind b p { s with agenda := rest } = _ := rebind_next (by exact hu) p
    exact ⟨fun a tl ha => (step_of_event ha).trans (bound _),
      fun a tl ha => (step_of_event ha).trans (bound _),
      fun ha => (step_of_event ha).trans (bound _), fun ha => (step_of_event ha).trans (bound _)⟩
  · exact ⟨fun ht => (step_of_event ha).trans (perform_supply_silent (by exact ht) a tl),
      fun ht => (step_of_event ha).trans (perform_supply_ended (by exact ht) a tl)⟩
  · exact ⟨fun ht => (step_of_event ha).trans (perform_acceptMore_silent (by exact ht) a tl),
      fun ht => (step_of_event ha).trans (perform_acceptMore_accepting (by exact ht) a tl)⟩

end Sys2Proof.Machine

/-! PROOFS, family 30_encoding: the fields of the control byte, `decode` and `encode` against each other, the rows
of the selector, and the valid streams as those whose decoding ends in DONE. -/

namespace Sys2Proof.Machine

/-! ### The fields of the control byte (R61, R65). -/

@[simp] theorem ctlMode_packCtl (m : Mode) (n : Len) : ctlMode (packCtl m n) = m := by
  cases m <;> revert n <;> decide +kernel

@[simp] theorem ctlLen_packCtl (m : Mode) (n : Len) : ctlLen (packCtl m n) = n := by
  cases m <;> revert n <;> decide +kernel

@[simp] theorem packCtl_ctlMode_ctlLen : ∀ c : Byte, packCtl (ctlMode c) (ctlLen c) = c := by decide +kernel

theorem packCtl_eq_append (m : Mode) (n : Len) : packCtl m n = modeCode m ++ n := by
  cases m <;> revert n <;> decide +kernel

theorem modeCode_ctlMode : ∀ c : Byte, modeCode (ctlMode c) = c.extractLsb' 7 1 := by decide +kernel

theorem ctlLen_eq_extract : ∀ c : Byte, ctlLen c = c.extractLsb' 0 7 := by decide +kernel

/-- The control bytes of Literal records are their own lengths (R69). -/
theorem literal_control_fields : ∀ c : Byte, 0x01 ≤ c → c ≤ 0x7F →
    ctlMode c = .literalMode ∧ ctlLen c = c.setWidth 7 ∧ ctlLen c ≠ 0 ∧ (ctlLen c).toNat = c.toNat := by
  decide +kernel

/-- The control bytes of Repeat records hold their lengths in the low 7 bits (R69). -/
theorem repeat_control_fields : ∀ c : Byte, 0x81 ≤ c →
    ctlMode c = .repeatMode ∧ ctlLen c = c.setWidth 7 ∧ ctlLen c ≠ 0 := by
  decide +kernel

/-- Settles O1: each clause is a law of the fields; the laws hold for length 0 as well, where R65 says nothing. -/
theorem controlByteFieldsAgree : Obligations.ControlByteFieldsAgree := by
  refine ⟨fun m n _ => ⟨packCtl_eq_append m n, ?_⟩, fun c => ⟨modeCode_ctlMode c, ctlLen_eq_extract c, rfl⟩,
    fun m n _ => ⟨ctlMode_packCtl m n, ctlLen_packCtl m n⟩, fun c _ => packCtl_ctlMode_ctlLen c⟩
  cases m <;> rfl

/-! ### The vectors and the selector rows (R69, R80, R110). -/

/-- Settles O2: the records by the equations of `decode`, the vectors and phase codes by evaluation. -/
theorem wordsDecodeAsWritten : Obligations.WordsDecodeAsWritten :=
  ⟨decode_repeat (by decide) (by decide), decode_literal (by decide) (by decide) (by decide), decode_lit0 [],
    decode_rep0 [0x41], by decide⟩

/-- Settles O7: by evaluation of the seven rows on the 32 vectors. -/
theorem selectorRowsPartition : Obligations.SelectorRowsPartition := by
  unfold Obligations.SelectorRowsPartition
  decide

/-! ### Records and their bytes (R62, R63, R66, R69). -/

@[simp] theorem wellFormed_lit {n : Len} {payload : List Byte} :
    (Instr.lit n payload).wellFormed = true ↔ n ≠ 0 ∧ payload.length = n.toNat := by
  simp [Instr.wellFormed]

@[simp] theorem wellFormed_rep {n : Len} {v : Byte} : (Instr.rep n v).wellFormed = true ↔ n ≠ 0 := by
  simp [Instr.wellFormed]

theorem decode_encode_lit {n : Len} {payload : List Byte} (hn : n ≠ 0) (hp : payload.length = n.toNat)
    (rest : List Byte) :
    decode (encode (.lit n payload) ++ rest) = .ok (.lit n payload, rest) := by
  have hd := decode_literal (c := packCtl .literalMode n) (rest := payload ++ rest) (by simpa using hn)
    (ctlMode_packCtl _ _) (by simp [← hp])
  simpa [encode, ← hp] using hd

theorem decode_encode_rep {n : Len} (hn : n ≠ 0) (v : Byte) (rest : List Byte) :
    decode (encode (.rep n v) ++ rest) = .ok (.rep n v, rest) := by
  have hd := decode_repeat (c := packCtl .repeatMode n) (v := v) (rest := rest) (by simpa using hn)
    (ctlMode_packCtl _ _)
  simpa [encode] using hd

/-- Settles O3: one case per record kind; a packed control byte has the mode and the length packed into it. -/
theorem recordDecodesBack : Obligations.RecordDecodesBack := by
  intro i rest hrec hwf
  cases i with
  | rsvLit0 => exact decode_lit0 rest
  | rsvRep0 => exact decode_rep0 rest
  | lit n payload =>
    obtain ⟨hn, hp⟩ := wellFormed_lit.mp hwf
    exact decode_encode_lit hn hp rest
  | rep n v => exact decode_encode_rep (wellFormed_rep.mp hwf) v rest
  | _ => cases hrec

/-- Settles O4: one case per answer of `decode`; a control byte is packed from its own mode and length. -/
theorem decodedRecordIsItsBytes : Obligations.DecodedRecordIsItsBytes := by
  intro bs rest i h
  refine ⟨decode_isRecord h, ?_⟩
  cases bs with
  | nil => cases h
  | cons c tl =>
    have pack := packCtl_ctlMode_ctlLen c
    obtain ⟨rfl, e⟩ | ⟨rfl, e⟩ | ⟨hl, hm, ⟨-, e⟩ | ⟨v, r, rfl, e⟩⟩ | ⟨hl, hm, ⟨-, e⟩ | ⟨hr, e⟩⟩ :=
      decode_cases c tl <;> rw [e] at h <;> cases h
    · exact ⟨rfl, rfl⟩
    · exact ⟨rfl, rfl⟩
    · rw [hm] at pack
      exact ⟨wellFormed_rep.mpr hl, by simp [encode, pack]⟩
    · rw [hm] at pack
      exact ⟨wellFormed_lit.mpr ⟨hl, List.length_take_of_le hr⟩, by simp [encode, pack]⟩

/-- Settles O5: each range of control bytes has its fields, and the fields have their equation of `decode`. -/
theorem controlByteIsTheOpcode : Obligations.ControlByteIsTheOpcode := by
  refine fun c rest => ⟨fun hc => hc ▸ decode_lit0 rest, fun hc => hc ▸ decode_rep0 rest,
    fun hlo hhi hr => ?_, fun hlo hhi hr => ?_, fun hlo v rest' hr => ?_, fun hlo hr => ?_⟩
  · obtain ⟨hm, hw, hl, hn⟩ := literal_control_fields c hlo hhi
    have hd := decode_literal hl hm (hn ▸ hr)
    rwa [hn, hw] at hd
  · obtain ⟨hm, -, hl, hn⟩ := literal_control_fields c hlo hhi
    exact decode_literal_truncated hl hm (hn ▸ hr)
  · obtain ⟨hm, hw, hl⟩ := repeat_control_fields c hlo
    rw [hr, decode_repeat hl hm, hw]
  · obtain ⟨hm, -, hl⟩ := repeat_control_fields c hlo
    rw [hr, decode_repeat_truncated hl hm]

/-- The first byte of a well-formed record gives how many bytes the record has (R66, R118). -/
theorem encode_length_eq_recordSize {i : Instr} (hrec : i.isRecord = true) (hwf : i.wellFormed = true) :
    ∃ c tl, encode i = c :: tl ∧ (encode i).length = recordSize c := by
  cases i with
  | rsvLit0 => exact (Laws.Size.rsvLit0 hwf).1 hrec
  | rsvRep0 => exact (Laws.Size.rsvRep0 hwf).1 hrec
  | lit n payload => exact (Laws.Size.lit n payload hwf).1 hrec
  | rep n v => exact (Laws.Size.rep n v hwf).1 hrec
  | _ => cases hrec

theorem recordSize_repeat : ∀ c : Byte, c &&& 0x7F ≠ 0 → c.getLsbD 7 = true → recordSize c = 2 := by
  decide +kernel

theorem recordSize_literal : ∀ c : Byte, c &&& 0x7F ≠ 0 → c.getLsbD 7 = false → recordSize c = 1 + c.toNat := by
  decide +kernel

/-- Settles O6: the bytes consumed are those of the record (O4), whose number its first byte gives. -/
theorem controlByteGivesRecordSize : Obligations.ControlByteGivesRecordSize := by
  intro c rest rest' i h
  obtain ⟨hrec, hwf, hbs⟩ := decodedRecordIsItsBytes _ _ _ h
  obtain ⟨c', tl, hc, hlen⟩ := encode_length_eq_recordSize hrec hwf
  obtain rfl : c = c' := by rw [hc] at hbs; exact (List.cons.inj hbs).1
  refine ⟨?_, recordSize_repeat c, recordSize_literal c⟩
  rw [← hlen, ← List.length_append, ← hbs, List.length_cons]

/-! ### The loop of `Decode` (R125), record by record. -/

@[simp] theorem outputFirst_fst (bs : List Byte) (r : List Byte × DecodeResult) :
    (outputFirst bs r).1 = bs ++ r.1 := rfl

@[simp] theorem outputFirst_snd (bs : List Byte) (r : List Byte × DecodeResult) : (outputFirst bs r).2 = r.2 := rfl

theorem outputFirst_outputFirst (as bs : List Byte) (r : List Byte × DecodeResult) :
    outputFirst as (outputFirst bs r) = outputFirst (as ++ bs) r := by
  simp [outputFirst]

theorem len_toNat_ne_zero {n : Len} (h : n ≠ 0) : n.toNat ≠ 0 := BitVec.toNat_ne_iff_ne.mpr h

theorem decodeFrom_reserved {c : Byte} (hl : ctlLen c = 0) (rest : List Byte) :
    decodeFrom .control (c :: rest) = ([], .malformed .reservedLength) := by
  rw [decodeFrom, if_pos (by rw [← ctlLen_toNat, hl]; rfl)]

theorem decodeFrom_repeat {c : Byte} (hl : ctlLen c ≠ 0) (hm : ctlMode c = .repeatMode) (rest : List Byte) :
    decodeFrom .control (c :: rest) = decodeFrom (.value (ctlLen c).toNat) rest := by
  rw [decodeFrom, ← ctlLen_toNat, if_neg (len_toNat_ne_zero hl), if_pos ((ctlMode_eq_repeat c).mp hm)]

theorem decodeFrom_literal {c : Byte} (hl : ctlLen c ≠ 0) (hm : ctlMode c = .literalMode) (rest : List Byte) :
    decodeFrom .control (c :: rest) = decodeFrom (.payload (ctlLen c).toNat) rest := by
  have hb : ¬ c.getLsbD 7 = true := mt (ctlMode_eq_repeat c).mpr (by simp [hm])
  rw [decodeFrom, ← ctlLen_toNat, if_neg (len_toNat_ne_zero hl), if_neg hb]

/-- A whole payload is output, and the loop waits for a control byte. -/
theorem decodeFrom_payload_append {payload : List Byte} (hne : payload ≠ []) (rest : List Byte) :
    decodeFrom (.payload payload.length) (payload ++ rest) = outputFirst payload (decodeFrom .control rest) := by
  induction payload with
  | nil => exact absurd rfl hne
  | cons b bs ih =>
    cases bs with
    | nil => rfl
    | cons b' bs =>
      rw [List.cons_append, decodeFrom, if_neg (by simp), List.length_cons, Nat.add_sub_cancel,
        ih (List.cons_ne_nil _ _), outputFirst_outputFirst]
      rfl

/-- A stream that ends before the payload does is truncated (R136). -/
theorem decodeFrom_payload_short {n : Nat} {rest : List Byte} (h : rest.length < n) :
    (decodeFrom (.payload n) rest).2 = .malformed .truncatedLiteral := by
  induction rest generalizing n with
  | nil => rfl
  | cons b bs ih =>
    rw [List.length_cons] at h
    rw [decodeFrom, if_neg (by omega), outputFirst_snd, ih (by omega)]

/-- A data record at the front of a stream contributes its content (R116, R117). -/
theorem decodeFrom_encode_append {r : Instr} (hr : isDataRecord r = true) (rest : List Byte) :
    decodeFrom .control (encode r ++ rest) = outputFirst (recordContent r) (decodeFrom .control rest) := by
  obtain ⟨hwf, hkind⟩ := Bool.and_eq_true_iff.mp hr
  cases r with
  | lit n payload =>
    obtain ⟨hn, hp⟩ := wellFormed_lit.mp hwf
    have hne : payload ≠ [] := by
      rintro rfl
      exact len_toNat_ne_zero hn hp.symm
    rw [encode, List.cons_append, decodeFrom_literal (by simpa using hn) (ctlMode_packCtl _ _), ctlLen_packCtl,
      ← hp, decodeFrom_payload_append hne, recordContent]
  | rep n v =>
    rw [encode, List.cons_append, decodeFrom_repeat (by simpa using wellFormed_rep.mp hwf) (ctlMode_packCtl _ _),
      ctlLen_packCtl]
    rfl
  | _ => cases hkind

theorem decodeList_flatMap_encode {rs : List Instr} (h : ∀ r ∈ rs, isDataRecord r = true) :
    decodeList (rs.flatMap encode) = (rs.flatMap recordContent, .done) := by
  induction rs with
  | nil => rfl
  | cons r rs ih =>
    obtain ⟨hr, hrs⟩ := List.forall_mem_cons.mp h
    rw [List.flatMap_cons, List.flatMap_cons, decodeList, decodeFrom_encode_append hr]
    exact congrArg (outputFirst (recordContent r)) (ih hrs)

/-- A nonempty stream that the loop decodes to its end begins with a data record: every other first byte, and
every truncated record, is malformed (R119). -/
theorem decode_of_decodeFrom_done {c : Byte} {rest : List Byte}
    (h : (decodeFrom .control (c :: rest)).2 = .done) :
    ∃ i rest', decode (c :: rest) = .ok (i, rest') ∧ isDataRecord i = true := by
  obtain ⟨rfl, e⟩ | ⟨rfl, e⟩ | ⟨hl, hm, ⟨rfl, e⟩ | ⟨v, r, rfl, e⟩⟩ | ⟨hl, hm, ⟨hr, e⟩ | ⟨hr, e⟩⟩ :=
    decode_cases c rest
  · rw [decodeFrom_reserved rfl] at h
    cases h
  · rw [decodeFrom_reserved rfl] at h
    cases h
  · rw [decodeFrom_repeat hl hm] at h
    cases h
  · exact ⟨_, _, e, Bool.and_eq_true_iff.mpr ⟨wellFormed_rep.mpr hl, rfl⟩⟩
  · rw [decodeFrom_literal hl hm, decodeFrom_payload_short hr] at h
    cases h
  · exact ⟨_, _, e, Bool.and_eq_true_iff.mpr ⟨wellFormed_lit.mpr ⟨hl, List.length_take_of_le hr⟩, rfl⟩⟩

/-- A stream that the loop decodes to its end is a concatenation of data records. -/
theorem records_of_decodeList_done (stream : List Byte) (h : (decodeList stream).2 = .done) :
    ∃ rs : List Instr, (∀ r ∈ rs, isDataRecord r = true) ∧ stream = rs.flatMap encode := by
  induction hn : stream.length using Nat.strong_induction_on generalizing stream with
  | _ n ih =>
    cases stream with
    | nil => exact ⟨[], by simp, rfl⟩
    | cons c tl =>
      obtain ⟨i, rest, hd, hi⟩ := decode_of_decodeFrom_done h
      obtain ⟨hrec, hwf, hbs⟩ := decodedRecordIsItsBytes _ _ _ hd
      obtain ⟨c', tl', hc, -⟩ := encode_length_eq_recordSize hrec hwf
      have shorter : rest.length < n := by
        rw [← hn, hbs, List.length_append, hc, List.length_cons]; omega
      rw [hbs, decodeList, decodeFrom_encode_append hi, outputFirst_snd] at h
      obtain ⟨rs, hrs, rfl⟩ := ih _ shorter rest h rfl
      exact ⟨i :: rs, List.forall_mem_cons.mpr ⟨hi, hrs⟩, by rw [hbs, List.flatMap_cons]⟩

/-- Settles O58: a stream that ends in DONE is cut into its records, and records decode to their content. -/
theorem doneExactlyOnValidStreams : Obligations.DoneExactlyOnValidStreams := by
  intro stream out
  constructor
  · intro h
    obtain ⟨rs, hrs, rfl⟩ := records_of_decodeList_done stream (by rw [h])
    rw [decodeList_flatMap_encode hrs] at h
    exact ⟨rs, hrs, rfl, (congrArg Prod.fst h).symm⟩
  · rintro ⟨rs, hrs, rfl, rfl⟩
    exact decodeList_flatMap_encode hrs

end Sys2Proof.Machine

/-! PROOFS, family 40_encoder: the selection and the effect of each operation of the encoder, the progress of its
turns, a whole invocation against `Encode`, and what `Encode` makes of whole inputs. -/

namespace Sys2Proof.Machine

/-! ### The operations with a current byte (R84 to R89), by the one shape of the six. -/

/-- An operation's line "Selected when", from the registers: the converse of `classifyingSelected_cases`. -/
theorem classifyingSelected_of_registers {i : Instr} {e : Encoder} {v : Byte} (hp : e.phase = .run)
    (hv : e.cur = .byte v)
    (h : (i = .encRepEnd ∧ e.mode = .repeatMode ∧ e.cur ≠ e.next) ∨
      (i = .encRepCap ∧ e.mode = .repeatMode ∧ e.cur = e.next ∧ e.len + 1 = 127) ∨
      (i = .encRepCont ∧ e.mode = .repeatMode ∧ e.cur = e.next ∧ e.len + 1 ≠ 127) ∨
      (i = .encLitFlush ∧ e.mode = .literalMode ∧ e.next = e.nn) ∨
      (i = .encLitCap ∧ e.mode = .literalMode ∧ e.next ≠ e.nn ∧ e.len + 1 = 127) ∨
      (i = .encLitCont ∧ e.mode = .literalMode ∧ e.next ≠ e.nn ∧ e.len + 1 ≠ 127)) :
    classifyingSelected i e = true := by
  have hc (m : Mode) (hm : e.mode = m) : classifying e m = true :=
    (classifying_eq_true e m).mpr ⟨hp, ⟨v, hv⟩, hm⟩
  have cut (hl : e.len + 1 = 127) : cap e = true := beq_iff_eq.mpr hl
  have noCut (hl : e.len + 1 ≠ 127) : cap e = false := beq_false_of_ne hl
  obtain ⟨rfl, hm, hn⟩ | ⟨rfl, hm, hn, hl⟩ | ⟨rfl, hm, hn, hl⟩ | ⟨rfl, hm, hq⟩ | ⟨rfl, hm, hq, hl⟩ |
    ⟨rfl, hm, hq, hl⟩ := h
  · simp [classifyingSelected, encRepEndSelected, hc _ hm, ne, hn]
  · simp [classifyingSelected, encRepCapSelected, hc _ hm, ne, hn, cut hl]
  · simp [classifyingSelected, encRepContSelected, hc _ hm, ne, hn, noCut hl]
  · simp [classifyingSelected, encLitFlushSelected, hc _ hm, q, hq]
  · simp [classifyingSelected, encLitCapSelected, hc _ hm, q, hq, cut hl]
  · simp [classifyingSelected, encLitContSelected, hc _ hm, q, hq, noCut hl]

theorem appendLiteral_of_byte {e : Encoder} {v : Byte} (hv : e.cur = .byte v) :
    appendLiteral e = literalAppended e v := by
  rw [appendLiteral, hv, symData, literalAppended, hv]

/-- The Repeat-mode operations have written nothing when a port action fails. -/
theorem frozenRegisters_repeat {i : Instr} (h : i ∉ [Instr.encLitFlush, .encLitCap, .encLitCont])
    (e : Encoder) : frozenRegisters i e = e := if_neg h

/-- The Literal-mode operations have written the buffer's element when a port action fails. -/
theorem frozenRegisters_literal {i : Instr} {e : Encoder} {v : Byte}
    (h : i ∈ [Instr.encLitFlush, .encLitCap, .encLitCont]) (hv : e.cur = .byte v) :
    frozenRegisters i e = literalAppended e v :=
  (if_pos h).trans (appendLiteral_of_byte hv)

/-- Settles O14: no record, the shift, and the count one up. -/
theorem encRepContCounts : Obligations.EncRepContCounts := by
  intro s v hp hv hm hn hl hfit
  exact encoderStepIs_of_shape rfl
    (classifyingSelected_of_registers hp hv (.inr (.inr (.inl ⟨rfl, hm, hn, hl⟩)))) (lenFits_of_ne hfit)
    rfl (frozenRegisters_repeat (by simp) _) rfl rfl

/-- Settles O15: the Repeat record, the shift, and the mode by the two symbols after the run. -/
theorem encRepEndFlushes : Obligations.EncRepEndFlushes := by
  intro s v hp hv hm hn hfit
  refine encoderStepIs_of_shape rfl
    (classifyingSelected_of_registers hp hv (.inl ⟨rfl, hm, hn⟩)) (lenFits_of_ne hfit) ?_
    (frozenRegisters_repeat (by simp) _) rfl ?_
  · rw [recordEmitted, repeatRecord, packCtl_repeat, hv]
    rfl
  · simp [writtenRegisters, q]

/-- Settles O16: the longest Repeat record, the shift, and an empty run in the same mode. -/
theorem encRepCapCuts : Obligations.EncRepCapCuts := by
  intro s v hp hv hm hn hl
  exact encoderStepIs_of_shape rfl
    (classifyingSelected_of_registers hp hv (.inr (.inl ⟨rfl, hm, hn, hl⟩))) rfl
    (by rw [recordEmitted, hv]; rfl) (frozenRegisters_repeat (by simp) _) rfl rfl

/-- Settles O17: the buffer's element, no record, the shift, and the count one up. -/
theorem encLitContAppends : Obligations.EncLitContAppends := by
  intro s v hp hv hm hq hl hfit
  exact encoderStepIs_of_shape rfl
    (classifyingSelected_of_registers hp hv (.inr (.inr (.inr (.inr (.inr ⟨rfl, hm, hq, hl⟩))))))
    (lenFits_of_ne hfit) rfl (frozenRegisters_literal (by simp) hv) rfl rfl

/-- The payload of a Literal record: the pending bytes and the current one. -/
theorem literalBytes_appendLiteral_of_byte {e : Encoder} {v : Byte} (hv : e.cur = .byte v)
    (hl : e.len ≠ 127) :
    literalBytes (appendLiteral e) (e.len + 1) = e.lbuf.toList.take e.len.toNat ++ [v] := by
  rw [literalBytes_appendLiteral hl, hv]
  rfl

/-- Settles O18: the Literal record of the pending bytes and the current one, the shift, and Repeat mode. -/
theorem encLitFlushFlushes : Obligations.EncLitFlushFlushes := by
  intro s v hp hv hm hq hfit
  refine encoderStepIs_of_shape rfl
    (classifyingSelected_of_registers hp hv (.inr (.inr (.inr (.inl ⟨rfl, hm, hq⟩)))))
    (lenFits_of_ne hfit) ?_ (frozenRegisters_literal (by simp) hv) rfl rfl
  rw [recordEmitted, literalRecord, packCtl_literal, literalBytes_appendLiteral_of_byte hv hfit]

/-- Settles O19: the longest Literal record, the shift, and an empty run in the same mode. -/
theorem encLitCapCuts : Obligations.EncLitCapCuts := by
  intro s v hp hv hm hq hl
  have h126 : s.enc.len = 126 := by bv_omega
  have hbytes := literalBytes_appendLiteral_of_byte hv (by rw [h126]; decide)
  rw [hl, h126] at hbytes
  refine encoderStepIs_of_shape rfl
    (classifyingSelected_of_registers hp hv (.inr (.inr (.inr (.inr (.inl ⟨rfl, hm, hq, hl⟩)))))) rfl ?_
    (frozenRegisters_literal (by simp) hv) rfl rfl
  rw [recordEmitted, hbytes]
  rfl

/-! ### ENC.HALT (R90) and the selection (R80, R81). -/

/-- Settles O13: only the phase is written, and the invariant has nothing pending at the marker. -/
theorem encHaltIsDone : Obligations.EncHaltIsDone := by
  intro s hp hc
  refine ⟨whenSelected_next.mpr ⟨by simp [encHaltSelected, hp, hc, symEoi], rfl, rfl⟩, fun h => ?_⟩
  obtain ⟨hrun, -⟩ := h
  obtain ⟨-, -, -, hlen⟩ := hrun hp
  exact hlen hc

/-- The five bits of the selector vector (R80). -/
theorem sel_bits (e : Encoder) :
    (sel e).getLsbD 4 = symEoi e.cur ∧ (sel e).getLsbD 3 = decide (e.mode = .repeatMode) ∧
      (sel e).getLsbD 2 = ne e ∧ (sel e).getLsbD 1 = q e ∧ (sel e).getLsbD 0 = cap e := by
  rw [sel]
  cases e.mode <;> cases symEoi e.cur <;> cases ne e <;> cases q e <;> cases cap e <;> decide

/-- In phase RUN with a current byte the state selects the operation whose line "Selected when" it meets. -/
theorem selectEncoder_of_classifying {i : Instr} {s : State} (h : classifyingSelected i s.enc = true) :
    selectEncoder s = some i := by
  obtain ⟨hp, ⟨v, hv⟩, hi⟩ := classifyingSelected_cases h
  have cut (hl : s.enc.len = 126) : cap s.enc = true := (cap_eq_true _).mpr hl
  have noCut (hl : s.enc.len ≠ 126) : cap s.enc = false := Bool.eq_false_iff.mpr (mt (cap_eq_true _).mp hl)
  rw [selectEncoder_run hp, hv]
  obtain ⟨rfl, hm, hn⟩ | ⟨rfl, hm, hn, hl⟩ | ⟨rfl, hm, hn, hl⟩ | ⟨rfl, hm, hq⟩ | ⟨rfl, hm, hq, hl⟩ |
    ⟨rfl, hm, hq, hl⟩ := hi <;> rw [hm]
  · simp [symEoi, ne, hn]
  · simp [symEoi, ne, hn, cut hl]
  · simp [symEoi, ne, hn, noCut hl]
  · simp [symEoi, q, hq]
  · simp [symEoi, q, hq, cut hl]
  · simp [symEoi, q, hq, noCut hl]

/-- The rows on the 32 vectors (R80). -/
theorem decodeSelector_rows (v : BitVec 5) :
    (v.getLsbD 4 = true → decodeSelector v = some .encHalt) ∧
      (v.getLsbD 4 = false → v.getLsbD 3 = true → v.getLsbD 2 = true →
        decodeSelector v = some .encRepEnd) ∧
      (v.getLsbD 4 = false → v.getLsbD 3 = true → v.getLsbD 2 = false →
        decodeSelector v = if v.getLsbD 0 then some .encRepCap else some .encRepCont) ∧
      (v.getLsbD 4 = false → v.getLsbD 3 = false → v.getLsbD 1 = true →
        decodeSelector v = some .encLitFlush) ∧
      (v.getLsbD 4 = false → v.getLsbD 3 = false → v.getLsbD 1 = false →
        decodeSelector v = if v.getLsbD 0 then some .encLitCap else some .encLitCont) := by
  refine ⟨?_, ?_, ?_, ?_, ?_⟩ <;> revert v <;> decide

/-- Settles O8: the rows by evaluation, the vector's bits, and the row of each state. -/
theorem encoderSelection : Obligations.EncoderSelection := by
  refine ⟨decodeSelector_rows, fun e => ?_, fun s => ⟨fun hp => ?_, fun hp hc => ?_, fun hp v hv => ?_,
    fun hp => ?_⟩⟩
  · obtain ⟨hm, hr, hn, hq, hc⟩ := sel_bits e
    exact ⟨hm, hr, hn.trans (by simp [ne, bne, Bool.beq_eq_decide_eq]), hq, hc⟩
  · rw [selectEncoder, hp]
  · rw [selectEncoder_run hp, hc]
    rfl
  · have row {i : Instr} (h : _) : selectEncoder s = some i :=
      selectEncoder_of_classifying (classifyingSelected_of_registers hp hv h)
    exact ⟨fun hm hn => row (.inl ⟨rfl, hm, hn⟩),
      fun hm hn hl => row (.inr (.inl ⟨rfl, hm, hn, hl⟩)),
      fun hm hn hl => row (.inr (.inr (.inl ⟨rfl, hm, hn, hl⟩))),
      fun hm hq => row (.inr (.inr (.inr (.inl ⟨rfl, hm, hq⟩)))),
      fun hm hq hl => row (.inr (.inr (.inr (.inr (.inl ⟨rfl, hm, hq, hl⟩))))),
      fun hm hq hl => row (.inr (.inr (.inr (.inr (.inr ⟨rfl, hm, hq, hl⟩)))))⟩
  · obtain hp | hp := hp <;> rw [selectEncoder, hp]

/-! ### Reads that are answered (R42, R43). -/

theorem srcRead_fail {p : Ports} {rest : List SrcAnswer} (ha : p.source.answers = .fail :: rest) :
    srcRead p = .raised .sourceRead { p with source := { p.source with answers := rest } } := by
  rw [srcRead, ha]

theorem srcRead_ended {p : Ports} (ha : p.source.answers = []) (ht : p.source.tail = .ended) :
    srcRead p = .done .eoi { p with source := { p.source with taken := p.source.taken ++ [.eoi] } } := by
  rw [srcRead, ha]
  simp only [ht]

/-- The source after its next symbol has been read (R42). -/
def readNext (src : Source) : Source := readOnce src (nextSym src)

theorem srcRead_readNext {p : Ports} (h : sourceReady 1 p.source) :
    srcRead p = .done (nextSym p.source) { p with source := readNext p.source } := srcRead_ready h

/-- The symbol of a read that is not issued once the marker has been received (R43). -/
def symAfter (last : Sym) (src : Source) : Sym := if last = .eoi then .eoi else nextSym src

/-- The source after such a read. -/
def readAfter (last : Sym) (src : Source) : Source := if last = .eoi then src else readNext src

theorem srcReadAfter_ready {last : Sym} {p : Ports} (h : sourceReady 1 p.source) :
    srcReadAfter last p =
      .done (symAfter last p.source) { p with source := readAfter last p.source } := by
  cases last with
  | eoi => rfl
  | byte b => exact srcRead_readNext h

theorem sourceReady_one {k : Nat} {src : Source} (h : sourceReady (k + 1) src) : sourceReady 1 src := by
  obtain ⟨h₁, h₂⟩ := h
  refine ⟨fun hm => h₁ (List.take_subset_take_left _ (by omega) hm), h₂.imp_left (by omega)⟩

/-- A read of a source that answers `k + 1` of them leaves `k`. -/
theorem sourceReady_readNext {k : Nat} {src : Source} (h : sourceReady (k + 1) src) :
    sourceReady k (readNext src) := by
  obtain ⟨h₁, h₂⟩ := h
  cases ha : src.answers with
  | nil =>
    rw [ha] at h₂
    have ht : src.tail = .ended := h₂.resolve_left (by simp)
    simp [sourceReady, readNext, readOnce, ha, ht]
  | cons a rest =>
    rw [ha, List.take_succ_cons, List.mem_cons, not_or] at h₁
    rw [ha, List.length_cons, Nat.add_le_add_iff_right] at h₂
    simpa [readNext, readOnce, ha] using ⟨h₁.2, h₂⟩

/-! ### ENC.START (R82), read by read. -/

theorem exec_encStart {s : State} {r : Act Encoder} (hp : s.enc.phase = .idle)
    (hst : s.encPorts.start = true) (h : encStartAct s.enc (startTaken s.encPorts) = r) :
    exec .encStart s = .next (putEncoder s (finish encRaise s.enc r)) :=
  whenSelected_next.mpr ⟨by simp [encStartSelected, hp, hst], rfl, by rw [encStartOp, h]⟩

theorem encStartAct_sourceAbsent {e : Encoder} {p : Ports} (h : p.source.bound = false) :
    encStartAct e p = .raised .sourceAbsent p := if_pos h

theorem encStartAct_sinkAbsent {e : Encoder} {p : Ports} (hsrc : p.source.bound = true)
    (hsnk : p.sink.bound = false) : encStartAct e p = .raised .sinkAbsent p := by
  rw [encStartAct, if_neg (by simp [hsrc]), if_pos hsnk]

section
variable {e : Encoder} {p : Ports} (hsrc : p.source.bound = true) (hsnk : p.sink.bound = true)
include hsrc hsnk

theorem encStartAct_failed {k : FaultKind} {p' : Ports} (h : srcRead p = .raised k p') :
    encStartAct e p = .raised k p' := by
  rw [encStartAct, if_neg (by simp [hsrc]), if_neg (by simp [hsnk]), h, andThen_raised]

theorem encStartAct_empty {p' : Ports} (h : srcRead p = .done .eoi p') :
    encStartAct e p = .done { e with phase := .done, len := 0 } p' := by
  rw [encStartAct, if_neg (by simp [hsrc]), if_neg (by simp [hsnk]), h, andThen_done]

theorem encStartAct_byte {b : Byte} {p' : Ports} (h : srcRead p = .done (.byte b) p') :
    encStartAct e p = encLoadWindow e (.byte b) p' := by
  rw [encStartAct, if_neg (by simp [hsrc]), if_neg (by simp [hsnk]), h, andThen_done]

end

section
variable {e : Encoder} {p p₁ p₂ : Ports} {b : Byte} {n x : Sym} {k : FaultKind}

theorem encLoadWindow_done (h₁ : srcRead p = .done n p₁) (h₂ : srcReadAfter n p₁ = .done x p₂) :
    encLoadWindow e (.byte b) p = .done (encStarted e b n x) p₂ := by
  rw [encLoadWindow, h₁, andThen_done, h₂, andThen_done]
  rfl

theorem encLoadWindow_failed_second (h₁ : srcRead p = .raised k p₁) :
    encLoadWindow e (.byte b) p = .raised k p₁ := by
  rw [encLoadWindow, h₁, andThen_raised]

theorem encLoadWindow_failed_third (h₁ : srcRead p = .done n p₁) (h₂ : srcReadAfter n p₁ = .raised k p₂) :
    encLoadWindow e (.byte b) p = .raised k p₂ := by
  rw [encLoadWindow, h₁, andThen_done, h₂, andThen_raised]

end

/-- Settles O12: the bindings, then one clause for each place at which the reads can end. -/
theorem encStartLoadsWindow : Obligations.EncStartLoadsWindow := by
  intro s hp hst
  dsimp only
  have start {r : Act Encoder} (h : encStartAct s.enc (startTaken s.encPorts) = r) := exec_encStart hp hst h
  refine ⟨fun h => start (encStartAct_sourceAbsent h), fun hsrc hsnk => start (encStartAct_sinkAbsent hsrc hsnk),
    fun hsrc hsnk => ?_⟩
  have first {a : Byte} {rest : List SrcAnswer} (ha : s.encPorts.source.answers = .byte a :: rest) :=
    encStartAct_byte (e := s.enc) (p := startTaken s.encPorts) hsrc hsnk (srcRead_byte ha)
  refine ⟨fun ha ht => ?_, fun a ha ht => ?_, fun a b ha ht => ?_, fun a b c rest ha => ?_,
    fun rest ha => ?_,
    fun a rest ha => start ((first ha).trans (encLoadWindow_failed_second (srcRead_fail rfl))),
    fun a b rest ha => ?_⟩
  · exact start (encStartAct_empty (p := startTaken s.encPorts) hsrc hsnk (srcRead_ended ha ht))
  · rw [start ((first ha).trans (encLoadWindow_done (srcRead_ended rfl ht) (srcReadAfter_eoi _)))]
    simp [putEncoder, encStarted, startTaken]
  · rw [start ((first ha).trans (encLoadWindow_done (srcRead_byte rfl)
      ((srcReadAfter_byte _ _).trans (srcRead_ended rfl ht))))]
    simp [putEncoder, encStarted, startTaken]
  · rw [start ((first ha).trans (encLoadWindow_done (srcRead_byte rfl)
      ((srcReadAfter_byte _ _).trans (srcRead_byte rfl))))]
    simp [putEncoder, encStarted, startTaken]
  · exact start (encStartAct_failed (p := startTaken s.encPorts) hsrc hsnk (srcRead_fail ha))
  · rw [start ((first ha).trans (encLoadWindow_failed_third (srcRead_byte rfl)
      ((srcReadAfter_byte _ _).trans (srcRead_fail rfl))))]
    simp [putEncoder, startTaken, encRaise, encFaulted, causeCode, subcauseCode]

/-! ### The host's `start` in IDLE (R161, R164). -/

/-- The registers that ENC.START leaves when its first read answers the byte `b` and the others are answered. -/
def encStartedOn (e : Encoder) (b : Byte) (src : Source) : Encoder :=
  encStarted e b (nextSym (readNext src))
    (symAfter (nextSym (readNext src)) (readNext (readNext src)))

/-- The source that it leaves: after two reads, or three where the second is a byte (R82). -/
def sourceStarted (src : Source) : Source :=
  readAfter (nextSym (readNext src)) (readNext (readNext src))

section
variable {s : State} (hp : s.enc.phase = .idle) (hst : s.encPorts.start = true)
  (hsrc : s.encPorts.source.bound = true) (hsnk : s.encPorts.sink.bound = true)
include hp hst hsrc hsnk

theorem exec_encStart_empty (hr : sourceReady 1 s.encPorts.source)
    (hn : nextSym s.encPorts.source = .eoi) :
    exec .encStart s =
      .next { s with
        enc := { s.enc with phase := .done, len := 0 }
        encPorts := { s.encPorts with source := readNext s.encPorts.source, start := false } } := by
  have read := srcRead_readNext (p := startTaken s.encPorts) hr
  rw [startTaken_source, hn] at read
  rw [exec_encStart hp hst (encStartAct_empty (p := startTaken s.encPorts) hsrc hsnk read)]
  rfl

theorem exec_encStart_byte (hr : sourceReady 3 s.encPorts.source) {b : Byte}
    (hn : nextSym s.encPorts.source = .byte b) :
    exec .encStart s =
      .next { s with
        enc := encStartedOn s.enc b s.encPorts.source
        encPorts :=
          { s.encPorts with source := sourceStarted s.encPorts.source, start := false } } := by
  have ready₂ := sourceReady_readNext hr
  have read₁ := srcRead_readNext (p := startTaken s.encPorts) (sourceReady_one hr)
  rw [startTaken_source, hn] at read₁
  have read₂ := srcRead_readNext (p := { startTaken s.encPorts with source := readNext s.encPorts.source })
    (sourceReady_one ready₂)
  have read₃ := srcReadAfter_ready (last := nextSym (readNext s.encPorts.source))
    (p := { startTaken s.encPorts with source := readNext (readNext s.encPorts.source) })
    (sourceReady_readNext ready₂)
  rw [exec_encStart hp hst ((encStartAct_byte (p := startTaken s.encPorts) hsrc hsnk read₁).trans
    (encLoadWindow_done read₂ read₃))]
  rfl

end

theorem exec_start_encoder {s : State} (hp : s.enc.phase = .idle) :
    exec (.start .encoder) s = exec .encStart { s with encPorts := startIssued s.encPorts } := if_pos hp

theorem exec_start_decoder {s : State} (hp : s.dec.phase = .idle) :
    exec (.start .decoder) s = exec .decStart { s with decPorts := startIssued s.decPorts } := if_pos hp

/-- Settles O38: ENC.START by its first symbol, DEC.START by its bindings. -/
theorem startBeginsInvocation : Obligations.StartBeginsInvocation := by
  intro s
  refine ⟨fun hp hsrc hsnk hr => ?_, fun hp hsrc hsnk => ?_⟩
  · cases hn : nextSym s.encPorts.source with
    | eoi =>
      have started := exec_encStart_empty (s := { s with encPorts := startIssued s.encPorts }) hp rfl hsrc hsnk
        (sourceReady_one hr) hn
      exact ⟨_, (exec_start_encoder hp).trans started, fun _ => ⟨rfl, rfl⟩, fun h => absurd rfl h⟩
    | byte b =>
      have started := exec_encStart_byte (s := { s with encPorts := startIssued s.encPorts }) hp rfl hsrc hsnk
        hr hn
      exact ⟨_, (exec_start_encoder hp).trans started, (nomatch ·), fun _ => ⟨rfl, rfl, rfl⟩⟩
  · have act : decStartAct s.dec (startTaken (startIssued s.decPorts)) =
        .done { s.dec with phase := .fetch } (startTaken (startIssued s.decPorts)) := by
      simp [decStartAct, hsrc, hsnk]
    refine ⟨_, (exec_start_decoder hp).trans
      (whenSelected_next.mpr ⟨by simp [decStartSelected, hp], rfl, rfl⟩), ?_⟩
    simp [decStartOp, act]

/-! ### Progress (R93, R96). -/

/-- In phase RUN the state selects ENC.HALT at the marker, and else an operation with a current byte. -/
theorem selectEncoder_run_cases {s : State} (hp : s.enc.phase = .run) :
    (s.enc.cur = .eoi ∧ selectEncoder s = some .encHalt) ∨
    ∃ i v, s.enc.cur = .byte v ∧ isClassifyingOp i = true ∧ classifyingSelected i s.enc = true ∧
      selectEncoder s = some i := by
  cases hv : s.enc.cur with
  | eoi => exact .inl ⟨rfl, by rw [selectEncoder_run hp, hv]; rfl⟩
  | byte v =>
    obtain ⟨i, hi⟩ : ∃ i, selectEncoder s = some i := ⟨_, selectEncoder_run hp⟩
    have hs := selectEncoder_encoderSelected hi
    obtain rfl | rfl | ⟨hn, hh, hc⟩ := isEncoderOp_cases (selectEncoder_isEncoderOp hi)
    · simp [encoderSelected, encStartSelected, hp] at hs
    · simp [encoderSelected, encHaltSelected, hv, symEoi] at hs
    · rw [encoderSelected, if_neg hn, if_neg hh] at hs
      exact .inr ⟨i, v, rfl, hc, hs, hi⟩

/-- A read takes from the answers the byte it adds to the window; the marker is no byte, and takes none. -/
theorem srcRead_work {p p' : Ports} {x : Sym} (h : srcRead p = .done x p') :
    ([x].filterMap symByte).length + p'.source.answers.length = p.source.answers.length := by
  obtain ⟨b, r, ha, e⟩ | ⟨r, -, e⟩ | ⟨ha, -, e⟩ | ⟨-, -, e⟩ := srcRead_cases p <;> rw [e] at h <;> cases h
  · simp [ha, symByte, Nat.add_comm]
  · simp [symByte]

theorem encWork_run {e : Encoder} {p : Ports} (h : e.phase = .run) :
    encWork e p = (windowBytes e).length + p.source.answers.length + 1 := by
  rw [encWork, h]

/-- An operation with a current byte that completes takes one byte off the window and the answers. -/
theorem encWork_encAfter {i : Instr} {e : Encoder} {p p' : Ports} {x : Sym} {v : Byte} (hp : e.phase = .run)
    (hv : e.cur = .byte v) (hn : e.nn = .eoi → x = .eoi ∧ p' = p)
    (hr : e.nn ≠ .eoi → srcRead p = .done x p') : encWork (encAfter i e x) p' + 1 = encWork e p := by
  have hread : ([x].filterMap symByte).length + p'.source.answers.length = p.source.answers.length := by
    by_cases h : e.nn = .eoi
    · obtain ⟨rfl, rfl⟩ := hn h
      simp [symByte]
    · exact srcRead_work (hr h)
  have hbefore : windowBytes e = v :: [e.next, e.nn].filterMap symByte := by rw [windowBytes, hv]; rfl
  have hafter : windowBytes (encAfter i e x) = [e.next, e.nn].filterMap symByte ++ [x].filterMap symByte := by
    rw [windowBytes, encAfter_cur, encAfter_next, encAfter_nn, ← List.filterMap_append]
    rfl
  rw [encWork_run ((encAfter_phase ..).trans hp), encWork_run hp, hbefore, hafter, List.length_append,
    List.length_cons]
  omega

/-- Settles O52: an operation that changes the state ends the run, or takes one byte off what is to be done. -/
theorem encoderAlwaysProgresses : Obligations.EncoderAlwaysProgresses := by
  intro s t _ hp hx hne
  have halted {u : State} (h : u.enc.phase ≠ .run) : encWork u.enc u.encPorts < encWork s.enc s.encPorts := by
    have zero : encWork u.enc u.encPorts = 0 := by
      cases hu : u.enc.phase <;> simp_all [encWork]
    rw [zero, encWork_run hp]
    omega
  obtain ⟨-, hi⟩ | ⟨i, v, hv, hc, -, hi⟩ := selectEncoder_run_cases hp <;>
    rw [stepBlock_of_selected (by exact hi)] at hx
  · obtain ⟨-, -, rfl⟩ := exec_encHalt_cases hx
    exact halted (by simp)
  · obtain ⟨-, -, rfl | ⟨x, p₁, p', hw, hn, hr, rfl⟩ | ⟨p', -, rfl⟩ | ⟨p₁, p', -, -, -, rfl⟩⟩ :=
      exec_classifying_cases hc hx
    · exact absurd rfl hne
    · obtain ⟨hsrc, -⟩ := snkWriteMany_done_frame hw
      have hwork := encWork_encAfter (i := i) hp hv hn hr
      have hsame : encWork s.enc p₁ = encWork s.enc s.encPorts := by rw [encWork_run hp, encWork_run hp, hsrc]
      exact Nat.lt_of_succ_le (hwork.trans hsame).le
    · exact halted (by simp)
    · exact halted (by simp)

/-! ### A whole invocation against `Encode` (R99). -/

theorem runTurns_succ {b : Block} {s t : State} (k : Nat) (h : stepBlock b s = .next t) :
    runTurns b (k + 1) s = runTurns b k t := by
  rw [runTurns, h]

/-- A source that holds the bytes it has next answers every read. -/
theorem sourceReady_of_holds {bs : List Byte} {src : Source} (h : sourceHolds bs src) (k : Nat) :
    sourceReady k src := by
  obtain ⟨ha, ht⟩ := h
  refine ⟨fun hm => ?_, .inr ht⟩
  simpa [ha] using List.mem_of_mem_take hm

theorem nextSym_of_holds {bs : List Byte} {src : Source} (h : sourceHolds bs src) : nextSym src = headSym bs := by
  obtain ⟨ha, -⟩ := h
  rw [nextSym, ha]
  cases bs <;> rfl

theorem readNext_holds {bs : List Byte} {src : Source} (h : sourceHolds bs src) :
    sourceHolds bs.tail (readNext src) := by
  obtain ⟨ha, ht⟩ := h
  exact ⟨by simp [readNext, readOnce, ha, List.map_tail], ht⟩

theorem readAfter_holds {bs : List Byte} {src : Source} (last : Sym) (h : sourceHolds bs src) :
    ∃ bs', sourceHolds bs' (readAfter last src) := by
  unfold readAfter
  split
  · exact ⟨bs, h⟩
  · exact ⟨bs.tail, readNext_holds h⟩

/-- The symbols a source has still to hand over, `last` the one it handed over last: its bytes and one marker,
none after the marker (R43). -/
def readsLeft (last : Sym) (src : Source) : List Sym :=
  if last = .eoi then [] else (upcoming src).map .byte ++ [.eoi]

/-- A read moves a symbol from those still to be handed over to those handed over. -/
theorem taken_readAfter {bs : List Byte} {src : Source} (h : sourceHolds bs src) (last : Sym) :
    (readAfter last src).taken ++ readsLeft (symAfter last src) (readAfter last src) =
      src.taken ++ readsLeft last src := by
  cases last with
  | eoi => rfl
  | byte b =>
    have hs : symAfter (.byte b) src = headSym bs := nextSym_of_holds h
    have ht : (readAfter (.byte b) src).taken = src.taken ++ [headSym bs] := by rw [← hs]; rfl
    have hleft : upcoming (readAfter (.byte b) src) = bs.tail := upcoming_of_bytes (readNext_holds h).1
    have hall : upcoming src = bs := upcoming_of_bytes h.1
    cases bs <;> simp [ht, hs, readsLeft, hleft, hall, headSym]

/-- An encoder in a run whose ports answer all that is asked of them. -/
structure RunsUndisturbed (e : Encoder) (p : Ports) : Prop where
  phase : e.phase = .run
  running : encRunning e
  sink : sinkOpen p.sink
  source : ∃ bs, sourceHolds bs p.source

theorem sinkReady_of_open {snk : Sink} (h : sinkOpen snk) (k : Nat) : sinkReady k snk := by
  obtain ⟨ha, ht⟩ := h
  exact ⟨by simp [ha], .inr ht⟩

/-- An operation with a current byte whose port actions are all answered. -/
theorem exec_classifying_answered {i : Instr} {s : State} (hi : isClassifyingOp i = true)
    (hs : classifyingSelected i s.enc = true) (h : RunsUndisturbed s.enc s.encPorts) :
    exec i s =
      .next { s with
        enc := encAfter i s.enc (symAfter s.enc.nn s.encPorts.source)
        encPorts :=
          { s.encPorts with
            source := readAfter s.enc.nn s.encPorts.source
            sink := wrote s.encPorts.sink (recordEmitted i s.enc) } } := by
  obtain ⟨-, ⟨-, hl, -⟩, hsnk, bs, hsrc⟩ := h
  have hres : writtenRegisters i s.enc (windowShifted (frozenRegisters i s.enc) s.encPorts.source) =
      encAfter i s.enc (symAfter s.enc.nn s.encPorts.source) := by
    rw [encAfter, shiftedBy, windowShifted, frozenRegisters_nn, symAfter]
  obtain ⟨answered, -⟩ := encoderStepIs_of_shape hi hs (classifyingFits_of_lenFits i (lenFits_of_ne hl)) rfl rfl
    (frozenRegisters_nn i s.enc) hres
  exact answered (sinkReady_of_open hsnk _) (.inr (sourceReady_of_holds hsrc 1))

/-- One turn of an undisturbed run takes the current byte off the input, and what the sink will hold and the
source will have handed over at the end stays the same. -/
theorem stepBlock_undisturbed {s : State} {v : Byte} (h : RunsUndisturbed s.enc s.encPorts)
    (hv : s.enc.cur = .byte v) :
    ∃ t, stepBlock .encoder s = .next t ∧ RunsUndisturbed t.enc t.encPorts ∧
      encInput s.enc s.encPorts = v :: encInput t.enc t.encPorts ∧
      t.encPorts.sink.out ++ encodeRest t.enc (encInput t.enc t.encPorts) =
        s.encPorts.sink.out ++ encodeRest s.enc (encInput s.enc s.encPorts) ∧
      t.encPorts.source.taken ++ readsLeft t.enc.nn t.encPorts.source =
        s.encPorts.source.taken ++ readsLeft s.enc.nn s.encPorts.source := by
  obtain ⟨hp, hr, ⟨hka, hkt⟩, bs, hsrc⟩ := id h
  obtain ⟨hc, -⟩ | ⟨i, -, -, hi, hs, hsel⟩ := selectEncoder_run_cases hp
  · exact absurd (hv.symm.trans hc) (by simp)
  set x := symAfter s.enc.nn s.encPorts.source with hx
  have hnn : s.enc.nn = .eoi → x = .eoi := fun hn => if_pos hn
  have hread (hn : s.enc.nn ≠ .eoi) : srcRead s.encPorts =
      .done x { s.encPorts with source := readAfter s.enc.nn s.encPorts.source } := by
    rw [hx, symAfter, readAfter, if_neg hn, if_neg hn, srcRead_readNext (sourceReady_of_holds hsrc 1)]
  have hrun := encAfter_running hs hr hnn
  obtain ⟨hwin, -⟩ := id hrun
  have hin := encInput_encAfter i hv hnn hread
  obtain ⟨hcur, hnext⟩ := headSym_encInput hwin
    { s.encPorts with source := readAfter s.enc.nn s.encPorts.source }
  rw [encAfter_cur] at hcur
  rw [encAfter_next] at hnext
  obtain ⟨-, hl, -⟩ := hr
  refine ⟨_, (stepBlock_of_selected (by exact hsel)).trans (exec_classifying_answered hi hs h),
    ⟨(encAfter_phase ..).trans hp, hrun, ⟨?_, hkt⟩, readAfter_holds _ hsrc⟩, hin, ?_, ?_⟩
  · simp [wrote, hka]
  · rw [hin, encodeRest_classifying x hs hl hv hcur hnext]
    exact List.append_assoc ..
  · rw [encAfter_nn]
    exact taken_readAfter hsrc s.enc.nn

/-- An undisturbed run halts after one turn for each byte of its input and one more, with what the loop of R99
makes of the input in the sink, and everything the source held handed over. -/
theorem runTurns_undisturbed {s : State} {input : List Byte} (h : RunsUndisturbed s.enc s.encPorts)
    (hin : encInput s.enc s.encPorts = input) :
    ∃ u, runTurns .encoder (input.length + 1) s = .next u ∧ u.enc.phase = .done ∧
      u.encPorts.sink.out = s.encPorts.sink.out ++ encodeRest s.enc input ∧
      u.encPorts.source.taken = s.encPorts.source.taken ++ readsLeft s.enc.nn s.encPorts.source := by
  induction input generalizing s with
  | nil =>
    obtain ⟨hp, ⟨⟨hw₁, hw₂⟩, -⟩, -, -⟩ := h
    obtain ⟨hcur, -⟩ := headSym_encInput ⟨hw₁, hw₂⟩ s.encPorts
    have hc : s.enc.cur = .eoi := by rw [← hcur, hin]; rfl
    obtain ⟨-, hsel⟩ | ⟨i, v, hv, -⟩ := selectEncoder_run_cases hp
    · obtain ⟨halt, -⟩ := encHaltIsDone s hp hc
      refine ⟨_, runTurns_succ 0 ((stepBlock_of_selected (by exact hsel)).trans halt), rfl, ?_, ?_⟩
      · rw [encodeRest_nil, List.append_nil]
      · rw [readsLeft, if_pos (hw₂ (hw₁ hc)), List.append_nil]
    · exact absurd (hc.symm.trans hv) (by simp)
  | cons v rest ih =>
    obtain ⟨-, ⟨hwin, -⟩, -, -⟩ := id h
    obtain ⟨hcur, -⟩ := headSym_encInput hwin s.encPorts
    rw [hin] at hcur
    obtain ⟨t, hstep, ht, hrest, hout, htaken⟩ := stepBlock_undisturbed h hcur.symm
    obtain ⟨-, rfl⟩ := List.cons.inj (hin.symm.trans hrest)
    obtain ⟨u, hu, hdone, huout, hutaken⟩ := ih ht rfl
    refine ⟨u, (runTurns_succ _ hstep).trans hu, hdone, ?_, hutaken.trans htaken⟩
    rw [huout, hout, hin]

/-- ENC.START on a source that holds at least one byte begins an undisturbed run on the whole input. -/
theorem encStartedOn_undisturbed (e : Encoder) {p : Ports} {b : Byte} {rest : List Byte}
    (hsrc : sourceHolds (b :: rest) p.source) (hsnk : sinkOpen p.sink) :
    RunsUndisturbed (encStartedOn e b p.source) { p with source := sourceStarted p.source, start := false } ∧
      encInput (encStartedOn e b p.source) { p with source := sourceStarted p.source, start := false } =
        b :: rest ∧
      encodeRest (encStartedOn e b p.source) (b :: rest) = encodeList (b :: rest) ∧
      (sourceStarted p.source).taken ++ readsLeft (encStartedOn e b p.source).nn (sourceStarted p.source) =
        p.source.taken ++ ((b :: rest).map .byte ++ [.eoi]) := by
  have hfirst : nextSym p.source = .byte b := nextSym_of_holds hsrc
  have h₁ := readNext_holds hsrc
  have h₂ := readNext_holds h₁
  have hall : upcoming p.source = b :: rest := upcoming_of_bytes hsrc.1
  have hx : nextSym (readNext p.source) = .eoi →
      symAfter (nextSym (readNext p.source)) (readNext (readNext p.source)) = .eoi := fun hn => if_pos hn
  have read₁ := srcRead_readNext (p := startTaken p) (sourceReady_of_holds hsrc 1)
  rw [startTaken_source, hfirst] at read₁
  have hin : encInput (encStartedOn e b p.source)
      { p with source := sourceStarted p.source, start := false } = b :: rest := by
    refine (encInput_encStarted read₁ (srcRead_readNext (sourceReady_of_holds h₁ 1)) hx fun hn => ?_).trans hall
    rw [srcRead_readNext (by exact sourceReady_of_holds h₂ 1), symAfter, sourceStarted, readAfter, if_neg hn,
      if_neg hn]
    rfl
  refine ⟨⟨rfl, encStarted_running e b hx, hsnk, readAfter_holds _ h₂⟩, hin, ?_, ?_⟩
  · rw [← hin]
    exact encodeRest_encStarted hx _
  · have taken₁ := taken_readAfter hsrc (.byte b)
    have hsym : symAfter (.byte b) p.source = .byte b := hfirst
    rw [hsym] at taken₁
    have hreads : readsLeft (.byte b) p.source = (b :: rest).map .byte ++ [.eoi] := by rw [← hall]; rfl
    exact (taken_readAfter h₂ _).trans ((taken_readAfter h₁ (.byte b)).trans (taken₁.trans (by rw [hreads])))

/-- Settles O55: the empty input ends at the start; else the start begins a run that `runTurns_undisturbed` ends, on
what R99 says of the window and the mode at the start. -/
theorem encoderInvocationEncodes : Obligations.EncoderInvocationEncodes := by
  intro s input hp hbsrc hbsnk hsrc hsnk
  cases input with
  | nil =>
    have started := exec_encStart_empty (s := { s with encPorts := startIssued s.encPorts }) hp rfl hbsrc hbsnk
      (sourceReady_of_holds hsrc 1) (nextSym_of_holds hsrc)
    refine ⟨_, _, (exec_start_encoder hp).trans started, rfl, rfl, (List.append_nil _).symm, ?_⟩
    have hn : nextSym s.encPorts.source = .eoi := nextSym_of_holds hsrc
    simp [readNext, readOnce, hn]
  | cons b rest =>
    have started := exec_encStart_byte (s := { s with encPorts := startIssued s.encPorts }) hp rfl hbsrc hbsnk
      (sourceReady_of_holds hsrc 3) (nextSym_of_holds hsrc)
    obtain ⟨hrun, hin, hencode, htaken⟩ := encStartedOn_undisturbed s.enc hsrc hsnk
    obtain ⟨u, hu, hdone, hout, hutaken⟩ := runTurns_undisturbed (s := { s with
      enc := encStartedOn s.enc b s.encPorts.source
      encPorts := { s.encPorts with source := sourceStarted s.encPorts.source, start := false } }) hrun hin
    refine ⟨_, u, (exec_start_encoder hp).trans started, ?_, hdone, ?_, ?_⟩
    · rw [if_neg (by simp)]
      exact hu
    · rw [hout, hencode]
    · rw [hutaken, List.append_assoc]
      exact htaken

/-! ### `Encode` on whole inputs (R94, R95). -/

/-- A byte of the input costs at most two bytes of output: a record's two bytes or more stand for at least one
byte, and each pending byte has been counted already. -/
theorem encodeFrom_length_le (m : Mode) (n : Nat) (buf input : List Byte) :
    (encodeFrom m n buf input).length ≤ 2 * input.length + buf.length := by
  induction input generalizing m n buf with
  | nil => rw [encodeFrom]; simp
  | cons b rest ih =>
    have emit (m' : Mode) (record buf' : List Byte)
        (h : record.length + buf'.length ≤ 2 + buf.length) :
        (record ++ encodeFrom m' 0 buf' rest).length ≤ 2 * (b :: rest).length + buf.length := by
      have hrest := ih m' 0 buf'
      rw [List.length_append, List.length_cons]
      omega
    have count (buf' : List Byte) (h : buf'.length ≤ 2 + buf.length) :
        (encodeFrom m (n + 1) buf' rest).length ≤ 2 * (b :: rest).length + buf.length := by
      have hrest := ih m (n + 1) buf'
      rw [List.length_cons]
      omega
    cases m with
    | repeatMode =>
      rw [encodeFrom_repeat]
      split
      · exact emit _ _ buf (by simp)
      split
      · exact emit _ _ buf (by simp)
      · exact count buf (by simp)
    | literalMode =>
      rw [encodeFrom_literal]
      split_ifs
      · exact emit _ _ [] (by simp; omega)
      · exact emit _ _ [] (by simp; omega)
      · exact count (buf ++ [b]) (by simp)

/-- Settles O60: at the start nothing is pending. -/
theorem encodedAtMostTwice : Obligations.EncodedAtMostTwice :=
  fun input => encodeFrom_length_le (startMode input) 0 [] input

/-- A run of less than 127 more bytes is one record (R73). -/
theorem runStream_of_lt {count : Nat} (h₁ : 1 ≤ count) (h₂ : count < 127) (v : Byte) :
    runStream count v = [0x80 ||| BitVec.ofNat 8 count, v] := by
  rw [runStream, Nat.div_eq_of_lt h₂, Nat.mod_eq_of_lt h₂, if_neg (by omega)]
  rfl

/-- The first 127 bytes of a run are one record (R73). -/
theorem runStream_add_cap (count : Nat) (v : Byte) :
    runStream (count + 127) v = [0xFF, v] ++ runStream count v := by
  rw [runStream, Nat.add_div_right _ (by decide), Nat.add_mod_right, List.replicate_succ,
    List.flatten_cons, List.append_assoc, runStream]

/-- From a run of `n` equal bytes on, the loop makes the records of the whole run (R73, R84 to R86). -/
theorem encodeFrom_replicate {n : Nat} (hn : n < 127) (c : Nat) (v : Byte) :
    encodeFrom .repeatMode n [] (List.replicate (c + 1) v) = runStream (n + (c + 1)) v := by
  induction c generalizing n with
  | zero =>
    rw [List.replicate_one, encodeFrom_repeat, if_pos (by simp [headSym]), encodeFrom, List.append_nil]
    by_cases hcap : n + 1 = 127
    · rw [Nat.zero_add, hcap]
      exact (runStream_add_cap 0 v).symm
    · exact (runStream_of_lt (by omega) (by omega) v).symm
  | succ c ih =>
    have same : ¬ Sym.byte v ≠ headSym (List.replicate (c + 1) v) := by simp [headSym, List.replicate_succ]
    rw [List.replicate_succ, encodeFrom_repeat, if_neg same]
    by_cases hcap : n + 1 = 127
    · have split : n + (c + 1 + 1) = (0 + (c + 1)) + 127 := by omega
      rw [if_pos hcap, ih (by decide), split, runStream_add_cap]
    · rw [if_neg hcap, ih (by omega), Nat.add_right_comm n 1, Nat.add_assoc n]

theorem encodeList_replicate {count : Nat} (h : 1 ≤ count) (v : Byte) :
    encodeList (List.replicate count v) = runStream count v := by
  obtain ⟨c, rfl⟩ := Nat.exists_eq_add_of_le' h
  have hm : startMode (List.replicate (c + 1) v) = .repeatMode := by
    cases c <;> simp [startMode, List.replicate_succ]
  rw [encodeList, hm, encodeFrom_replicate (by decide), Nat.zero_add]

/-- The groups do not depend on a bound that is large enough. -/
theorem rawGroups_congr {k k' : Nat} {bs : List Byte} (h : bs.length ≤ k) (h' : bs.length ≤ k') :
    rawGroups k bs = rawGroups k' bs := by
  induction k generalizing k' bs with
  | zero =>
    obtain rfl : bs = [] := List.length_eq_zero_iff.mp (by omega)
    cases k' <;> simp [rawGroups]
  | succ k ih =>
    by_cases hb : bs = []
    · cases k' <;> simp [rawGroups, hb]
    · have pos := List.length_pos_iff.mpr hb
      obtain ⟨k', rfl⟩ : ∃ j, k' = j + 1 := ⟨k' - 1, by omega⟩
      rw [rawGroups, if_neg hb, rawGroups, if_neg hb,
        ih (k' := k') (by rw [List.length_drop]; omega) (by rw [List.length_drop]; omega)]

/-- At most 127 bytes are one group (R73). -/
theorem rawStream_of_le {bs : List Byte} (hne : bs ≠ []) (h : bs.length ≤ 127) :
    rawStream bs = BitVec.ofNat 8 bs.length :: bs := by
  have pos := List.length_pos_iff.mpr hne
  obtain ⟨k, hk⟩ : ∃ k, bs.length = k + 1 := ⟨bs.length - 1, by omega⟩
  rw [rawStream, hk, rawGroups, if_neg hne, List.take_of_length_le h, List.drop_of_length_le h,
    Nat.min_eq_right h, ← hk]
  cases k <;> simp [rawGroups]

/-- The first 127 bytes are a group of their own (R73). -/
theorem rawStream_append {front : List Byte} (h : front.length = 127) (rest : List Byte) :
    rawStream (front ++ rest) = 0x7F :: front ++ rawStream rest := by
  have hlen : (front ++ rest).length = rest.length + 126 + 1 := by rw [List.length_append]; omega
  have hne : front ++ rest ≠ [] := by rintro e; simp [e] at hlen
  rw [rawStream, hlen, rawGroups, if_neg hne, hlen, Nat.min_eq_left (by omega), ← h, List.take_left,
    List.drop_left, h, rawGroups_congr (Nat.le_add_right _ 126) (Nat.le_refl _)]
  rfl

/-- With no two adjacent bytes equal the two symbols ahead are equal only past the last byte. -/
theorem headSym_ne_of_noAdjacentEqual {b c : Byte} {rest : List Byte}
    (h : noAdjacentEqual (b :: c :: rest) = true) : headSym (c :: rest) ≠ headSym rest := by
  cases rest with
  | nil => simp [headSym]
  | cons d rest => simp_all [noAdjacentEqual, headSym]

/-- From the pending bytes on, the loop makes the groups of all the bytes (R73, R87 to R89). -/
theorem encodeFrom_noAdjacentEqual {buf input : List Byte} (hbuf : buf.length < 127)
    (hne : input ≠ []) (h : noAdjacentEqual input = true) :
    encodeFrom .literalMode buf.length buf input = rawStream (buf ++ input) := by
  induction input generalizing buf with
  | nil => exact absurd rfl hne
  | cons b rest ih =>
    have hlen : (buf ++ [b]).length = buf.length + 1 := by simp
    rw [encodeFrom_literal]
    cases rest with
    | nil =>
      rw [List.tail_nil, if_pos rfl, rawStream_of_le (by simp) (by omega), hlen, encodeFrom, List.append_nil]
      rfl
    | cons c rest =>
      have tail : noAdjacentEqual (c :: rest) = true := by simp_all [noAdjacentEqual]
      have hsplit : buf ++ b :: c :: rest = (buf ++ [b]) ++ c :: rest := by simp
      rw [if_neg (by exact headSym_ne_of_noAdjacentEqual h), hsplit]
      by_cases hcap : buf.length + 1 = 127
      · rw [if_pos hcap, rawStream_append (hlen.trans hcap)]
        exact congrArg _ (ih (buf := []) (by simp) (by simp) tail)
      · rw [if_neg hcap, ← hlen, ih (by omega) (by simp) tail]

theorem encodeList_noAdjacentEqual {input : List Byte} (h₂ : 2 ≤ input.length)
    (h : noAdjacentEqual input = true) : encodeList input = rawStream input := by
  have hm : startMode input = .literalMode := by
    match input, h₂, h with
    | a :: b :: rest, _, h => simp_all [startMode, noAdjacentEqual]
  have hne : input ≠ [] := by rintro rfl; simp at h₂
  rw [encodeList, hm]
  exact encodeFrom_noAdjacentEqual (buf := []) (by simp) hne h

/-- Settles O59: runs and literals by induction over the input, a single byte as a run of one. -/
theorem wholeInputOutcomes : Obligations.WholeInputOutcomes :=
  ⟨rfl, fun v => encodeList_replicate (Nat.le_refl 1) v, fun _ v h => encodeList_replicate h v,
    fun _ h₂ h => encodeList_noAdjacentEqual h₂ h⟩

end Sys2Proof.Machine

/-! PROOFS, family 41_decoder: what an operation of the decoder can do, records as runs of operations, the effect of
each operation and of each record, and the decoder's turns against `Decode`. -/

namespace Sys2Proof.Machine

/-! ### What an operation of a running decoder can do (R111 to R115). -/

/-- The phases of an invocation, in which the decoder has an operation without the `start` command (R110). -/
abbrev decRunning (d : Decoder) : Prop :=
  d.phase = .fetch ∨ d.phase = .repv ∨ d.phase = .repw ∨ d.phase = .litc

/-- Everything an operation of a running decoder can make of the registers and the ports, if it happens. -/
inductive DecStep (d : Decoder) (p p' : Ports) : Decoder → Prop where
  | reserved {c : Byte} (hp : d.phase = .fetch) (hr : srcRead p = .done (.byte c) p') (hl : ctlLen c = 0) :
      DecStep d p p' (decRaise .reservedLength { d with ctl := c, cnt := 0 })
  | repeatControl {c : Byte} (hp : d.phase = .fetch) (hr : srcRead p = .done (.byte c) p')
      (hl : ctlLen c ≠ 0) (hm : ctlMode c = .repeatMode) :
      DecStep d p p' { d with ctl := c, cnt := ctlLen c, phase := .repv }
  | literalControl {c : Byte} (hp : d.phase = .fetch) (hr : srcRead p = .done (.byte c) p')
      (hl : ctlLen c ≠ 0) (hm : ctlMode c = .literalMode) :
      DecStep d p p' { d with ctl := c, cnt := ctlLen c, phase := .litc }
  | ended (hp : d.phase = .fetch) (hr : srcRead p = .done .eoi p') : DecStep d p p' { d with phase := .done }
  | value {v : Byte} (hp : d.phase = .repv) (hr : srcRead p = .done (.byte v) p') :
      DecStep d p p' { d with val := v, phase := .repw }
  | noValue (hp : d.phase = .repv) (hr : srcRead p = .done .eoi p') :
      DecStep d p p' (decRaise .truncatedRepeat d)
  | repeated (hp : d.phase = .repw) (hw : snkWrite d.val p = .done () p') : DecStep d p p' (decCountDown d)
  | copied {b : Byte} {p₁ : Ports} (hp : d.phase = .litc) (hr : srcRead p = .done (.byte b) p₁)
      (hw : snkWrite b p₁ = .done () p') : DecStep d p p' (decCountDown d)
  | noPayload (hp : d.phase = .litc) (hr : srcRead p = .done .eoi p') :
      DecStep d p p' (decRaise .truncatedLiteral d)
  | readFails (hp : d.phase = .fetch ∨ d.phase = .repv ∨ d.phase = .litc)
      (hr : srcRead p = .raised .sourceRead p') : DecStep d p p' (decRaise .sourceRead d)
  | writeFails (hp : d.phase = .repw) (hw : snkWrite d.val p = .raised .sinkWrite p') :
      DecStep d p p' (decRaise .sinkWrite d)
  | copyFails {b : Byte} {p₁ : Ports} (hp : d.phase = .litc) (hr : srcRead p = .done (.byte b) p₁)
      (hw : snkWrite b p₁ = .raised .sinkWrite p') : DecStep d p p' (decRaise .sinkWrite d)

theorem decStep_of_decFetchOp {d d' : Decoder} {p p' : Ports} (hp : d.phase = .fetch)
    (hx : decFetchOp d p = some (d', p')) : DecStep d p p' d' := by
  obtain e | ⟨c, _, hr, e⟩ | ⟨_, hr, e⟩ | ⟨_, hr, e⟩ := decFetchOp_cases d p <;> rw [e] at hx <;> cases hx
  · obtain ⟨hl, e⟩ | ⟨hl, hm, e⟩ | ⟨hl, hm, e⟩ := decTakeControl_cases d c <;> rw [e]
    · exact .reserved hp hr hl
    · exact .repeatControl hp hr hl hm
    · exact .literalControl hp hr hl hm
  · exact .ended hp hr
  · exact .readFails (.inl hp) hr

theorem decStep_of_decRepValOp {d d' : Decoder} {p p' : Ports} (hp : d.phase = .repv)
    (hx : decRepValOp d p = some (d', p')) : DecStep d p p' d' := by
  obtain e | ⟨v, _, hr, e⟩ | ⟨_, hr, e⟩ | ⟨_, hr, e⟩ := decRepValOp_cases d p <;> rw [e] at hx <;> cases hx
  · exact .value hp hr
  · exact .noValue hp hr
  · exact .readFails (.inr (.inl hp)) hr

theorem decStep_of_decRepOutOp {d d' : Decoder} {p p' : Ports} (hp : d.phase = .repw)
    (hx : decRepOutOp d p = some (d', p')) : DecStep d p p' d' := by
  obtain e | ⟨_, hw, e⟩ | ⟨_, hw, e⟩ := decRepOutOp_cases d p <;> rw [e] at hx <;> cases hx
  · exact .repeated hp hw
  · exact .writeFails hp hw

theorem decStep_of_decLitCopyOp {d d' : Decoder} {p p' : Ports} (hp : d.phase = .litc)
    (hx : decLitCopyOp d p = some (d', p')) : DecStep d p p' d' := by
  obtain e | ⟨b, _, _, hr, hw, e⟩ | ⟨b, _, _, hr, hw, e⟩ | ⟨_, hr, e⟩ | ⟨_, hr, e⟩ :=
    decLitCopyOp_cases d p <;> rw [e] at hx <;> cases hx
  · exact .copied hp hr hw
  · exact .copyFails hp hr hw
  · exact .noPayload hp hr
  · exact .readFails (.inr (.inr hp)) hr

theorem decStep_of_decPhaseOp {d d' : Decoder} {p p' : Ports} (hd : decRunning d)
    (hx : decPhaseOp d p = some (d', p')) : DecStep d p p' d' := by
  obtain hp | hp | hp | hp := hd <;> rw [decPhaseOp, hp] at hx
  · exact decStep_of_decFetchOp hp hx
  · exact decStep_of_decRepValOp hp hx
  · exact decStep_of_decRepOutOp hp hx
  · exact decStep_of_decLitCopyOp hp hx

/-! ### A record is a run of the decoder's turns (R116 to R118). -/

/-- A decoder that has been started and, inside a record, has a payload unit to deliver (R16, R32). -/
structure DecStarted (d : Decoder) : Prop where
  phase : d.phase ≠ .idle
  owed : d.phase = .repv ∨ d.phase = .repw ∨ d.phase = .litc → d.cnt ≠ 0

theorem decStarted_of_fetch {d : Decoder} (hp : d.phase = .fetch) : DecStarted d := ⟨by simp [hp], by simp [hp]⟩

theorem decStarted_decRaise (k : FaultKind) (d : Decoder) : DecStarted (decRaise k d) := ⟨by simp, by simp⟩

theorem decCountDown_phase_of_one {d : Decoder} (h : d.cnt - 1 = 0) : (decCountDown d).phase = .fetch := if_pos h

theorem decCountDown_phase_of_more {d : Decoder} (h : d.cnt - 1 ≠ 0) : (decCountDown d).phase = d.phase := if_neg h

theorem decCountDown_phase_ne_fault {d : Decoder} (h : d.phase ≠ .fault) : (decCountDown d).phase ≠ .fault := by
  by_cases h₁ : d.cnt - 1 = 0
  · simp [decCountDown_phase_of_one h₁]
  · rwa [decCountDown_phase_of_more h₁]

theorem decStarted_decCountDown {d : Decoder} (h : DecStarted d) : DecStarted (decCountDown d) := by
  by_cases h₁ : d.cnt - 1 = 0
  · exact decStarted_of_fetch (decCountDown_phase_of_one h₁)
  · exact ⟨by rw [decCountDown_phase_of_more h₁]; exact h.phase, fun _ => h₁⟩

theorem DecStep.started {d d' : Decoder} {p p' : Ports} (hx : DecStep d p p' d') (h : DecStarted d) :
    DecStarted d' := by
  cases hx with
  | repeatControl _ _ hl _ | literalControl _ _ hl _ => exact ⟨by simp, fun _ => hl⟩
  | ended => exact ⟨by simp, by simp⟩
  | value hp => exact ⟨by simp, fun _ => h.owed (.inl hp)⟩
  | repeated | copied => exact decStarted_decCountDown h
  | reserved | noValue | noPayload | readFails | writeFails | copyFails => exact decStarted_decRaise _ _

theorem decPhaseOp_of_not_running {d : Decoder} (h : ¬ decRunning d) (p : Ports) :
    decPhaseOp d p = some (d, p) := by
  cases hp : d.phase with
  | idle | done | fault => rw [decPhaseOp, hp]
  | fetch | repv | repw | litc => exact absurd hp (by tauto)

theorem decPhaseOp_started {d d' : Decoder} {p p' : Ports} (h : DecStarted d)
    (hx : decPhaseOp d p = some (d', p')) : DecStarted d' := by
  by_cases hd : decRunning d
  · exact (decStep_of_decPhaseOp hd hx).started h
  · rw [decPhaseOp_of_not_running hd] at hx
    cases hx
    exact h

theorem stepBlock_of_decStarted {s : State} (h : DecStarted s.dec) :
    stepBlock .decoder s = .next (putDecoder s (decPhaseOp s.dec s.decPorts)) :=
  stepBlock_decoder h.phase fun hp => h.owed (.inr hp)

/-- Turns that each leave the state as it is. -/
theorem runTurns_of_waits {b : Block} {s : State} (h : stepBlock b s = .next s) (k : Nat) :
    runTurns b k s = .next s := by
  induction k with
  | zero => rfl
  | succ k ih => rw [runTurns_succ k h, ih]

/-- From a started decoder, `k` turns are the run of `k` operations of its phases, whatever the ports answer. -/
theorem runTurns_decoder (k : Nat) {s : State} (h : DecStarted s.dec) :
    runTurns .decoder k s = .next (putDecoder s (some (decRun k s.dec s.decPorts))) := by
  induction k generalizing s with
  | zero => rfl
  | succ k ih =>
    have turn := stepBlock_of_decStarted h
    cases hx : decPhaseOp s.dec s.decPorts with
    | none =>
      rw [hx] at turn
      rw [runTurns_of_waits turn, decRun, hx]
      rfl
    | some dp =>
      rw [hx] at turn
      rw [runTurns_succ k turn, ih (decPhaseOp_started h hx), decRun, hx]
      rfl

/-- Settles O32: a record is executed as so many operations from FETCH, and so are as many turns. -/
theorem recordIsItsOperations : Obligations.RecordIsItsOperations := by
  intro s i h
  rw [runTurns_decoder _ (decStarted_of_fetch (nextRecord_fetch h)), exec_record (nextRecord_isRecord h), h,
    whenSelected_next]
  exact ⟨beq_self_eq_true _, rfl, rfl⟩

/-! ### The machine against the loop of `Decode` (R125). -/

theorem len_toNat_pred {n : Len} (h : n ≠ 0) : n.toNat = (n - 1).toNat + 1 := by bv_omega

/-- A read that hands over a byte takes it off the bytes still to come. -/
theorem upcoming_of_srcRead_byte {p p' : Ports} {b : Byte} (h : srcRead p = .done (.byte b) p') :
    upcoming p.source = b :: upcoming p'.source := upcoming_of_srcRead h

/-- At the marker no byte is still to come. -/
theorem upcoming_of_srcRead_eoi {p p' : Ports} (h : srcRead p = .done .eoi p') : upcoming p.source = [] :=
  upcoming_of_srcRead h

theorem snkWrite_done_out {b : Byte} {p p' : Ports} (h : snkWrite b p = .done () p') :
    p'.source = p.source ∧ p'.sink.out = p.sink.out ++ [b] := by
  obtain ⟨hs, -, -, -, ho⟩ := snkWrite_done_frame h
  exact ⟨hs, ho⟩

/-- Where a fault of the stream, and not of a port, ends decoding (R119, R130). -/
def EndsMalformed (d : Decoder) : Prop :=
  ∃ k, causeCode k = 3 ∧ d.phase = .fault ∧ d.cause = 3 ∧ d.subcause = subcauseCode k

theorem endsMalformed_decRaise {k : FaultKind} (hk : causeCode k = 3) (d : Decoder) :
    EndsMalformed (decRaise k d) := ⟨k, hk, rfl, hk, rfl⟩

theorem decFinal_fetch {d : Decoder} (hp : d.phase = .fetch) (p : Ports) :
    decFinal d p = outputFirst p.sink.out (decodeFrom .control (upcoming p.source)) := by
  rw [decFinal, hp]

theorem decFinal_repv {d : Decoder} (hp : d.phase = .repv) (p : Ports) :
    decFinal d p = outputFirst p.sink.out (decodeFrom (.value d.cnt.toNat) (upcoming p.source)) := by
  rw [decFinal, hp]

theorem decFinal_repw {d : Decoder} (hp : d.phase = .repw) (p : Ports) :
    decFinal d p = outputFirst (p.sink.out ++ List.replicate d.cnt.toNat d.val)
      (decodeFrom .control (upcoming p.source)) := by
  rw [decFinal, hp]

theorem decFinal_litc {d : Decoder} (hp : d.phase = .litc) (p : Ports) :
    decFinal d p = outputFirst p.sink.out (decodeFrom (.payload d.cnt.toNat) (upcoming p.source)) := by
  rw [decFinal, hp]

theorem malformedResult_subcauseCode {k : FaultKind} (hk : causeCode k = 3) :
    malformedResult (subcauseCode k) = .malformed k := by
  cases k <;> simp_all [causeCode, subcauseCode, malformedResult]

theorem decFinal_decRaise {k : FaultKind} (hk : causeCode k = 3) (d : Decoder) (p : Ports) :
    decFinal (decRaise k d) p = outputFirst p.sink.out ([], .malformed k) := by
  rw [← malformedResult_subcauseCode hk, outputFirst, List.append_nil]
  rfl

/-- One copy of the value delivered moves it from what is owed into the sink (R114). -/
theorem decFinal_repeated {d : Decoder} {p p' : Ports} (hp : d.phase = .repw) (hc : d.cnt ≠ 0)
    (hw : snkWrite d.val p = .done () p') : decFinal (decCountDown d) p' = decFinal d p := by
  obtain ⟨hs, ho⟩ := snkWrite_done_out hw
  rw [decFinal_repw hp, len_toNat_pred hc, List.replicate_succ, List.append_cons, ← ho, ← hs]
  by_cases h₁ : d.cnt - 1 = 0
  · rw [decFinal_fetch (decCountDown_phase_of_one h₁), h₁]
    simp
  · rw [decFinal_repw ((decCountDown_phase_of_more h₁).trans hp)]
    rfl

/-- One payload byte copied is one byte of the loop's payload (R115). -/
theorem decFinal_copied {d : Decoder} {p p₁ p' : Ports} {b : Byte} (hp : d.phase = .litc) (hc : d.cnt ≠ 0)
    (hr : srcRead p = .done (.byte b) p₁) (hw : snkWrite b p₁ = .done () p') :
    decFinal (decCountDown d) p' = decFinal d p := by
  obtain ⟨hs, ho⟩ := snkWrite_done_out hw
  rw [srcRead_done_sink hr] at ho
  rw [decFinal_litc hp, upcoming_of_srcRead_byte hr, decodeFrom, outputFirst_outputFirst, ← ho, ← hs,
    len_toNat_pred hc, Nat.add_sub_cancel]
  by_cases h₁ : d.cnt - 1 = 0
  · rw [decFinal_fetch (decCountDown_phase_of_one h₁), h₁, if_pos (by simp)]
  · have more : ¬ (d.cnt - 1).toNat + 1 ≤ 1 := by have := len_toNat_ne_zero h₁; omega
    rw [decFinal_litc ((decCountDown_phase_of_more h₁).trans hp), if_neg more]
    rfl

/-- An operation of the decoder leaves what its sink will hold and how it ends, or a port has failed (R125). -/
theorem DecStep.keepsFinal {d d' : Decoder} {p p' : Ports} (hx : DecStep d p p' d') (h : DecStarted d) :
    decFinal d' p' = decFinal d p ∧ (d'.phase = .fault → EndsMalformed d') ∨
      d'.phase = .fault ∧ d'.cause = 2 := by
  cases hx with
  | reserved hp hr hl =>
    refine .inl ⟨?_, fun _ => endsMalformed_decRaise rfl _⟩
    rw [decFinal_decRaise rfl, decFinal_fetch hp, upcoming_of_srcRead_byte hr, decodeFrom_reserved hl,
      srcRead_done_sink hr]
  | repeatControl hp hr hl hm =>
    refine .inl ⟨?_, (nomatch ·)⟩
    rw [decFinal_repv rfl, decFinal_fetch hp, upcoming_of_srcRead_byte hr, decodeFrom_repeat hl hm,
      srcRead_done_sink hr]
  | literalControl hp hr hl hm =>
    refine .inl ⟨?_, (nomatch ·)⟩
    rw [decFinal_litc rfl, decFinal_fetch hp, upcoming_of_srcRead_byte hr, decodeFrom_literal hl hm,
      srcRead_done_sink hr]
  | ended hp hr =>
    refine .inl ⟨?_, (nomatch ·)⟩
    rw [decFinal_fetch hp, upcoming_of_srcRead_eoi hr, ← srcRead_done_sink hr, decodeFrom, outputFirst,
      List.append_nil]
    rfl
  | value hp hr =>
    refine .inl ⟨?_, (nomatch ·)⟩
    rw [decFinal_repw rfl, decFinal_repv hp, upcoming_of_srcRead_byte hr, decodeFrom, outputFirst_outputFirst,
      srcRead_done_sink hr]
  | noValue hp hr =>
    refine .inl ⟨?_, fun _ => endsMalformed_decRaise rfl _⟩
    rw [decFinal_decRaise rfl, decFinal_repv hp, upcoming_of_srcRead_eoi hr, decodeFrom, srcRead_done_sink hr]
  | repeated hp hw =>
    have hc := h.owed (.inr (.inl hp))
    exact .inl ⟨decFinal_repeated hp hc hw, fun hf => absurd hf (decCountDown_phase_ne_fault (by simp [hp]))⟩
  | copied hp hr hw =>
    have hc := h.owed (.inr (.inr hp))
    exact .inl ⟨decFinal_copied hp hc hr hw, fun hf => absurd hf (decCountDown_phase_ne_fault (by simp [hp]))⟩
  | noPayload hp hr =>
    refine .inl ⟨?_, fun _ => endsMalformed_decRaise rfl _⟩
    rw [decFinal_decRaise rfl, decFinal_litc hp, upcoming_of_srcRead_eoi hr, decodeFrom, srcRead_done_sink hr]
  | readFails | writeFails | copyFails => exact .inr ⟨rfl, rfl⟩

theorem decStarted_of_decInv {d : Decoder} (h : decInv d) (hi : d.phase ≠ .idle) : DecStarted d := by
  obtain ⟨⟨hcnt, -⟩, -⟩ := h
  exact ⟨hi, fun hp => (hcnt hp).1⟩

theorem decFinal_idle {d : Decoder} (hp : d.phase = .idle) (p : Ports) :
    decFinal d p = outputFirst p.sink.out (decodeFrom .control (upcoming p.source)) := by
  rw [decFinal, hp]

/-- A turn of an idle decoder waits, or is DEC.START. -/
theorem stepBlock_decoder_idle {s t : State} (hp : s.dec.phase = .idle) (hx : stepBlock .decoder s = .next t) :
    t = s ∨ exec .decStart s = .next t := by
  cases hs : select .decoder s with
  | none => rw [stepBlock_of_none hs] at hx; cases hx; exact .inl rfl
  | some i =>
    obtain rfl : i = .decStart := by
      simp only [select, selectDecoder_phase, hp] at hs
      split at hs <;> cases hs; rfl
    rw [stepBlock_of_selected hs] at hx
    exact .inr hx

/-- Settles O54: DEC.START begins the loop of R125 on what the source holds, and an operation of an invocation is
a turn of the loop, unless a port fails. -/
theorem decoderStepComputesDecode : Obligations.DecoderStepComputesDecode := by
  intro s t h _ hx h₁ h₂
  by_cases hi : s.dec.phase = .idle
  · obtain rfl | hx := stepBlock_decoder_idle hi hx
    · rfl
    · obtain ⟨-, -, ⟨k, hk, rfl⟩ | ⟨-, -, rfl⟩⟩ := exec_decStart_cases hx
      · obtain ⟨rfl, -⟩ | ⟨rfl, -⟩ := hk <;> exact absurd rfl h₁
      · rw [decFinal_fetch rfl, decFinal_idle hi]
        rfl
  · have hs := decStarted_of_decInv h hi
    rw [stepBlock_of_decStarted hs] at hx
    cases hx
    by_cases hd : decRunning s.dec
    · cases hr : decPhaseOp s.dec s.decPorts with
      | none => rfl
      | some dp =>
        rw [hr] at h₂
        exact ((decStep_of_decPhaseOp hd hr).keepsFinal hs).elim (·.1) fun hf => absurd hf.2 h₂
    · rw [decPhaseOp_of_not_running hd]
      rfl

/-! ### Every operation makes progress (R119). -/

theorem decWork_read {d : Decoder} (hp : d.phase = .fetch ∨ d.phase = .repv ∨ d.phase = .litc) (p : Ports) :
    decWork d p = 129 * p.source.answers.length + 1 := by
  obtain hp | hp | hp := hp <;> rw [decWork, hp]

theorem decWork_repw {d : Decoder} (hp : d.phase = .repw) (p : Ports) :
    decWork d p = 129 * p.source.answers.length + d.cnt.toNat + 1 := by
  rw [decWork, hp]

/-- Whatever phase the decoder is in, its work is bounded by its source's answers and its count. -/
theorem decWork_le (d : Decoder) (p : Ports) :
    decWork d p ≤ 129 * p.source.answers.length + d.cnt.toNat + 1 := by
  unfold decWork
  split <;> omega

theorem decWork_pos {d : Decoder} (hd : decRunning d) (p : Ports) : 0 < decWork d p := by
  obtain hp | hp | hp | hp := hd
  · rw [decWork_read (.inl hp)]; omega
  · rw [decWork_read (.inr (.inl hp))]; omega
  · rw [decWork_repw hp]; omega
  · rw [decWork_read (.inr (.inr hp))]; omega

/-- A read that hands over a byte uses up an answer. -/
theorem srcRead_byte_answers {p p' : Ports} {b : Byte} (h : srcRead p = .done (.byte b) p') :
    p.source.answers.length = p'.source.answers.length + 1 := by
  have hw := srcRead_work h
  simp only [symByte, List.filterMap_cons, List.filterMap_nil, List.length_cons, List.length_nil] at hw
  omega

/-- Every operation of the decoder that happens makes the measure smaller: it uses up an answer of the source, or
counts down, or ends the invocation. -/
theorem DecStep.decWork_lt {d d' : Decoder} {p p' : Ports} (hx : DecStep d p p' d')
    (hc : d.phase = .repw → d.cnt ≠ 0) (hd : decRunning d) : decWork d' p' < decWork d p := by
  have read {b : Byte} {p₁ : Ports} (e : Decoder) (hp : d.phase = .fetch ∨ d.phase = .repv ∨ d.phase = .litc)
      (hr : srcRead p = .done (.byte b) p₁) (hs : p'.source = p₁.source) : decWork e p' < decWork d p := by
    have := decWork_le e p'
    have := e.cnt.isLt
    rw [decWork_read hp, srcRead_byte_answers hr, ← hs]
    omega
  cases hx with
  | repeatControl hp hr | literalControl hp hr => exact read _ (.inl hp) hr rfl
  | value hp hr => exact read _ (.inr (.inl hp)) hr rfl
  | copied hp hr hw => exact read _ (.inr (.inr hp)) hr (snkWrite_done_out hw).1
  | repeated hp hw =>
    have := len_toNat_pred (hc hp)
    have := decWork_le (decCountDown d) p'
    rw [decCountDown_cnt, (snkWrite_done_out hw).1] at this
    rw [decWork_repw hp]
    omega
  | reserved | ended | noValue | noPayload | readFails | writeFails | copyFails => exact decWork_pos hd p

/-- In the phases of an invocation a turn of the decoder that does not stop has a unit to deliver where it counts
down, and is the operation of its phase. -/
theorem stepBlock_decoder_running {s t : State} (hd : decRunning s.dec) (hx : stepBlock .decoder s = .next t) :
    (s.dec.phase = .repw ∨ s.dec.phase = .litc → s.dec.cnt ≠ 0) ∧
      t = putDecoder s (decPhaseOp s.dec s.decPorts) := by
  obtain ⟨-, stops⟩ := countersOutOfRangeStop s
  have hc : s.dec.phase = .repw ∨ s.dec.phase = .litc → s.dec.cnt ≠ 0 := by
    rintro (hp | hp) h₀
    · obtain ⟨stop, -⟩ := stops h₀
      have sel : select .decoder s = some .decRepOut := by simp only [select, selectDecoder_phase, hp]
      rw [stepBlock_of_selected sel, stop hp] at hx
      cases hx
    · obtain ⟨-, stop⟩ := stops h₀
      have sel : select .decoder s = some .decLitCopy := by simp only [select, selectDecoder_phase, hp]
      rw [stepBlock_of_selected sel, stop hp] at hx
      cases hx
  have hi : s.dec.phase ≠ .idle := by rintro h; simp [decRunning, h] at hd
  rw [stepBlock_decoder hi hc] at hx
  cases hx
  exact ⟨hc, rfl⟩

theorem decRunning_of_ne {d : Decoder} (hi : d.phase ≠ .idle) (hd : d.phase ≠ .done) (hf : d.phase ≠ .fault) :
    decRunning d := by
  cases hp : d.phase <;> simp_all [decRunning]

/-- Settles O51: an operation that changes the state happens, and one that happens makes the measure smaller. -/
theorem decoderAlwaysProgresses : Obligations.DecoderAlwaysProgresses := by
  intro s t hi hd hf hx hne
  have hrun := decRunning_of_ne hi hd hf
  obtain ⟨hc, rfl⟩ := stepBlock_decoder_running hrun hx
  cases hr : decPhaseOp s.dec s.decPorts with
  | none => rw [hr] at hne; exact absurd rfl hne
  | some dp => exact (decStep_of_decPhaseOp hrun hr).decWork_lt (fun hp => hc (.inl hp)) hrun

/-! ### A whole invocation of the decoder (R119, R125). -/

/-- Ports that answer all that is asked of them: the source holds its bytes, the sink accepts. -/
structure PortsAnswer (p : Ports) : Prop where
  source : ∃ bs, sourceHolds bs p.source
  sink : sinkOpen p.sink

theorem srcRead_of_portsAnswer {p : Ports} (h : PortsAnswer p) :
    ∃ x p', srcRead p = .done x p' ∧ PortsAnswer p' := by
  obtain ⟨⟨bs, hs⟩, hk⟩ := h
  exact ⟨_, _, srcRead_readNext (sourceReady_of_holds hs 1), ⟨bs.tail, readNext_holds hs⟩, hk⟩

theorem snkWrite_of_portsAnswer (b : Byte) {p : Ports} (h : PortsAnswer p) :
    ∃ p', snkWrite b p = .done () p' ∧ PortsAnswer p' := by
  obtain ⟨hs, hk⟩ := h
  obtain ⟨ha, ht⟩ := id hk
  exact ⟨_, snkWrite_ready (sinkReady_of_open hk 1), hs, by simp [wrote, ha], ht⟩

/-- With ports that answer, the operation of a running decoder happens. -/
theorem decPhaseOp_of_portsAnswer {d : Decoder} {p : Ports} (hd : decRunning d) (h : PortsAnswer p) :
    ∃ d' p', decPhaseOp d p = some (d', p') := by
  obtain ⟨x, p₁, hr, h₁⟩ := srcRead_of_portsAnswer h
  obtain hp | hp | hp | hp := hd <;> rw [decPhaseOp, hp]
  · simp only [decFetchOp, decFetchAct, hr, andThen_done]
    cases x <;> exact ⟨_, _, rfl⟩
  · simp only [decRepValOp, decRepValAct, hr, andThen_done]
    cases x <;> exact ⟨_, _, rfl⟩
  · obtain ⟨p', hw, -⟩ := snkWrite_of_portsAnswer d.val h
    simp only [decRepOutOp, hw, andThen_done]
    exact ⟨_, _, rfl⟩
  · simp only [decLitCopyOp, decLitCopyAct, hr, andThen_done]
    cases x with
    | eoi => exact ⟨_, _, rfl⟩
    | byte b =>
      obtain ⟨p', hw, -⟩ := snkWrite_of_portsAnswer b h₁
      simp only [hw, andThen_done]
      exact ⟨_, _, rfl⟩

theorem PortsAnswer.read {p p' : Ports} {x : Sym} (h : PortsAnswer p) (hr : srcRead p = .done x p') :
    PortsAnswer p' := by
  obtain ⟨y, p₁, e, h₁⟩ := srcRead_of_portsAnswer h
  cases e.symm.trans hr
  exact h₁

theorem PortsAnswer.write {b : Byte} {p p' : Ports} (h : PortsAnswer p) (hw : snkWrite b p = .done () p') :
    PortsAnswer p' := by
  obtain ⟨p₁, e, h₁⟩ := snkWrite_of_portsAnswer b h
  cases e.symm.trans hw
  exact h₁

theorem PortsAnswer.read_ne_raised {p p' : Ports} {k : FaultKind} (h : PortsAnswer p) :
    srcRead p ≠ .raised k p' := by
  obtain ⟨y, p₁, e, -⟩ := srcRead_of_portsAnswer h
  simp [e]

theorem PortsAnswer.write_ne_raised {b : Byte} {p p' : Ports} {k : FaultKind} (h : PortsAnswer p) :
    snkWrite b p ≠ .raised k p' := by
  obtain ⟨p₁, e, -⟩ := snkWrite_of_portsAnswer b h
  simp [e]

/-- With ports that answer, an operation leaves such ports, and no port has failed. -/
theorem DecStep.portsAnswer {d d' : Decoder} {p p' : Ports} (hx : DecStep d p p' d') (h : PortsAnswer p) :
    PortsAnswer p' ∧ ¬ (d'.phase = .fault ∧ d'.cause = 2) := by
  cases hx with
  | reserved _ hr | noValue _ hr | noPayload _ hr => exact ⟨h.read hr, by simp [causeCode]⟩
  | repeatControl _ hr | literalControl _ hr | ended _ hr | value _ hr => exact ⟨h.read hr, by simp⟩
  | repeated hp hw =>
    exact ⟨h.write hw, fun hf => absurd hf.1 (decCountDown_phase_ne_fault (by simp [hp]))⟩
  | copied hp hr hw =>
    exact ⟨(h.read hr).write hw, fun hf => absurd hf.1 (decCountDown_phase_ne_fault (by simp [hp]))⟩
  | readFails _ hr => exact absurd hr h.read_ne_raised
  | writeFails _ hw => exact absurd hw h.write_ne_raised
  | copyFails _ hr hw => exact absurd hw (h.read hr).write_ne_raised

/-- A started decoder with ports that answer ends, in DONE or in a fault of the stream, as what it was to do says. -/
theorem runTurns_decoder_ends {s : State} (h : DecStarted s.dec) (hp : PortsAnswer s.decPorts)
    (hf : s.dec.phase = .fault → EndsMalformed s.dec) :
    ∃ k u, runTurns .decoder k s = .next u ∧ (u.dec.phase = .done ∨ EndsMalformed u.dec) ∧
      decFinal u.dec u.decPorts = decFinal s.dec s.decPorts := by
  induction hn : decWork s.dec s.decPorts using Nat.strong_induction_on generalizing s with
  | _ n ih =>
    by_cases hd : decRunning s.dec
    · obtain ⟨d', p', hx⟩ := decPhaseOp_of_portsAnswer hd hp
      have turn := stepBlock_of_decStarted h
      have hstep := decStep_of_decPhaseOp hd hx
      obtain ⟨hp', hok⟩ := hstep.portsAnswer hp
      obtain ⟨hfinal, hf'⟩ := (hstep.keepsFinal h).resolve_right hok
      have hwork := hstep.decWork_lt (fun hp => h.owed (.inr (.inl hp))) hd
      rw [hx] at turn
      obtain ⟨k, u, hu, hend, hufinal⟩ := ih _ (hn ▸ hwork) (s := putDecoder s (some (d', p'))) (hstep.started h)
        hp' hf' rfl
      exact ⟨k + 1, u, (runTurns_succ k turn).trans hu, hend, hufinal.trans hfinal⟩
    · refine ⟨0, s, rfl, ?_, rfl⟩
      by_contra hne
      obtain ⟨hd', hf''⟩ := not_or.mp hne
      exact hd (decRunning_of_ne h.phase hd' fun hf' => hf'' (hf hf'))

/-- Settles O56: the start begins a run that ends, and keeps what `Decode` makes of the stream. -/
theorem decoderInvocationDecodes : Obligations.DecoderInvocationDecodes := by
  intro s stream hp hbsrc hbsnk hsrc hsnk
  obtain ⟨-, starts⟩ := startBeginsInvocation s
  obtain ⟨t, ht, htd, hts, htk⟩ := starts hp hbsrc hbsnk
  have hph : t.dec.phase = .fetch := by rw [htd]
  obtain ⟨k, u, hu, hend, hfinal⟩ := runTurns_decoder_ends (decStarted_of_fetch hph)
    ⟨⟨stream, hts ▸ hsrc⟩, htk ▸ hsnk⟩ (by simp [hph])
  rw [decFinal_fetch hph, hts, htk, upcoming_of_bytes hsrc.1] at hfinal
  refine ⟨k, t, u, ht, hu, ?_⟩
  obtain hdone | ⟨f, hf, hfault, hcause, hsub⟩ := hend
  · rw [decFinal, hdone] at hfinal
    obtain ⟨hout, hres⟩ := Prod.mk.inj hfinal
    exact ⟨hout, fun _ => hdone, fun f hf => absurd (hres.trans hf) (by simp)⟩
  · rw [decFinal, hfault, hsub] at hfinal
    obtain ⟨hout, hres⟩ := Prod.mk.inj hfinal
    rw [malformedResult_subcauseCode hf] at hres
    refine ⟨hout, fun h => absurd (hres.trans h) (by simp), fun g hg => ⟨hfault, hcause, ?_⟩⟩
    cases hres.trans hg
    exact hsub

/-! ### The round trip (R123). -/

/-- The bytes of the pending run in Repeat mode: copies of the byte in front (R25). -/
def pendingRun (n : Nat) : List Byte → List Byte
  | [] => []
  | b :: _ => List.replicate n b

theorem setWidth_ofNat_len {n : Nat} (hn : n < 128) : (BitVec.ofNat 7 n).setWidth 8 = BitVec.ofNat 8 n := by
  apply BitVec.eq_of_toNat_eq
  simp only [BitVec.toNat_setWidth, BitVec.toNat_ofNat]
  omega

theorem len_ofNat_toNat {n : Nat} (hn : n < 128) : (BitVec.ofNat 7 n).toNat = n := by
  rw [BitVec.toNat_ofNat, Nat.mod_eq_of_lt hn]

theorem len_ofNat_succ_ne_zero {n : Nat} (hn : n < 127) : BitVec.ofNat 7 (n + 1) ≠ 0 := by
  intro h
  have := len_ofNat_toNat (n := n + 1) (by omega)
  rw [h] at this
  exact absurd this (by simp)

/-- What the loop of R125 makes of a Repeat record that the loop of R99 emits. -/
theorem decodeFrom_repeat_record {n : Nat} (hn : n < 127) (b : Byte) (rest : List Byte) :
    decodeFrom .control ([0x80 ||| BitVec.ofNat 8 (n + 1), b] ++ rest) =
      outputFirst (List.replicate (n + 1) b) (decodeFrom .control rest) := by
  have hrec := decodeFrom_encode_append (r := .rep (BitVec.ofNat 7 (n + 1)) b)
    (Bool.and_eq_true_iff.mpr ⟨wellFormed_rep.mpr (len_ofNat_succ_ne_zero hn), rfl⟩) rest
  rwa [encode, packCtl_repeat, setWidth_ofNat_len (by omega), recordContent, len_ofNat_toNat (by omega)] at hrec

/-- What the loop of R125 makes of a Literal record that the loop of R99 emits. -/
theorem decodeFrom_literal_record {buf : List Byte} (hn : buf.length < 127) (b : Byte) (rest : List Byte) :
    decodeFrom .control ([BitVec.ofNat 8 (buf.length + 1)] ++ (buf ++ [b]) ++ rest) =
      outputFirst (buf ++ [b]) (decodeFrom .control rest) := by
  have hlen : (buf ++ [b]).length = (BitVec.ofNat 7 (buf.length + 1)).toNat := by
    rw [len_ofNat_toNat (by omega), List.length_append, List.length_singleton]
  have hrec := decodeFrom_encode_append (r := .lit (BitVec.ofNat 7 (buf.length + 1)) (buf ++ [b]))
    (Bool.and_eq_true_iff.mpr ⟨wellFormed_lit.mpr ⟨len_ofNat_succ_ne_zero hn, hlen⟩, rfl⟩) rest
  rwa [encode, packCtl_literal, setWidth_ofNat_len (by omega), recordContent] at hrec

/-- Decoding what the loop of R99 emits gives the pending bytes and the input: in Repeat mode the pending run is of
the byte in front, in Literal mode it is the buffer, which the last byte of the input flushes. -/
theorem decodeFrom_encodeFrom (input : List Byte) :
    (∀ n, n < 127 → decodeFrom .control (encodeFrom .repeatMode n [] input) =
      (pendingRun n input ++ input, .done)) ∧
    ∀ buf : List Byte, buf.length < 127 → (input = [] → buf = []) →
      decodeFrom .control (encodeFrom .literalMode buf.length buf input) = (buf ++ input, .done) := by
  induction input with
  | nil => exact ⟨fun _ _ => rfl, fun buf _ h => by rw [h rfl]; rfl⟩
  | cons b rest ih =>
    obtain ⟨ihRepeat, ihLiteral⟩ := ih
    have fresh (m : Mode) : decodeFrom .control (encodeFrom m 0 [] rest) = (rest, .done) := by
      cases m with
      | repeatMode => rw [ihRepeat 0 (by omega)]; cases rest <;> rfl
      | literalMode => exact ihLiteral [] (by simp) fun _ => rfl
    refine ⟨fun n hn => ?_, fun buf hn _ => ?_⟩
    · have run : pendingRun n (b :: rest) ++ b :: rest = List.replicate (n + 1) b ++ rest := by
        rw [List.replicate_succ', List.append_assoc]; rfl
      rw [encodeFrom_repeat, run]
      by_cases hne : Sym.byte b ≠ headSym rest
      · rw [if_pos hne, decodeFrom_repeat_record hn, fresh]
        rfl
      · rw [if_neg hne]
        by_cases hcap : n + 1 = 127
        · obtain rfl : n = 126 := by omega
          rw [if_pos rfl]
          exact (decodeFrom_repeat_record hn b _).trans (by rw [fresh]; rfl)
        · rw [if_neg hcap, ihRepeat (n + 1) (by omega)]
          cases rest with
          | nil => exact absurd (by simp [headSym]) hne
          | cons c rest =>
            obtain rfl : b = c := by simpa [headSym] using hne
            rfl
    · have run : buf ++ b :: rest = (buf ++ [b]) ++ rest := by rw [List.append_assoc]; rfl
      rw [encodeFrom_literal, run]
      by_cases hq : headSym rest = headSym rest.tail
      · rw [if_pos hq, decodeFrom_literal_record hn, fresh]
        rfl
      · rw [if_neg hq]
        by_cases hcap : buf.length + 1 = 127
        · rw [if_pos hcap]
          have hrec := decodeFrom_literal_record hn b (encodeFrom .literalMode 0 [] rest)
          rw [hcap, fresh] at hrec
          exact hrec
        · have hlen : buf.length + 1 = (buf ++ [b]).length := by simp
          rw [if_neg hcap, hlen]
          exact ihLiteral (buf ++ [b]) (by omega) fun h => absurd (by rw [h]; rfl) hq

/-- `Decode` of `Encode` is the input (R123). -/
theorem decodeList_encodeList (input : List Byte) : decodeList (encodeList input) = (input, .done) := by
  obtain ⟨hrepeat, hliteral⟩ := decodeFrom_encodeFrom input
  rw [decodeList, encodeList]
  cases startMode input with
  | repeatMode => rw [hrepeat 0 (by omega)]; cases input <;> rfl
  | literalMode => exact hliteral [] (by simp) fun _ => rfl

/-- Settles O57: on lists by the loops, on the machine by its whole invocation (O56); and the stream `LIT 1, 41`
decodes to one byte, which is encoded as `REP 1, 41`. -/
theorem roundTrip : Obligations.RoundTrip := by
  refine ⟨decodeList_encodeList, fun s input hp hbsrc hbsnk hsrc hsnk => ?_, [0x01, 0x41], by decide, by decide⟩
  obtain ⟨k, t, u, ht, hu, hout, hdone, -⟩ :=
    decoderInvocationDecodes s (encodeList input) hp hbsrc hbsnk hsrc hsnk
  rw [decodeList_encodeList] at hout hdone
  exact ⟨k, t, u, ht, hu, hdone rfl, hout⟩

/-! ### The selection (R110), and what one operation does to the streams. -/

/-- At most one symbol handed over and at most one byte written (R110). -/
structure OneActionEach (p p' : Ports) : Prop where
  read : ∃ xs : List Sym, xs.length ≤ 1 ∧ p'.source.taken = p.source.taken ++ xs
  write : ∃ bs : List Byte, bs.length ≤ 1 ∧ p'.sink.out = p.sink.out ++ bs

theorem oneActionEach_of_same {p p' : Ports} (hs : p'.source.taken = p.source.taken)
    (hk : p'.sink.out = p.sink.out) : OneActionEach p p' :=
  ⟨⟨[], by simp, by simp [hs]⟩, ⟨[], by simp, by simp [hk]⟩⟩

theorem oneActionEach_of_read {p p' : Ports} {x : Sym} (hr : srcRead p = .done x p') : OneActionEach p p' := by
  obtain ⟨hk, -, -, ht⟩ := srcRead_done_frame hr
  exact ⟨⟨[x], by simp, ht⟩, ⟨[], by simp, by simp [hk]⟩⟩

theorem oneActionEach_of_write {p p' : Ports} {b : Byte} (hw : snkWrite b p = .done () p') :
    OneActionEach p p' := by
  obtain ⟨hs, ho⟩ := snkWrite_done_out hw
  exact ⟨⟨[], by simp, by simp [hs]⟩, ⟨[b], by simp, ho⟩⟩

theorem oneActionEach_of_failed_write {p p' : Ports} {k : FaultKind} {b : Byte}
    (hw : snkWrite b p = .raised k p') : OneActionEach p p' := by
  obtain ⟨-, hs, -, -, -, ho⟩ := snkWrite_raised_frame hw
  exact oneActionEach_of_same (by rw [hs]) ho

/-- A read, and then a write that may fail: DEC.LIT.COPY is the one operation with two actions (R115). -/
theorem OneActionEach.read_then {p p₁ p' : Ports} {x : Sym} (hr : srcRead p = .done x p₁)
    (h : OneActionEach p₁ p') (hs : p'.source = p₁.source) : OneActionEach p p' := by
  obtain ⟨-, bs, hb, ho⟩ := h
  rw [srcRead_done_sink hr] at ho
  exact ⟨hs ▸ (oneActionEach_of_read hr).read, bs, hb, ho⟩

theorem DecStep.oneActionEach {d d' : Decoder} {p p' : Ports} (hx : DecStep d p p' d') : OneActionEach p p' := by
  cases hx with
  | reserved _ hr | repeatControl _ hr | literalControl _ hr | ended _ hr | value _ hr | noValue _ hr
  | noPayload _ hr => exact oneActionEach_of_read hr
  | repeated _ hw => exact oneActionEach_of_write hw
  | writeFails _ hw => exact oneActionEach_of_failed_write hw
  | copied _ hr hw =>
    obtain ⟨hs, -⟩ := snkWrite_done_out hw
    exact .read_then hr (oneActionEach_of_write hw) hs
  | copyFails _ hr hw =>
    obtain ⟨-, hs, -⟩ := snkWrite_raised_frame hw
    exact .read_then hr (oneActionEach_of_failed_write hw) hs
  | readFails _ hr =>
    obtain ⟨-, hk, -, -, ht⟩ := srcRead_raised_frame hr
    exact oneActionEach_of_same ht (by rw [hk])

/-- An operation that is selected, and is not DEC.START, is the operation of a running decoder's phase. -/
theorem decoderOp_of_selected {i : Instr} {d : Decoder} {p : Ports} (hi : isDecoderOp i = true)
    (hs : decoderSelected i d p = true) (hn : i ≠ .decStart) :
    decRunning d ∧ decoderOp i d p = decPhaseOp d p := by
  cases i with
  | decStart => exact absurd rfl hn
  | decFetch | decRepVal | decRepOut | decLitCopy =>
    have hp := beq_iff_eq.mp hs
    simp [decRunning, decoderOp, decPhaseOp, hp]
  | _ => cases hi

theorem exec_decoderOp_oneActionEach {i : Instr} {s t : State} (hi : isDecoderOp i = true)
    (hx : exec i s = .next t) : OneActionEach s.decPorts t.decPorts := by
  by_cases hn : i = .decStart
  · subst hn
    obtain ⟨-, -, ⟨k, -, rfl⟩ | ⟨-, -, rfl⟩⟩ := exec_decStart_cases hx <;>
      exact oneActionEach_of_same rfl rfl
  · rw [exec_decoderOp hi, whenSelected_next] at hx
    obtain ⟨hs, -, rfl⟩ := hx
    obtain ⟨hd, hop⟩ := decoderOp_of_selected hi hs hn
    cases hr : decoderOp i s.dec s.decPorts with
    | none => exact oneActionEach_of_same rfl rfl
    | some dp => exact (decStep_of_decPhaseOp hd (hop ▸ hr)).oneActionEach

/-- Settles O9: the selection is read off the phase, and each operation has at most one action of each kind. -/
theorem decoderSelection : Obligations.DecoderSelection := by
  refine ⟨fun i s t hi hx => ?_, fun s => ?_⟩
  · obtain ⟨hread, hwrite⟩ := exec_decoderOp_oneActionEach hi hx
    exact ⟨hread, hwrite⟩
  · rw [selectDecoder_phase]
    refine ⟨?_, ?_, ?_, ?_, ?_, ?_⟩
    case refine_6 => rintro (hp | hp) <;> rw [hp]
    all_goals intro hp; rw [hp]

/-! ### The effect of each operation (R111 to R115). -/

/-- The source after it has handed over `xs`, with `rest` still to answer (R9, R42). -/
def sourceTook (src : Source) (xs : List Sym) (rest : List SrcAnswer) : Source :=
  { src with taken := src.taken ++ xs, answers := rest }

theorem sourceTook_sourceTook (src : Source) (xs ys : List Sym) (r rest : List SrcAnswer) :
    sourceTook (sourceTook src xs r) ys rest = sourceTook src (xs ++ ys) rest := by
  simp [sourceTook]

section
variable {d : Decoder} {p : Ports} {b : Byte} {rest : List SrcAnswer} {more : List SnkAnswer}

theorem snkWrite_fail (ha : p.sink.answers = .fail :: more) :
    snkWrite b p = .raised .sinkWrite { p with sink := { p.sink with answers := more } } := by
  rw [snkWrite, ha]

theorem srcRead_took (ha : p.source.answers = .byte b :: rest) :
    srcRead p = .done (.byte b) { p with source := sourceTook p.source [.byte b] rest } := srcRead_byte ha

theorem decPhaseOp_fetch_control (hp : d.phase = .fetch) (ha : p.source.answers = .byte b :: rest) :
    decPhaseOp d p =
      some (decTakeControl d b, { p with source := sourceTook p.source [.byte b] rest }) := by
  rw [decPhaseOp, hp]
  simp only [decFetchOp, decFetchAct, srcRead_took ha, andThen_done, finish_done]

theorem decPhaseOp_fetch_ended (hp : d.phase = .fetch) (ha : p.source.answers = [])
    (ht : p.source.tail = .ended) :
    decPhaseOp d p = some ({ d with phase := .done },
      { p with source := { p.source with taken := p.source.taken ++ [.eoi] } }) := by
  rw [decPhaseOp, hp]
  simp only [decFetchOp, decFetchAct, srcRead_ended ha ht, andThen_done, finish_done]

theorem decPhaseOp_read_fails (hp : d.phase = .fetch ∨ d.phase = .repv ∨ d.phase = .litc)
    (ha : p.source.answers = .fail :: rest) :
    decPhaseOp d p =
      some (decRaise .sourceRead d, { p with source := { p.source with answers := rest } }) := by
  obtain hp | hp | hp := hp <;> rw [decPhaseOp, hp] <;>
    simp only [decFetchOp, decFetchAct, decRepValOp, decRepValAct, decLitCopyOp, decLitCopyAct, srcRead_fail ha,
      andThen_raised, finish_raised]

theorem decPhaseOp_repv_value (hp : d.phase = .repv) (ha : p.source.answers = .byte b :: rest) :
    decPhaseOp d p =
      some ({ d with val := b, phase := .repw }, { p with source := sourceTook p.source [.byte b] rest }) := by
  rw [decPhaseOp, hp]
  simp only [decRepValOp, decRepValAct, srcRead_took ha, andThen_done, finish_done]

theorem decPhaseOp_repv_ended (hp : d.phase = .repv) (ha : p.source.answers = [])
    (ht : p.source.tail = .ended) :
    decPhaseOp d p = some (decRaise .truncatedRepeat d,
      { p with source := { p.source with taken := p.source.taken ++ [.eoi] } }) := by
  rw [decPhaseOp, hp]
  simp only [decRepValOp, decRepValAct, srcRead_ended ha ht, andThen_done, finish_raised]

theorem decPhaseOp_repw_written (hp : d.phase = .repw) (hk : sinkReady 1 p.sink) :
    decPhaseOp d p = some (decCountDown d, { p with sink := wrote p.sink [d.val] }) := by
  rw [decPhaseOp, hp]
  simp only [decRepOutOp, snkWrite_ready hk, andThen_done, finish_done]

theorem decPhaseOp_repw_fails (hp : d.phase = .repw) (ha : p.sink.answers = .fail :: more) :
    decPhaseOp d p =
      some (decRaise .sinkWrite d, { p with sink := { p.sink with answers := more } }) := by
  rw [decPhaseOp, hp]
  simp only [decRepOutOp, snkWrite_fail ha, andThen_raised, finish_raised]

theorem decPhaseOp_litc_copied (hp : d.phase = .litc) (ha : p.source.answers = .byte b :: rest)
    (hk : sinkReady 1 p.sink) :
    decPhaseOp d p = some (decCountDown d,
      { p with source := sourceTook p.source [.byte b] rest, sink := wrote p.sink [b] }) := by
  have hw := snkWrite_ready (b := b) (p := { p with source := sourceTook p.source [.byte b] rest }) hk
  rw [decPhaseOp, hp]
  simp only [decLitCopyOp, decLitCopyAct, srcRead_took ha, andThen_done, hw, finish_done]

theorem decPhaseOp_litc_fails (hp : d.phase = .litc) (ha : p.source.answers = .byte b :: rest)
    (hk : p.sink.answers = .fail :: more) :
    decPhaseOp d p = some (decRaise .sinkWrite d,
      { p with source := sourceTook p.source [.byte b] rest, sink := { p.sink with answers := more } }) := by
  have hw := snkWrite_fail (b := b) (p := { p with source := sourceTook p.source [.byte b] rest }) hk
  rw [decPhaseOp, hp]
  simp only [decLitCopyOp, decLitCopyAct, srcRead_took ha, andThen_done, hw, andThen_raised, finish_raised]

theorem decPhaseOp_litc_ended (hp : d.phase = .litc) (ha : p.source.answers = [])
    (ht : p.source.tail = .ended) :
    decPhaseOp d p = some (decRaise .truncatedLiteral d,
      { p with source := { p.source with taken := p.source.taken ++ [.eoi] } }) := by
  rw [decPhaseOp, hp]
  simp only [decLitCopyOp, decLitCopyAct, srcRead_ended ha ht, andThen_done, finish_raised]

end

/-- An operation that the phase selects, with a unit to deliver, is the operation of the phase. -/
theorem exec_of_decPhaseOp {i : Instr} {s : State} (hsel : selectDecoder s = some i) (hi : s.dec.phase ≠ .idle)
    (hc : s.dec.phase = .repw ∨ s.dec.phase = .litc → s.dec.cnt ≠ 0) {d' : Decoder} {p' : Ports}
    (hx : decPhaseOp s.dec s.decPorts = some (d', p')) :
    exec i s = .next { s with dec := d', decPorts := p' } := by
  rw [← stepBlock_of_selected (b := .decoder) hsel, stepBlock_decoder hi hc, hx]
  rfl

theorem ctlLen_eq_zero_iff_mask : ∀ c : Byte, ctlLen c = 0 ↔ c &&& 0x7F = 0 := by decide +kernel

/-- The registers after a control byte, by its two fields (R111). -/
theorem decTakeControl_eq (d : Decoder) (c : Byte) :
    decTakeControl d c =
      { d with
        ctl := c
        cnt := (c &&& 0x7F).setWidth 7
        phase := if c &&& 0x7F = 0 then .fault else if c.getLsbD 7 then .repv else .litc
        cause := if c &&& 0x7F = 0 then 3 else d.cause
        subcause := if c &&& 0x7F = 0 then 2 else d.subcause } := by
  have hcnt : (c &&& 0x7F).setWidth 7 = ctlLen c := rfl
  rw [hcnt]
  simp only [← ctlLen_eq_zero_iff_mask, ← ctlMode_eq_repeat]
  obtain ⟨hl, e⟩ | ⟨hl, hm, e⟩ | ⟨hl, hm, e⟩ := decTakeControl_cases d c <;> rw [e]
  · simp only [hl, if_true]
    rfl
  · simp only [hl, hm, if_true, if_false]
  · simp only [hl, hm, if_false, reduceCtorEq]

/-- Settles O24: DEC.START takes the command, and checks the source's binding before the sink's. -/
theorem decStartFetches : Obligations.DecStartFetches := by
  intro s hp hst
  have started {r : Act Decoder} (hr : decStartAct s.dec (startTaken s.decPorts) = r) :
      exec .decStart s = .next (putDecoder s (finish decRaise s.dec r)) := by
    rw [exec_decoderOp rfl, whenSelected_next]
    exact ⟨by simp [decoderSelected, decStartSelected, hp, hst], rfl, by rw [← hr]; rfl⟩
  refine ⟨fun h => started (r := .raised .sourceAbsent _) (if_pos h),
    fun h h' => started (r := .raised .sinkAbsent _) ?_, fun h h' => started (r := .done _ _) ?_⟩
  · exact (if_neg (by simp [h])).trans (if_pos h')
  · exact (if_neg (by simp [h])).trans (if_neg (by simp [h']))

/-- Settles O25: by the answer to the one read, a control byte by its two fields. -/
theorem decFetchParsesControl : Obligations.DecFetchParsesControl := by
  intro s hp
  have sel : selectDecoder s = some .decFetch := by rw [selectDecoder_phase, hp]
  have run {d' p'} := exec_of_decPhaseOp (d' := d') (p' := p') sel (by simp [hp]) (by simp [hp])
  refine ⟨fun c rest ha => ?_, fun ha ht => run (decPhaseOp_fetch_ended hp ha ht),
    fun rest ha => run (decPhaseOp_read_fails (.inl hp) ha)⟩
  rw [run (decPhaseOp_fetch_control hp ha), decTakeControl_eq]
  rfl

/-- Settles O26: by the answer to the one read. -/
theorem decRepValReadsValue : Obligations.DecRepValReadsValue := by
  intro s hp
  have sel : selectDecoder s = some .decRepVal := by rw [selectDecoder_phase, hp]
  have run {d' p'} := exec_of_decPhaseOp (d' := d') (p' := p') sel (by simp [hp]) (by simp [hp])
  exact ⟨fun v rest ha => run (decPhaseOp_repv_value hp ha), fun ha ht => run (decPhaseOp_repv_ended hp ha ht),
    fun rest ha => run (decPhaseOp_read_fails (.inr (.inl hp)) ha)⟩

theorem decCountDown_eq {d : Decoder} {ph : DecPhase} (hp : d.phase = ph) :
    decCountDown d = { d with cnt := d.cnt - 1, phase := if d.cnt - 1 = 0 then .fetch else ph } := by
  rw [decCountDown, hp]

/-- Settles O27: by the answer to the one write. -/
theorem decRepOutWritesValue : Obligations.DecRepOutWritesValue := by
  intro s hp hc
  have sel : selectDecoder s = some .decRepOut := by rw [selectDecoder_phase, hp]
  have run {d' p'} := exec_of_decPhaseOp (d' := d') (p' := p') sel (by simp [hp]) fun _ => hc
  refine ⟨fun hk => ?_, fun rest ha => run (decPhaseOp_repw_fails hp ha)⟩
  rw [run (decPhaseOp_repw_written hp hk), decCountDown_eq hp]

/-- Settles O28: by the answers to the read and to the write. -/
theorem decLitCopyCopies : Obligations.DecLitCopyCopies := by
  intro s hp hc
  have sel : selectDecoder s = some .decLitCopy := by rw [selectDecoder_phase, hp]
  have run {d' p'} := exec_of_decPhaseOp (d' := d') (p' := p') sel (by simp [hp]) fun _ => hc
  refine ⟨fun b rest ha hk => ?_, fun b rest more ha hk => run (decPhaseOp_litc_fails hp ha hk),
    fun ha ht => run (decPhaseOp_litc_ended hp ha ht),
    fun rest ha => run (decPhaseOp_read_fails (.inr (.inr hp)) ha)⟩
  rw [run (decPhaseOp_litc_copied hp ha hk), decCountDown_eq hp]
  rfl

/-! ### The records, from the answers of the ports (R116 to R118). -/

/-- At a record boundary the next record is the one at the front of the bytes still to come, whatever failures stand
between them (R7, R46). -/
theorem nextRecord_of_upcoming {s : State} {bs rest : List Byte} {i : Instr} (hp : s.dec.phase = .fetch)
    (hu : upcoming s.decPorts.source = bs) (hd : decode bs = .ok (i, rest)) : nextRecord s = some i := by
  simp only [nextRecord, hp, hu, hd]

/-- A reserved byte is its own record, of the one operation DEC.FETCH (R118). -/
theorem exec_reserved {s : State} {i : Instr} {c : Byte} {rest : List SrcAnswer} (hp : s.dec.phase = .fetch)
    (ha : s.decPorts.source.answers = .byte c :: rest) (hl : ctlLen c = 0)
    (hd : ∀ bs, decode (c :: bs) = .ok (i, bs)) (hk : recordSteps i = 1) :
    exec i s = exec .decFetch s ∧
      exec .decFetch s = .next { s with
        dec := decRaise .reservedLength { s.dec with ctl := c, cnt := 0 }
        decPorts := { s.decPorts with source := sourceTook s.decPorts.source [.byte c] rest } } := by
  have sel : selectDecoder s = some .decFetch := by rw [selectDecoder_phase, hp]
  have ctl : decTakeControl s.dec c = decRaise .reservedLength { s.dec with ctl := c, cnt := ctlLen c } := if_pos hl
  have hu : upcoming s.decPorts.source = c :: rest.filterMap answerByte := by
    simp [upcoming, ha, answerByte]
  have fetched := exec_of_decPhaseOp sel (by simp [hp]) (by simp [hp]) (decPhaseOp_fetch_control hp ha)
  rw [ctl, hl] at fetched
  refine ⟨?_, fetched⟩
  rw [recordIsItsOperations s i (nextRecord_of_upcoming hp hu (hd _)), hk,
    runTurns_succ 0 ((stepBlock_of_selected (by exact sel)).trans fetched), fetched]
  rfl

/-- Settles O29: both reserved bytes have length 0. -/
theorem reservedControlByteFaults : Obligations.ReservedControlByteFaults := by
  intro s rest hp
  refine ⟨fun ha => ?_, fun ha => ?_⟩
  · obtain ⟨e, fetched⟩ := exec_reserved hp ha rfl decode_lit0 rfl
    exact ⟨e.trans fetched, fetched⟩
  · obtain ⟨e, fetched⟩ := exec_reserved hp ha rfl decode_rep0 rfl
    exact ⟨e.trans fetched, fetched⟩

/-! ### Runs of deliveries: the payload units of a record, one operation each (R114, R115). -/

@[simp] theorem wrote_nil (snk : Sink) : wrote snk [] = snk := by simp [wrote]

@[simp] theorem wrote_wrote (snk : Sink) (as bs : List Byte) : wrote (wrote snk as) bs = wrote snk (as ++ bs) := by
  simp [wrote]

theorem sinkReady_of_add {j k : Nat} {snk : Sink} (h : sinkReady (j + k) snk) : sinkReady j snk := by
  obtain ⟨h₁, h₂⟩ := h
  exact ⟨fun hm => h₁ (List.take_subset_take_left _ (Nat.le_add_right j k) hm), h₂.imp_left (by omega)⟩

/-- A sink that accepts `j + k` writes accepts `k` more after the first `j`. -/
theorem sinkReady_wrote_of_add {k : Nat} {snk : Sink} {bs : List Byte} (h : sinkReady (bs.length + k) snk) :
    sinkReady k (wrote snk bs) := by
  obtain ⟨h₁, h₂⟩ := h
  rw [List.take_add, List.mem_append, not_or] at h₁
  refine ⟨h₁.2, h₂.imp_left fun hl => ?_⟩
  simp only [wrote, List.length_drop]
  omega

theorem sinkReady_of_failsAt {j : Nat} {snk : Sink} (h : sinkFailsAt j snk) : sinkReady j snk := by
  obtain ⟨h₁, h₂⟩ := h
  obtain ⟨hj, -⟩ := List.getElem?_eq_some_iff.mp h₂
  exact ⟨h₁, .inl (Nat.le_of_lt hj)⟩

/-- After the `j` writes it accepts, such a sink fails the next one (R46). -/
theorem answers_wrote_of_failsAt {snk : Sink} {bs : List Byte} (h : sinkFailsAt bs.length snk) :
    (wrote snk bs).answers = .fail :: snk.answers.drop (bs.length + 1) := by
  obtain ⟨-, h₂⟩ := h
  obtain ⟨hj, e⟩ := List.getElem?_eq_some_iff.mp h₂
  rw [wrote, List.drop_eq_getElem_cons hj, e]

theorem decRun_of_fault {d : Decoder} (hp : d.phase = .fault) (k : Nat) (p : Ports) : decRun k d p = (d, p) := by
  induction k with
  | zero => rfl
  | succ k ih => rw [decRun, decPhaseOp_of_not_running (by simp [decRunning, hp])]; exact ih

theorem decRun_of_waits {d : Decoder} {p : Ports} (h : decPhaseOp d p = none) (k : Nat) : decRun k d p = (d, p) := by
  cases k with
  | zero => rfl
  | succ k => rw [decRun, h]

theorem decRun_succ {k : Nat} {d d' : Decoder} {p p' : Ports} (h : decPhaseOp d p = some (d', p')) :
    decRun (k + 1) d p = decRun k d' p' := by
  rw [decRun, h]

/-- A run is cut where one likes. -/
theorem decRun_add (j k : Nat) (d : Decoder) (p : Ports) :
    decRun (j + k) d p = decRun k (decRun j d p).1 (decRun j d p).2 := by
  induction j generalizing d p with
  | zero => rw [Nat.zero_add]; rfl
  | succ j ih =>
    cases h : decPhaseOp d p with
    | none => rw [decRun_of_waits h, decRun_of_waits h, decRun_of_waits h]
    | some dp => rw [Nat.succ_add, decRun_succ h, decRun_succ h, ih]

/-- A run that meets a fault ends there, whatever length it has. -/
theorem decRun_faults {j k : Nat} {d d₁ : Decoder} {p p₁ p₂ : Ports} {f : FaultKind}
    (hrun : decRun j d p = (d₁, p₁)) (hop : decPhaseOp d₁ p₁ = some (decRaise f d₁, p₂)) (hk : j < k) :
    decRun k d p = (decRaise f d₁, p₂) := by
  obtain ⟨m, rfl⟩ : ∃ m, k = j + (m + 1) := ⟨k - j - 1, by omega⟩
  rw [decRun_add, hrun, decRun_succ hop, decRun_of_fault rfl]

/-- The registers after `j` payload units have been delivered: at the last one the record has ended. -/
def decDelivered (j : Nat) (d : Decoder) : Decoder :=
  { d with
    cnt := d.cnt - BitVec.ofNat 7 j
    phase := if j = d.cnt.toNat then .fetch else d.phase }

section
variable {d : Decoder} {j : Nat}

theorem decDelivered_zero (hc : d.cnt ≠ 0) : decDelivered 0 d = d := by
  have hcnt : d.cnt - BitVec.ofNat 7 0 = d.cnt := BitVec.sub_zero _
  rw [decDelivered, if_neg (len_toNat_ne_zero hc).symm, hcnt]

theorem decDelivered_phase (hj : j < d.cnt.toNat) : (decDelivered j d).phase = d.phase := if_neg (Nat.ne_of_lt hj)

theorem decDelivered_succ (hj : j < d.cnt.toNat) : decCountDown (decDelivered j d) = decDelivered (j + 1) d := by
  have hcnt : d.cnt - BitVec.ofNat 7 j - 1 = d.cnt - BitVec.ofNat 7 (j + 1) := by bv_omega
  have hlast : d.cnt - BitVec.ofNat 7 (j + 1) = 0 ↔ j + 1 = d.cnt.toNat := by bv_omega
  have hph := decDelivered_phase hj
  rw [decCountDown, hph]
  simp only [decDelivered, hcnt, hlast]

/-- Deliveries of which each is one operation, on the ports that the one before left. -/
theorem decRun_delivers (hc : d.cnt ≠ 0) (ports : Nat → Ports) (hj : j ≤ d.cnt.toNat)
    (h : ∀ i < j, decPhaseOp (decDelivered i d) (ports i) =
      some (decCountDown (decDelivered i d), ports (i + 1))) :
    decRun j d (ports 0) = (decDelivered j d, ports j) := by
  induction j with
  | zero => rw [decDelivered_zero hc]; rfl
  | succ j ih =>
    rw [decRun_add, ih (by omega) fun i hi => h i (by omega), decRun_succ (h j (by omega)),
      decDelivered_succ (by omega)]
    rfl

/-- `j` copies of the value, over a sink that accepts them (R114). -/
theorem decRun_repw {p : Ports} (hp : d.phase = .repw) (hc : d.cnt ≠ 0) (hj : j ≤ d.cnt.toNat)
    (hk : sinkReady j p.sink) :
    decRun j d p = (decDelivered j d, { p with sink := wrote p.sink (List.replicate j d.val) }) := by
  have run := decRun_delivers hc (fun i => { p with sink := wrote p.sink (List.replicate i d.val) }) hj
    fun i hi => ?_
  · simpa using run
  · have ready : sinkReady 1 (wrote p.sink (List.replicate i d.val)) := by
      obtain ⟨m, rfl⟩ : ∃ m, j = i + 1 + m := ⟨j - (i + 1), by omega⟩
      exact sinkReady_wrote_of_add (by rw [List.length_replicate]; exact sinkReady_of_add hk)
    rw [decPhaseOp_repw_written ((decDelivered_phase (by omega)).trans hp) ready, wrote_wrote,
      List.replicate_succ']
    rfl

/-- The ports after the first `i` bytes of a payload have been copied, with `rest` behind the payload. -/
def portsCopied (p : Ports) (bs : List Byte) (rest : List SrcAnswer) (i : Nat) : Ports :=
  { p with
    source := sourceTook p.source ((bs.take i).map .byte) ((bs.drop i).map .byte ++ rest)
    sink := wrote p.sink (bs.take i) }

/-- A payload, or the front of one, copied over a sink that accepts it (R115). -/
theorem decRun_litc {p : Ports} {bs : List Byte} {rest : List SrcAnswer} (hp : d.phase = .litc) (hc : d.cnt ≠ 0)
    (hj : bs.length ≤ d.cnt.toNat) (ha : p.source.answers = bs.map .byte ++ rest)
    (hk : sinkReady bs.length p.sink) :
    decRun bs.length d p = (decDelivered bs.length d,
      { p with source := sourceTook p.source (bs.map .byte) rest, sink := wrote p.sink bs }) := by
  have start : portsCopied p bs rest 0 = p := by
    simp [portsCopied, sourceTook, ← ha]
  have run := decRun_delivers hc (portsCopied p bs rest) hj fun i hi => ?_
  · rw [start] at run
    simpa [portsCopied] using run
  · have hlen : (bs.take i).length = i := by rw [List.length_take]; omega
    have ready : sinkReady 1 (wrote p.sink (bs.take i)) := by
      obtain ⟨m, hm⟩ : ∃ m, bs.length = i + 1 + m := ⟨bs.length - (i + 1), by omega⟩
      exact sinkReady_wrote_of_add (by rw [hlen]; exact sinkReady_of_add (hm ▸ hk))
    have next : (portsCopied p bs rest i).source.answers =
        .byte bs[i] :: ((bs.drop (i + 1)).map .byte ++ rest) := by
      rw [portsCopied, sourceTook, List.drop_eq_getElem_cons hi]
      rfl
    rw [decPhaseOp_litc_copied ((decDelivered_phase (by omega)).trans hp) next ready]
    rw [portsCopied, sourceTook_sourceTook, wrote_wrote, portsCopied, List.take_succ_eq_append_getElem hi,
      List.map_append]
    rfl

end

/-! ### The effect of a whole record (R116, R117). -/

/-- Executing the record that is next is the run of its operations. -/
theorem exec_nextRecord {s : State} {i : Instr} (h : nextRecord s = some i) {k : Nat} (hk : recordSteps i = k)
    {d' : Decoder} {p' : Ports} (hrun : decRun k s.dec s.decPorts = (d', p')) :
    exec i s = .next { s with dec := d', decPorts := p' } := by
  rw [recordIsItsOperations s i h, runTurns_decoder _ (decStarted_of_fetch (nextRecord_fetch h)), hk, hrun]
  rfl

/-- So many turns of a decoder in FETCH are the run of its operations. -/
theorem runTurns_of_fetch {s : State} (hp : s.dec.phase = .fetch) {k : Nat} {d' : Decoder} {p' : Ports}
    (hrun : decRun k s.dec s.decPorts = (d', p')) :
    runTurns .decoder k s = .next { s with dec := d', decPorts := p' } := by
  rw [runTurns_decoder _ (decStarted_of_fetch hp), hrun]
  rfl

/-- After all payload units the count is 0 and the decoder at a record boundary. -/
theorem decDelivered_all {d : Decoder} {n : Len} (h : d.cnt = n) :
    decDelivered n.toNat d = { d with cnt := 0, phase := .fetch } := by
  have hcnt : n - BitVec.ofNat 7 n.toNat = 0 := by bv_omega
  rw [decDelivered, h, if_pos rfl, hcnt]

/-- A read that fails at a record boundary (R46). -/
theorem decRun_control_fails {d : Decoder} {p : Ports} {rest : List SrcAnswer} (hp : d.phase = .fetch)
    (ha : p.source.answers = .fail :: rest) (k : Nat) :
    decRun (k + 1) d p =
      (decRaise .sourceRead d, { p with source := { p.source with answers := rest } }) :=
  decRun_faults (j := 0) rfl (decPhaseOp_read_fails (.inl hp) ha) (Nat.succ_pos k)

/-! #### REP n, v (R116). -/

section
variable {d : Decoder} {p : Ports} {c v : Byte} {n : Len} {rest : List SrcAnswer}

/-- The control byte of a Repeat record. -/
theorem decRun_repeat_control (hp : d.phase = .fetch) (hl : ctlLen c = n) (hn : n ≠ 0)
    (hm : ctlMode c = .repeatMode) (ha : p.source.answers = .byte c :: rest) :
    decRun 1 d p = ({ d with ctl := c, cnt := n, phase := .repv },
      { p with source := sourceTook p.source [.byte c] rest }) := by
  have ctl : decTakeControl d c = { d with ctl := c, cnt := n, phase := .repv } := by
    rw [decTakeControl, hl, if_neg hn, hm]
  rw [decRun_succ (decPhaseOp_fetch_control hp ha), ctl]
  rfl

/-- The control byte and `j` copies of the value, which the sink accepts. -/
theorem decRun_repeat_copies {j : Nat} (hp : d.phase = .fetch) (hl : ctlLen c = n) (hn : n ≠ 0)
    (hm : ctlMode c = .repeatMode) (ha : p.source.answers = .byte c :: .byte v :: rest) (hj : j ≤ n.toNat)
    (hk : sinkReady j p.sink) :
    decRun (1 + (1 + j)) d p =
      (decDelivered j { d with ctl := c, cnt := n, val := v, phase := .repw },
        { p with
          source := sourceTook p.source [.byte c, .byte v] rest
          sink := wrote p.sink (List.replicate j v) }) := by
  rw [decRun_add, decRun_repeat_control hp hl hn hm ha, Nat.add_comm 1 j,
    decRun_succ (decPhaseOp_repv_value rfl rfl), sourceTook_sourceTook]
  exact decRun_repw rfl hn hj hk

/-- A write that fails after `j` copies. -/
theorem decRun_repeat_write_fails {j k : Nat} (hp : d.phase = .fetch) (hl : ctlLen c = n) (hn : n ≠ 0)
    (hm : ctlMode c = .repeatMode) (ha : p.source.answers = .byte c :: .byte v :: rest) (hj : j < n.toNat)
    (hk : sinkFailsAt j p.sink) (hlt : 1 + (1 + j) < k) :
    decRun k d p =
      (decRaise .sinkWrite { d with ctl := c, val := v, cnt := n - BitVec.ofNat 7 j },
        { p with
          source := sourceTook p.source [.byte c, .byte v] rest
          sink := wroteThenFailed p.sink (List.replicate n.toNat v) j }) := by
  have front : (List.replicate n.toNat v).take j = List.replicate j v := by
    rw [List.take_replicate, Nat.min_eq_left (Nat.le_of_lt hj)]
  have hfail := answers_wrote_of_failsAt (bs := List.replicate j v) (by rwa [List.length_replicate])
  rw [List.length_replicate] at hfail
  have run := decRun_faults (decRun_repeat_copies hp hl hn hm ha (Nat.le_of_lt hj) (sinkReady_of_failsAt hk))
    (decPhaseOp_repw_fails (decDelivered_phase hj) hfail) hlt
  rw [wroteThenFailed, front]
  exact run

/-- A read of the value that fails. -/
theorem decRun_repeat_value_fails {k : Nat} (hp : d.phase = .fetch) (hl : ctlLen c = n) (hn : n ≠ 0)
    (hm : ctlMode c = .repeatMode) (ha : p.source.answers = .byte c :: .fail :: rest) (hlt : 1 < k) :
    decRun k d p =
      (decRaise .sourceRead { d with ctl := c, cnt := n },
        { p with source := sourceTook p.source [.byte c] rest }) := by
  have run := decRun_faults (decRun_repeat_control hp hl hn hm ha) (decPhaseOp_read_fails (.inr (.inl rfl)) rfl)
    hlt
  exact run

/-- A stream that ends after the control byte. -/
theorem decRun_repeat_truncated (hp : d.phase = .fetch) (hl : ctlLen c = n) (hn : n ≠ 0)
    (hm : ctlMode c = .repeatMode) (ha : p.source.answers = [.byte c]) (ht : p.source.tail = .ended) :
    decRun 2 d p =
      (decRaise .truncatedRepeat { d with ctl := c, cnt := n },
        { p with source := sourceTook p.source [.byte c, .eoi] [] }) := by
  refine (decRun_faults (decRun_repeat_control hp hl hn hm ha) (decPhaseOp_repv_ended rfl rfl ht)
    (Nat.lt_succ_self 1)).trans ?_
  simp [sourceTook, decRaise]

end

/-- Settles O30: the record is the run of its operations, and the run ends at the first failure. -/
theorem repeatRecordEffect : Obligations.RepeatRecordEffect := by
  intro s n v hp hn
  have hc : 0x80 ||| n.setWidth 8 = packCtl .repeatMode n := (packCtl_repeat n).symm
  rw [hc]
  have hl := ctlLen_packCtl .repeatMode n
  have hm := ctlMode_packCtl .repeatMode n
  intro c src after
  have next {bs : List Byte} (hu : upcoming src = c :: v :: bs) : nextRecord s = some (.rep n v) :=
    nextRecord_of_upcoming hp hu (decode_encode_rep hn v bs)
  refine ⟨fun rest ha => ?_, fun rest ha => ?_, fun rest ha => ?_, fun ha ht => ?_⟩
  · have hnext := next (bs := rest.filterMap answerByte) (by rw [upcoming, ha]; rfl)
    refine ⟨(recordIsItsOperations s _ hnext).symm, fun hk => ?_, fun j hj hk => ?_⟩
    · refine (exec_nextRecord hnext (by simp only [recordSteps]; omega)
        (decRun_repeat_copies hp hl hn hm ha (Nat.le_refl _) hk)).trans ?_
      rw [decDelivered_all (by rfl)]
      rfl
    · exact exec_nextRecord hnext rfl
        (decRun_repeat_write_fails hp hl hn hm ha hj hk (by simp only [recordSteps]; omega))
  · have hnext := next (bs := rest.filterMap answerByte) (by rw [upcoming, ha]; rfl)
    exact exec_nextRecord hnext rfl (decRun_control_fails hp ha _)
  · have hnext := next (bs := rest.filterMap answerByte) (by rw [upcoming, ha]; rfl)
    exact exec_nextRecord hnext rfl
      (decRun_repeat_value_fails hp hl hn hm ha (by simp only [recordSteps]; omega))
  · exact runTurns_of_fetch hp (decRun_repeat_truncated hp hl hn hm ha ht)

/-! #### LIT n, b1 ... bn (R117). -/

/-- The bytes among answers of which the front are all bytes. -/
theorem filterMap_answerByte_append (bs : List Byte) (rest : List SrcAnswer) :
    (bs.map SrcAnswer.byte ++ rest).filterMap answerByte = bs ++ rest.filterMap answerByte := by
  rw [List.filterMap_append, List.filterMap_map]
  exact congrArg (· ++ _) List.filterMap_some

/-- A failure among the bytes stands for none of them (R46). -/
theorem filterMap_answerByte_interrupted (bs : List Byte) (j : Nat) (rest : List SrcAnswer) :
    ((bs.take j).map SrcAnswer.byte ++
        SrcAnswer.fail :: ((bs.drop j).map SrcAnswer.byte ++ rest)).filterMap answerByte =
      bs ++ rest.filterMap answerByte := by
  have failure (l : List SrcAnswer) : (SrcAnswer.fail :: l).filterMap answerByte = l.filterMap answerByte := rfl
  rw [filterMap_answerByte_append, failure, filterMap_answerByte_append, ← List.append_assoc,
    List.take_append_drop]

section
variable {d : Decoder} {p : Ports} {c : Byte} {n : Len} {bs : List Byte} {rest : List SrcAnswer}

/-- The control byte of a Literal record. -/
theorem decRun_literal_control (hp : d.phase = .fetch) (hl : ctlLen c = n) (hn : n ≠ 0)
    (hm : ctlMode c = .literalMode) (ha : p.source.answers = .byte c :: rest) :
    decRun 1 d p = ({ d with ctl := c, cnt := n, phase := .litc },
      { p with source := sourceTook p.source [.byte c] rest }) := by
  have ctl : decTakeControl d c = { d with ctl := c, cnt := n, phase := .litc } := by
    rw [decTakeControl, hl, if_neg hn, hm]
  rw [decRun_succ (decPhaseOp_fetch_control hp ha), ctl]
  rfl

/-- The control byte and the payload, or the front of it, which the sink accepts. -/
theorem decRun_literal_copies {j : Nat} (hp : d.phase = .fetch) (hl : ctlLen c = n) (hn : n ≠ 0)
    (hm : ctlMode c = .literalMode) (ha : p.source.answers = .byte c :: (bs.map .byte ++ rest))
    (hlen : bs.length = j) (hj : j ≤ n.toNat) (hk : sinkReady j p.sink) :
    decRun (1 + j) d p =
      (decDelivered j { d with ctl := c, cnt := n, phase := .litc },
        { p with
          source := sourceTook p.source (.byte c :: bs.map .byte) rest
          sink := wrote p.sink bs }) := by
  subst hlen
  have payload := decRun_litc (d := { d with ctl := c, cnt := n, phase := .litc })
    (p := { p with source := sourceTook p.source [.byte c] (bs.map .byte ++ rest) }) rfl hn hj rfl hk
  rw [sourceTook_sourceTook] at payload
  rw [decRun_add, decRun_literal_control hp hl hn hm ha]
  exact payload

/-- A write that fails at the byte after the first `j`: that byte is lost. -/
theorem decRun_literal_write_fails {j k : Nat} (hp : d.phase = .fetch) (hl : ctlLen c = n) (hn : n ≠ 0)
    (hm : ctlMode c = .literalMode) (ha : p.source.answers = .byte c :: (bs.map .byte ++ rest))
    (hlen : bs.length = n.toNat) (hj : j < n.toNat) (hk : sinkFailsAt j p.sink) (hlt : 1 + j < k) :
    decRun k d p =
      (decRaise .sinkWrite { d with ctl := c, cnt := n - BitVec.ofNat 7 j },
        { p with
          source :=
            sourceTook p.source (.byte c :: (bs.take (j + 1)).map .byte) ((bs.drop (j + 1)).map .byte ++ rest)
          sink := wroteThenFailed p.sink bs j }) := by
  have hjb : j < bs.length := hlen ▸ hj
  have hfront : (bs.take j).length = j := List.length_take_of_le (Nat.le_of_lt hjb)
  have split : bs.map SrcAnswer.byte ++ rest = (bs.take j).map .byte ++
      (.byte bs[j] :: ((bs.drop (j + 1)).map .byte ++ rest)) := by
    rw [← List.cons_append, ← List.map_cons, ← List.drop_eq_getElem_cons hjb, ← List.append_assoc,
      ← List.map_append, List.take_append_drop]
  have hfail := answers_wrote_of_failsAt (bs := bs.take j) (by rwa [hfront])
  rw [hfront] at hfail
  have copies := decRun_literal_copies hp hl hn hm (split ▸ ha) hfront (Nat.le_of_lt hj) (sinkReady_of_failsAt hk)
  have run := decRun_faults copies (decPhaseOp_litc_fails (decDelivered_phase hj) rfl hfail) hlt
  rw [sourceTook_sourceTook] at run
  rw [List.take_succ_eq_append_getElem hjb, List.map_append]
  exact run

/-- A read that fails after `j` payload bytes. -/
theorem decRun_literal_read_fails {j k : Nat} (hp : d.phase = .fetch) (hl : ctlLen c = n) (hn : n ≠ 0)
    (hm : ctlMode c = .literalMode) (ha : p.source.answers = .byte c :: (bs.map .byte ++ .fail :: rest))
    (hlen : bs.length = j) (hj : j < n.toNat) (hk : sinkReady j p.sink) (hlt : 1 + j < k) :
    decRun k d p =
      (decRaise .sourceRead { d with ctl := c, cnt := n - BitVec.ofNat 7 j },
        { p with
          source := sourceTook p.source (.byte c :: bs.map .byte) rest
          sink := wrote p.sink bs }) := by
  have run := decRun_faults (decRun_literal_copies hp hl hn hm ha hlen (Nat.le_of_lt hj) hk)
    (decPhaseOp_read_fails (.inr (.inr (decDelivered_phase hj))) rfl) hlt
  exact run

/-- A stream that ends after `j` payload bytes. -/
theorem decRun_literal_truncated {j : Nat} (hp : d.phase = .fetch) (hl : ctlLen c = n) (hn : n ≠ 0)
    (hm : ctlMode c = .literalMode) (ha : p.source.answers = .byte c :: bs.map .byte)
    (ht : p.source.tail = .ended) (hlen : bs.length = j) (hj : j < n.toNat) (hk : sinkReady j p.sink) :
    decRun (j + 2) d p =
      (decRaise .truncatedLiteral { d with ctl := c, cnt := n - BitVec.ofNat 7 j },
        { p with
          source := sourceTook (sourceTook p.source (.byte c :: bs.map .byte) []) [.eoi] []
          sink := wrote p.sink bs }) := by
  have run := decRun_faults (k := j + 2)
    (decRun_literal_copies (rest := []) hp hl hn hm (by rw [List.append_nil]; exact ha) hlen (Nat.le_of_lt hj) hk)
    (decPhaseOp_litc_ended (decDelivered_phase hj) rfl (by exact ht)) (by omega)
  exact run

end

/-- Settles O31: the record is the run of its operations, and the run ends at the first failure. -/
theorem literalRecordEffect : Obligations.LiteralRecordEffect := by
  intro s n bs hp hn hlen
  have hc : n.setWidth 8 = packCtl .literalMode n := (packCtl_literal n).symm
  rw [hc]
  have hl := ctlLen_packCtl .literalMode n
  have hm := ctlMode_packCtl .literalMode n
  intro c src after took
  have next {tl : List Byte} (hu : upcoming src = c :: (bs ++ tl)) : nextRecord s = some (.lit n bs) :=
    nextRecord_of_upcoming hp hu (decode_encode_lit hn hlen tl)
  have front {j : Nat} (hj : j < n.toNat) : (bs.take j).length = j :=
    List.length_take_of_le (hlen ▸ Nat.le_of_lt hj)
  refine ⟨fun rest ha => ?_, fun rest ha => ?_, fun j rest hj hk ha => ?_, fun j hj hk ha ht => ?_⟩
  · have hnext := next (tl := rest.filterMap answerByte)
      (by rw [upcoming, ha, ← filterMap_answerByte_append]; rfl)
    refine ⟨(recordIsItsOperations s _ hnext).symm, fun hk => ?_, fun j hj hk => ?_⟩
    · refine (exec_nextRecord hnext (Nat.add_comm _ 1)
        (decRun_literal_copies hp hl hn hm ha hlen (Nat.le_refl _) hk)).trans ?_
      have all : took n.toNat = .byte c :: bs.map .byte := by
        simp only [took, ← hlen, List.take_length]
      rw [decDelivered_all (by rfl), all]
      rfl
    · exact exec_nextRecord hnext rfl
        (decRun_literal_write_fails hp hl hn hm ha hlen hj hk (by simp only [recordSteps]; omega))
  · have hnext := next (tl := rest.filterMap answerByte)
      (by rw [upcoming, ha, ← filterMap_answerByte_append]; rfl)
    exact exec_nextRecord hnext rfl (decRun_control_fails hp ha _)
  · have hnext := next (tl := rest.filterMap answerByte)
      (by rw [upcoming, ha, ← filterMap_answerByte_interrupted bs j]; rfl)
    exact exec_nextRecord hnext rfl
      (decRun_literal_read_fails hp hl hn hm ha (front hj) hj hk (by simp only [recordSteps]; omega))
  · exact runTurns_of_fetch hp (decRun_literal_truncated hp hl hn hm ha ht (front hj) hj hk)

end Sys2Proof.Machine

/-! PROOFS, family 60_exceptions: DONE and FAULT are absorbing, and what the encoder can raise. -/

namespace Sys2Proof.Machine

/-! ### Blocks in DONE or FAULT (R143, R164). -/

/-- The block is in DONE or FAULT. -/
def AtRest (c : Block) (s : State) : Prop :=
  match c with
  | .encoder => s.enc.phase = .done ∨ s.enc.phase = .fault
  | .decoder => s.dec.phase = .done ∨ s.dec.phase = .fault

/-- The registers of the block are the same in both states. -/
def SameRegisters (c : Block) (s t : State) : Prop :=
  match c with
  | .encoder => t.enc = s.enc
  | .decoder => t.dec = s.dec

theorem SameRegisters.refl (c : Block) (s : State) : SameRegisters c s s := by cases c <;> rfl

/-- An operation of the encoder leaves the decoder's registers. -/
theorem exec_encoderOp_dec {i : Instr} {s t : State} (hi : isEncoderOp i = true) (hx : exec i s = .next t) :
    t.dec = s.dec :=
  (encoderOperationsFrame i s t hi hx).1

/-- What the decoder executes leaves the encoder's registers. -/
theorem exec_decoderInstr_enc {i : Instr} {s t : State} (hi : isDecoderInstr i = true)
    (hx : exec i s = .next t) : t.enc = s.enc :=
  (decoderInstructionsFrame i s t hi hx).1

theorem select_of_atRest {c : Block} {s : State} (h : AtRest c s) : select c s = none := by
  cases c with
  | encoder => rcases h with h | h <;> simp only [select, selectEncoder, h]
  | decoder => rcases h with h | h <;> simp only [select, selectDecoder_phase, h]

/-- A turn of a block at rest is a wait. -/
theorem stepBlock_of_atRest {c : Block} {s : State} (h : AtRest c s) : stepBlock c s = .next s :=
  stepBlock_of_none (select_of_atRest h)

/-- A turn of either block leaves the registers of a block at rest. -/
theorem stepBlock_sameRegisters {b c : Block} {s t : State} (h : AtRest c s) (hx : stepBlock b s = .next t) :
    SameRegisters c s t := by
  by_cases hbc : b = c
  · subst hbc
    rw [stepBlock_of_atRest h] at hx
    cases hx
    exact .refl b s
  · cases b with
    | encoder =>
      obtain ⟨r, rfl, -⟩ := stepBlock_encoder_result rfl rfl hx
      cases c with
      | encoder => exact absurd rfl hbc
      | decoder => exact putEncoder_dec s r
    | decoder =>
      obtain ⟨r, rfl, -⟩ := stepBlock_decoder_result rfl rfl hx
      cases c with
      | encoder => exact putDecoder_enc s r
      | decoder => exact absurd rfl hbc

/-- A record is fetched in FETCH alone, so the event `record` moves no decoder at rest. -/
theorem stepRecord_sameRegisters {c : Block} {s t : State} (h : AtRest c s) (hx : stepRecord s = .next t) :
    SameRegisters c s t := by
  cases hr : nextRecord s with
  | none => exact stepBlock_sameRegisters h ((stepRecord_of_none hr).symm.trans hx)
  | some i =>
    cases c with
    | encoder =>
      have hi : isDecoderInstr i = true := by rw [isDecoderInstr, nextRecord_isRecord hr, Bool.or_true]
      exact exec_decoderInstr_enc hi ((stepRecord_of_record hr).symm.trans hx)
    | decoder => simp [AtRest, nextRecord_fetch hr] at h

/-- The host's `start` begins an operation in IDLE alone, so it moves no block at rest. -/
theorem exec_start_sameRegisters {b c : Block} {s t : State} (h : AtRest c s)
    (hx : exec (.start b) s = .next t) : SameRegisters c s t := by
  obtain e | ⟨-, hp, e⟩ | ⟨-, hp, e⟩ := exec_start_cases b s <;> rw [e] at hx
  · cases hx
    exact .refl c s
  · cases c with
    | encoder => simp [AtRest, hp] at h
    | decoder =>
      have hd := exec_encoderOp_dec rfl hx
      exact hd
  · cases c with
    | encoder =>
      have he := exec_decoderInstr_enc rfl hx
      exact he
    | decoder => simp [AtRest, hp] at h

/-- The `reset` of a block leaves the registers of the other one. -/
theorem exec_reset_sameRegisters {b c : Block} {s t : State} (hbc : b ≠ c)
    (hx : exec (.reset b) s = .next t) : SameRegisters c s t := by
  cases b with
  | encoder =>
    cases hx
    cases c with
    | encoder => exact absurd rfl hbc
    | decoder => rfl
  | decoder =>
    cases hx
    cases c with
    | encoder => rfl
    | decoder => exact absurd rfl hbc

theorem setPorts_sameRegisters (b c : Block) (p : Ports) (s : State) : SameRegisters c s (setPorts b p s) := by
  cases c with
  | encoder => exact setPorts_enc s p b
  | decoder => exact setPorts_dec s p b

/-- No event but its own `reset` changes a register of a block at rest. -/
theorem perform_sameRegisters {c : Block} {ev : Event} {s t : State} (h : AtRest c s) (hev : ev ≠ .reset c)
    (hx : perform ev s = .next t) : SameRegisters c s t := by
  cases ev with
  | reset b => exact exec_reset_sameRegisters (fun hbc => hev (congrArg Event.reset hbc)) hx
  | start b => exact exec_start_sameRegisters h hx
  | run b => exact stepBlock_sameRegisters h hx
  | record => exact stepRecord_sameRegisters h hx
  | bindSource b _ _ | bindSink b _ _ | unbindSource b | unbindSink b =>
    rw [rebind_eq_next hx]
    exact setPorts_sameRegisters b c _ s
  | supply b _ _ | acceptMore b _ _ =>
    cases hx
    exact setPorts_sameRegisters b c _ s

/-- Rest and the registers do not depend on the agenda and the turn. -/
theorem atRest_schedule {c : Block} {s : State} (h : AtRest c s) (a : List Event) (b : Block) :
    AtRest c { s with agenda := a, turn := b } := by
  cases c <;> exact h

theorem sameRegisters_schedule {c : Block} {s t : State} {a : List Event} {b : Block}
    (h : SameRegisters c { s with agenda := a, turn := b } t) : SameRegisters c s t := by
  cases c <;> exact h

/-- A block at rest keeps its registers over every step but its own `reset`. -/
theorem step_sameRegisters {c : Block} {s t : State} (h : AtRest c s)
    (hr : ∀ rest, s.agenda ≠ .reset c :: rest) (hx : step s = .next t) : SameRegisters c s t := by
  cases ha : s.agenda with
  | nil =>
    rw [step_of_no_event ha] at hx
    exact sameRegisters_schedule (stepBlock_sameRegisters (atRest_schedule h _ _) hx)
  | cons ev rest =>
    rw [step_of_event ha] at hx
    have hev : ev ≠ .reset c := fun he => hr rest (by rw [ha, he])
    exact sameRegisters_schedule (perform_sameRegisters (atRest_schedule h rest s.turn) hev hx)

/-- Settles O40: a block at rest selects nothing, so its turns are waits; and no event reaches its registers but
its `reset`. -/
theorem doneAndFaultAbsorb : Obligations.DoneAndFaultAbsorb := by
  have waits {c : Block} {s : State} (h : AtRest c s) (k : Nat) : runTurns c k s = .next s :=
    runTurns_of_waits (stepBlock_of_atRest h) k
  refine ⟨fun s k => ⟨fun h => ?_, fun h => ?_⟩, fun s t hx => ⟨fun h hr => ?_, fun h hr => ?_⟩⟩
  · exact waits (c := .encoder) h k
  · exact waits (c := .decoder) h k
  · exact step_sameRegisters (c := .encoder) h hr hx
  · exact step_sameRegisters (c := .decoder) h hr hx

/-! ### The faults of the encoder (R138). -/

/-- An operation with a current byte ends in FAULT only where a port failed (R133, R134). -/
theorem exec_classifying_fault {i : Instr} {s t : State} (hi : isClassifyingOp i = true)
    (hx : exec i s = .next t) (hf : t.enc.phase = .fault) : t.enc.cause = 2 := by
  obtain ⟨hs, -, h⟩ := exec_classifying_cases hi hx
  obtain ⟨hp, -⟩ := classifyingSelected_cases hs
  obtain rfl | ⟨x, p₁, p', -, -, -, rfl⟩ | ⟨p', -, rfl⟩ | ⟨p₁, p', -, -, -, rfl⟩ := h
  · exact absurd (hp.symm.trans hf) (by decide)
  · exact absurd ((hp.symm.trans (encAfter_phase i s.enc x).symm).trans hf) (by decide)
  · rfl
  · rfl

/-- ENC.START ends in FAULT where a port is not bound, with cause 1, or where a read failed (R131, R133). -/
theorem exec_encStart_fault {s t : State} (hx : exec .encStart s = .next t) (hf : t.enc.phase = .fault) :
    (t.enc.cause = 1 ∧ (s.encPorts.source.bound = false ∨ s.encPorts.sink.bound = false)) ∨
      t.enc.cause = 2 := by
  obtain ⟨hp, -, rfl | ⟨k, hk, rfl⟩ | ⟨p', -, rfl⟩ | ⟨b, n, x, p₁, p₂, p', -, -, -, -, rfl⟩ |
    ⟨p', -, -, -, -, -, rfl⟩⟩ := exec_encStart_cases hx
  · exact absurd (hp.symm.trans hf) (by decide)
  · obtain ⟨rfl, hb⟩ | ⟨rfl, hb⟩ := hk
    · exact .inl ⟨rfl, .inl hb⟩
    · exact .inl ⟨rfl, .inr hb⟩
  · cases hf
  · cases hf
  · exact .inr rfl

/-- Settles O41: ENC.START raises for a binding or a read, ENC.HALT raises nothing, and the operations with a
current byte raise for a port alone. -/
theorem encoderNeverMalformed : Obligations.EncoderNeverMalformed := by
  intro i s t hi hx hf
  obtain rfl | rfl | ⟨-, -, hc⟩ := isEncoderOp_cases hi
  · exact (exec_encStart_fault hx hf).imp_left fun ⟨hcause, hb⟩ => ⟨hcause, rfl, hb⟩
  · obtain ⟨-, -, rfl⟩ := exec_encHalt_cases hx
    cases hf
  · exact .inr (exec_classifying_fault hc hx hf)

end Sys2Proof.Machine

/-! PROOFS, family 70_reset_and_hazards: the host's two commands. -/

namespace Sys2Proof.Machine

/-! ### The host's `reset`, in any phase (R160). -/

theorem exec_reset_encoder (s : State) :
    exec (.reset .encoder) s =
      .next { s with enc := encAfterReset s.free, encPorts := startTaken s.encPorts, free := s.free + 1 } := rfl

theorem exec_reset_decoder (s : State) :
    exec (.reset .decoder) s =
      .next { s with dec := decAfterReset s.free, decPorts := startTaken s.decPorts, free := s.free + 1 } := rfl

/-- Settles O36: the registers of the block are replaced, its streams are those before the command was dropped,
and the rest of the state is copied. -/
theorem resetReturnsToIdle : Obligations.ResetReturnsToIdle := by
  intro s
  refine ⟨⟨_, exec_reset_encoder s, rfl, rfl, rfl, ?_, ?_, rfl, rfl, rfl, rfl⟩,
    ⟨_, exec_reset_decoder s, rfl, rfl, rfl, ?_, ?_, rfl, rfl, rfl, rfl⟩⟩
  · exact startTaken_source s.encPorts
  · exact startTaken_sink s.encPorts
  · exact startTaken_source s.decPorts
  · exact startTaken_sink s.decPorts

/-! ### The host's `start`, outside IDLE and in IDLE (R161). -/

section
variable {s : State}

theorem exec_start_encoder_ignored (hp : s.enc.phase ≠ .idle) : exec (.start .encoder) s = .next s := if_neg hp

theorem exec_start_decoder_ignored (hp : s.dec.phase ≠ .idle) : exec (.start .decoder) s = .next s := if_neg hp

theorem selectEncoder_idle_none (hp : s.enc.phase = .idle) (hst : s.encPorts.start = false) :
    selectEncoder s = none := by
  simp only [selectEncoder, hp, hst, Bool.false_eq_true, if_false]

theorem selectDecoder_idle_none (hp : s.dec.phase = .idle) (hst : s.decPorts.start = false) :
    selectDecoder s = none := by
  simp only [selectDecoder_phase, hp, hst, Bool.false_eq_true, if_false]

end

/-- Settles O37: `start` by the phase it meets, and what IDLE selects with no command issued. -/
theorem startOnlyInIdle : Obligations.StartOnlyInIdle := fun _ =>
  ⟨exec_start_encoder_ignored, exec_start_decoder_ignored, exec_start_encoder, exec_start_decoder,
    selectEncoder_idle_none, selectDecoder_idle_none⟩

end Sys2Proof.Machine
